-- ==== Sys2Proof/Word.lean ====
section
/-! DEFINITION. The word types of the LZSS codec block: bytes, window positions, match-word fields, tree indices
(00_scope.md R7, R13; 10_state.md R46). -/

namespace Sys2Proof

/-- A byte, an unsigned value 0..255 (R13). -/
abbrev Byte := BitVec 8

/-- A window position, `0..N-1` with `N = 4096`: every window address is reduced `mod N` (R7, R63), which is what
arithmetic on 12 bits does. The 12-bit offset of a match word has the same width. -/
abbrev WinPos := BitVec 12

/-- The 4-bit length field of a match word, `realLength - 3` (R7, R94). -/
abbrev LenField := BitVec 4

/-- The 16-bit match word `W` (R15, R95). -/
abbrev MatchWord := BitVec 16

/-- An entry of a tree RAM, 13 bits: a window position, `NIL`, or a root slot (R46, R69). -/
abbrev TreeIndex := BitVec 13

end Sys2Proof
end

