-- ==== Sys2Proof/Config.lean ====
section
/-! DEFINITION. The constants of the hardware (00_scope.md R7), the Configuration registers and their value sets
(10_state.md R21 to R29), the status names (R34), and the free values: what the spec leaves unspecified, as opaque
constants with no body. -/

namespace Sys2Proof

/-- Window size in bytes (R7). -/
abbrev Config.N : Nat := 4096

/-- Maximum match length (R7). -/
abbrev Config.F : Nat := 18

/-- A match of at most this length is coded as a literal (R7). -/
abbrev Config.THRESHOLD : Nat := 2

/-- Codewords per control byte (R7). -/
abbrev Config.GROUP : Nat := 8

/-- Bytes of the encoder's code buffer (R7). -/
abbrev Config.CODEBUF : Nat := 17

/-- `NIL`, the "no node" sentinel of the tree RAMs (R7, R69). -/
abbrev Config.NIL : TreeIndex := 4096

/-- `CFG.controlBitOrder` (R21). -/
inductive BitOrder where
  | lsb
  | msb
  deriving DecidableEq, Repr, Inhabited

/-- `CFG.matchFieldLayout` (R22): the nibble of the match word that holds `len`. -/
inductive Layout where
  | hh
  | hl
  | lh
  | ll
  deriving DecidableEq, Repr, Inhabited

/-- `CFG.matchFieldEndianness` (R23), and the byte order of a header's size field (R201). -/
inductive Endian where
  | le
  | be
  deriving DecidableEq, Repr, Inhabited

/-- `CFG.prefillMode` (R24). -/
inductive PrefillMode where
  | constant
  | custom
  | none
  deriving DecidableEq, Repr, Inhabited

/-- `CFG.eosMode` (R28). -/
inductive EosMode where
  | none
  | nullref
  deriving DecidableEq, Repr, Inhabited

/-- The values of `STATUS` (R34, R225). -/
inductive Status where
  | ok
  | truncatedInput
  | outputExhausted
  | badBackReference
  | configurationError
  | headerMismatch
  deriving DecidableEq, Repr, Inhabited

/-- `PREFILL_FN`, a pure function from window position to byte (R26, R122), held as its table of `N` bytes.
DESIGN CHOICE (log 11): State is plain data; safe, since every such function is such a table. -/
abbrev PrefillTable := Vector Byte 4096

/-- The Configuration registers `CFG.*` (R20 group 1), written at CREATE and read-only afterwards (R30). -/
structure Configuration where
  /-- R21 -/
  controlBitOrder : BitOrder
  /-- R22 -/
  matchFieldLayout : Layout
  /-- R23 -/
  matchFieldEndianness : Endian
  /-- R24 -/
  prefillMode : PrefillMode
  /-- R25 -/
  prefillValue : Byte
  /-- R26 -/
  prefillFn : Option PrefillTable
  /-- R27 -/
  writeStart : WinPos
  /-- R28 -/
  eosMode : EosMode
  /-- R29 -/
  dupShortcut : Bool
  deriving DecidableEq, Repr

/-- The default Configuration as register values (R216, R50). -/
def Configuration.default : Configuration where
  controlBitOrder := .lsb
  matchFieldLayout := .hl
  matchFieldEndianness := .le
  prefillMode := .constant
  prefillValue := 0x20
  prefillFn := none
  writeStart := 4078
  eosMode := .none
  dupShortcut := false

/-- A Configuration as the host gives it to CREATE: the enumerated fields as the numeric codes of decision D15 (R21 to
R24, R28, R29), so that a malformed value can be given and refused (R217). -/
structure RawConfiguration where
  controlBitOrder : Nat
  matchFieldLayout : Nat
  matchFieldEndianness : Nat
  prefillMode : Nat
  prefillValue : Byte
  prefillFn : Option PrefillTable
  writeStart : Nat
  eosMode : Nat
  dupShortcut : Nat
  deriving DecidableEq, Repr

/-- FREE VALUE (log 2): the byte that the window holds at a position nothing has written since draw number `draw`, the
draw `W0` of R9 and R31. Nothing constrains it. -/
opaque Config.freeWindowByte (draw position : Nat) : Byte

/-- FREE VALUE (log 3): `STATUS` between draw number `draw` and the next `finish` (R50: "unspecified until `finish`
writes them"). -/
opaque Config.freeStatus (draw : Nat) : Status

/-- FREE VALUE (log 3): `BYTES_WRITTEN` between draw number `draw` and the next `finish`, a natural below 2^32 (R35, R50). -/
opaque Config.freeBytesWritten (draw : Nat) : BitVec 32

end Sys2Proof
end

