-- ==== Sys2Proof/Syntax.lean ====
section
/-! DEFINITION. The instruction set: the symbols of the compressed bitstream, one constructor per row of
spec/opcode_table.json (30_encoding.md R108). -/

namespace Sys2Proof

/-- A symbol of the stream. The eight reference constructors are the eight dialects of a match word (R96): the layout
names the nibble of the match word that holds `len` (HH, HL, LH, LL), the last two letters its byte order (LE, BE). -/
inductive Instr where
  /-- CTRL, a control byte `f` (R91). -/
  | ctrl (f : Byte)
  /-- LIT, a literal byte `b` (R93). -/
  | lit (b : Byte)
  /-- REF.HH.LE (R94 to R99). -/
  | refHHLE (ofs : WinPos) (len : LenField)
  /-- REF.HH.BE -/
  | refHHBE (ofs : WinPos) (len : LenField)
  /-- REF.HL.LE -/
  | refHLLE (ofs : WinPos) (len : LenField)
  /-- REF.HL.BE -/
  | refHLBE (ofs : WinPos) (len : LenField)
  /-- REF.LH.LE -/
  | refLHLE (ofs : WinPos) (len : LenField)
  /-- REF.LH.BE -/
  | refLHBE (ofs : WinPos) (len : LenField)
  /-- REF.LL.LE -/
  | refLLLE (ofs : WinPos) (len : LenField)
  /-- REF.LL.BE -/
  | refLLBE (ofs : WinPos) (len : LenField)
  /-- EOS, the null-reference terminator `00 00` (R100). -/
  | eos
  deriving DecidableEq, Repr

/-- The reference constructor of a dialect (R96). -/
def Instr.ref (layout : Layout) (endian : Endian) (ofs : WinPos) (len : LenField) : Instr :=
  match layout, endian with
  | .hh, .le => .refHHLE ofs len
  | .hh, .be => .refHHBE ofs len
  | .hl, .le => .refHLLE ofs len
  | .hl, .be => .refHLBE ofs len
  | .lh, .le => .refLHLE ofs len
  | .lh, .be => .refLHBE ofs len
  | .ll, .le => .refLLLE ofs len
  | .ll, .be => .refLLBE ofs len

end Sys2Proof
end

