-- ==== Sys2Proof/WellFormed.lean ====
section
/-! DEFINITION. Which symbols a Configuration's stream can hold (30_encoding.md R94 to R101; the "selector" column of
spec/opcode_table.json). The operands themselves are never ill-formed: every control byte, literal, offset and length
field is legal (R102). -/

namespace Sys2Proof

/-- A reference written in dialect (`layout`, `endian`) may stand in the stream of `cfg`: the dialect is the
Configuration's (R96), and it is not the two bytes that are the terminator there (R100). -/
def refWf (cfg : Configuration) (layout : Layout) (endian : Endian) (ofs : WinPos) (len : LenField) : Bool :=
  decide (cfg.matchFieldLayout = layout) && decide (cfg.matchFieldEndianness = endian)
    && !(decide (cfg.eosMode = .nullref) && decide (ofs = 0) && decide (len = 0))

/-- The symbol `i` may stand in a stream of the Configuration `cfg`. -/
def Instr.wf (cfg : Configuration) (i : Instr) : Bool :=
  match i with
  | .ctrl _ => true
  | .lit _ => true
  | .refHHLE ofs len => refWf cfg .hh .le ofs len
  | .refHHBE ofs len => refWf cfg .hh .be ofs len
  | .refHLLE ofs len => refWf cfg .hl .le ofs len
  | .refHLBE ofs len => refWf cfg .hl .be ofs len
  | .refLHLE ofs len => refWf cfg .lh .le ofs len
  | .refLHBE ofs len => refWf cfg .lh .be ofs len
  | .refLLLE ofs len => refWf cfg .ll .le ofs len
  | .refLLBE ofs len => refWf cfg .ll .be ofs len
  | .eos => decide (cfg.eosMode = .nullref)

end Sys2Proof
end

