-- ==== Sys2Proof/Decode.lean ====
section
/-! DEFINITION. The bitstream's encoding, both directions: unpacking and packing a match word (30_encoding.md R95 to R98),
the decoder of one symbol, the encoder of one symbol, and the reading of an opcode-table word. -/

namespace Sys2Proof

/-- What the decoder's state says the next byte is (R101): a control byte, a literal, or a reference. -/
inductive Selector where
  | control
  | literal
  | reference
  deriving DecidableEq, Repr

/-- Why the decoder reads no symbol. The bytes end inside it; there is no other reason (R102). -/
inductive DecodeReject where
  /-- Fewer bytes are left than the symbol needs (R189). -/
  | truncated
  deriving DecidableEq, Repr

/-- What the decoder reads from a byte sequence: a symbol and the bytes after it, or a rejection by name. -/
inductive Decoded where
  | symbol (i : Instr) (rest : List Byte)
  | rejected (why : DecodeReject)
  deriving DecidableEq, Repr

/-- The match word of two stream bytes (R95). -/
def matchWord (endian : Endian) (first second : Byte) : MatchWord :=
  match endian with
  | .le => second ++ first
  | .be => first ++ second

/-- The offset field of a match word (R97). -/
def unpackOfs (layout : Layout) (w : MatchWord) : WinPos :=
  match layout with
  | .hh => w.extractLsb' 0 12
  | .hl => w.extractLsb' 12 4 ++ w.extractLsb' 0 8
  | .lh => w.extractLsb' 8 8 ++ w.extractLsb' 0 4
  | .ll => w.extractLsb' 4 12

/-- The length field of a match word (R97). -/
def unpackLen (layout : Layout) (w : MatchWord) : LenField :=
  match layout with
  | .hh => w.extractLsb' 12 4
  | .hl => w.extractLsb' 8 4
  | .lh => w.extractLsb' 4 4
  | .ll => w.extractLsb' 0 4

/-- The match word of an offset and a length field (R96, the formula column; R98). -/
def packWord (layout : Layout) (ofs : WinPos) (len : LenField) : MatchWord :=
  match layout with
  | .hh => len ++ ofs
  | .hl => ofs.extractLsb' 8 4 ++ len ++ ofs.extractLsb' 0 8
  | .lh => ofs.extractLsb' 4 8 ++ len ++ ofs.extractLsb' 0 4
  | .ll => ofs ++ len

/-- The two bytes of a match word in stream order (R95). -/
def wordBytes (endian : Endian) (w : MatchWord) : List Byte :=
  match endian with
  | .le => [w.extractLsb' 0 8, w.extractLsb' 8 8]
  | .be => [w.extractLsb' 8 8, w.extractLsb' 0 8]

/-- PACK (R98): the two bytes of a reference, in stream order. -/
def pack (layout : Layout) (endian : Endian) (ofs : WinPos) (len : LenField) : List Byte :=
  wordBytes endian (packWord layout ofs len)

/-- The symbol of a match word in a reference slot of `cfg`'s stream: the terminator where the Configuration has one and
both fields are 0 (R100, tested before anything else of the reference, R185), else the dialect's reference. -/
def referenceSymbol (cfg : Configuration) (ofs : WinPos) (len : LenField) : Instr :=
  if cfg.eosMode = .nullref ∧ ofs = 0 ∧ len = 0 then .eos
  else Instr.ref cfg.matchFieldLayout cfg.matchFieldEndianness ofs len

/-- The decoder of one symbol, total on every byte sequence (R101, R102): the selector says whether the next byte is a
control byte, a literal or the first of a reference. -/
def decode (cfg : Configuration) (sel : Selector) (bytes : List Byte) : Decoded :=
  match sel, bytes with
  | .control, f :: rest => .symbol (.ctrl f) rest
  | .literal, b :: rest => .symbol (.lit b) rest
  | .reference, first :: second :: rest =>
    let w := matchWord cfg.matchFieldEndianness first second
    .symbol (referenceSymbol cfg (unpackOfs cfg.matchFieldLayout w) (unpackLen cfg.matchFieldLayout w)) rest
  | _, _ => .rejected .truncated

/-- The encoder of one symbol: its bytes in stream order (R91, R93, R96, R98, R100). -/
def encode (i : Instr) : List Byte :=
  match i with
  | .ctrl f => [f]
  | .lit b => [b]
  | .refHHLE ofs len => pack .hh .le ofs len
  | .refHHBE ofs len => pack .hh .be ofs len
  | .refHLLE ofs len => pack .hl .le ofs len
  | .refHLBE ofs len => pack .hl .be ofs len
  | .refLHLE ofs len => pack .lh .le ofs len
  | .refLHBE ofs len => pack .lh .be ofs len
  | .refLLLE ofs len => pack .ll .le ofs len
  | .refLLBE ofs len => pack .ll .be ofs len
  | .eos => [0x00, 0x00]

/-- The selector under which the decoder reads a symbol (R101; the table's "selector" column). -/
def Instr.selector (i : Instr) : Selector :=
  match i with
  | .ctrl _ => .control
  | .lit _ => .literal
  | .refHHLE _ _ => .reference
  | .refHHBE _ _ => .reference
  | .refHLLE _ _ => .reference
  | .refHLBE _ _ => .reference
  | .refLHLE _ _ => .reference
  | .refLHBE _ _ => .reference
  | .refLLLE _ _ => .reference
  | .refLLBE _ _ => .reference
  | .eos => .reference

/-- The Configuration under which a word of the opcode table is read: `cfg` with the default dialect HL, LE and with the
terminator recognised. DESIGN CHOICE (log 10): the table's rows share their words, so a word alone names no dialect; safe. -/
def tableConfiguration (cfg : Configuration) : Configuration :=
  { cfg with matchFieldLayout := .hl, matchFieldEndianness := .le, eosMode := .nullref }

/-- The selector under which a word of the opcode table is read: 8 bits are a control byte, what a stream begins with
(R90); 16 bits are a reference slot's bytes. DESIGN CHOICE (log 10); safe. -/
def tableSelector (nbits : Nat) : Selector :=
  if nbits = 8 then .control else .reference

/-- The bytes of a word of the opcode table in stream order: of a 16-bit row, bits 15..8 are the first stream byte and
bits 7..0 the second (the table's "bit_numbering"). -/
def tableBytes (nbits w : Nat) : List Byte :=
  if nbits = 8 then [BitVec.ofNat 8 w]
  else if nbits = 16 then [BitVec.ofNat 8 (w / 256), BitVec.ofNat 8 w]
  else []

/-- The instruction the decoder reads from a word of the opcode table (log 10). -/
def decodeTableWord (nbits w : Nat) : Option Instr :=
  match decode (tableConfiguration Configuration.default) (tableSelector nbits) (tableBytes nbits w) with
  | .symbol i _ => some i
  | .rejected _ => none

end Sys2Proof
end

