-- ==== Sys2Proof/Machine/State.lean ====
section
/-! DEFINITION. The state of the machine as plain data (10_state.md R20 to R50), the host's requests and what they hand
back (45_command_interface.md), the reasons a step stops, and the state after reset. -/

namespace Sys2Proof.Machine

/-- What a cell that nothing has written reads as, in the memories `WIN`, `OUT` and `codeBuf`. -/
inductive Background where
  /-- One byte everywhere: PREFILL in mode `constant` (R121), and the code buffer's 0. -/
  | constant (v : Byte)
  /-- The table of the prefill function: PREFILL in mode `custom` (R121). -/
  | table (t : PrefillTable)
  /-- Draw number `k` of unspecified content: `W0` (R31). -/
  | draw (k : Nat)
  /-- The caller's content of `OUT` at the start of the call (R48). -/
  | caller (bytes : List Byte)
  deriving DecidableEq, Repr

/-- A byte memory: what unlisted cells read as, and the cells that differ from it, in the canonical form `Memory.wf`. -/
structure Memory where
  base : Background
  cells : List Host.Cell
  deriving DecidableEq, Repr

/-- `MODE` (R36). -/
inductive Mode where
  | absent
  | idle
  | decoding
  | encoding
  deriving DecidableEq, Repr

/-- `dstate` (R42). -/
inductive DState where
  | readControlBit
  | processSymbol
  deriving DecidableEq, Repr

/-- The decoder's working registers (R37). `ip`, `op` are held as naturals; DESIGN CHOICE (log 7), safe: "every rule also
holds over unbounded naturals" (D17). -/
structure DecoderRegs where
  /-- index of the next unread byte of `IN`; with `bitsLeft` the program counter (R38) -/
  ip : Nat
  /-- number of bytes written to `OUT` (R41) -/
  op : Nat
  /-- window write cursor (R40) -/
  cur : WinPos
  /-- the current control byte, shifted as its bits are used (R39) -/
  ctrl : Byte
  /-- unused flag bits left in `ctrl`, 0..8 (R39) -/
  bitsLeft : BitVec 4
  /-- the flag bit of the symbol being processed -/
  flag : Bool
  dstate : DState
  /-- offset of the reference being copied -/
  ofs : WinPos
  /-- length field of the reference being copied -/
  lenField : LenField
  /-- bytes of the current reference still to copy, 0..18 -/
  remaining : BitVec 5
  deriving DecidableEq, Repr

/-- The encoder's working registers and code buffer (R43, R44). `ip` is the encoder's own (DEDUCED, log 25). -/
structure EncoderRegs where
  /-- index of the next unread byte of `IN` -/
  ip : Nat
  /-- window position of the next byte to code -/
  r : WinPos
  /-- window position where the next input byte is loaded -/
  s : WinPos
  /-- number of valid lookahead bytes at `r`, 0..18 -/
  len : BitVec 5
  /-- bytes coded by the codeword just emitted -/
  lastMatchLength : BitVec 5
  /-- slide counter -/
  i : BitVec 5
  /-- number of codewords in the code buffer, 0..8 -/
  slot : BitVec 4
  /-- bytes in the code buffer, the control byte included, 1..17 -/
  codeLen : BitVec 5
  /-- bytes written to `OUT` -/
  outCount : Nat
  /-- the code buffer, addresses 0..16 (R44) -/
  codeBuf : Memory
  deriving DecidableEq, Repr

/-- A tree RAM: the entries that are not `NIL`, as (index, entry) pairs with rising indices (R46). -/
abbrev TreeRam := List (Nat × TreeIndex)

/-- The match finder: its three tree RAMs (R46) and the Match Record it hands the encoder (R45). -/
structure MatchFinder where
  /-- left children, indices `0..N` -/
  lson : TreeRam
  /-- right children, indices `0..N+256`; `N+1+c` is the root slot of first byte `c` -/
  rson : TreeRam
  /-- parents, indices `0..N` -/
  dad : TreeRam
  matchPosition : WinPos
  matchLength : BitVec 5
  deriving DecidableEq, Repr

/-- One codec instance (R20): its six groups of state, and `MODE` (R36). -/
structure Instance where
  cfg : Configuration
  mode : Mode
  status : Status
  bytesWritten : Nat
  win : Memory
  dec : DecoderRegs
  enc : EncoderRegs
  mf : MatchFinder
  deriving DecidableEq, Repr

/-- Which of the two sizes a header's size field carries (R201). -/
inductive SizeKind where
  | orig
  | comp
  deriving DecidableEq, Repr

/-- The admitted widths of a header's size field, 2 or 4 bytes (R201). -/
inductive SizeWidth where
  | two
  | four
  deriving DecidableEq, Repr

/-- A field of an archive header (R201). A string has length at least 1: its first byte, and the bytes after it. -/
inductive HeaderField where
  | byte (v : Byte)
  | str (first : Byte) (rest : List Byte)
  | size (kind : SizeKind) (width : SizeWidth) (endian : Endian)
  | ignore (v : Byte)
  deriving DecidableEq, Repr

/-- What READ_HEADER gives (R204): the sizes found, each possibly absent (R205), and where the payload starts; or a
failure's status. -/
inductive HeaderRead where
  | found (origSize compSize : Option Nat) (payload : Nat)
  | failed (status : Status)
  deriving DecidableEq, Repr

/-- A request of the host: the five commands (R215), naming the instance they act on by its handle, and the three
operations of the header codec (R202 to R204; log 21). `input` is `IN`; `output` is the caller's buffer `OUT` with its
content, and `OUT_CAP` is its length (log 12). -/
inductive Request where
  | getDefaultConfig
  | create (c : RawConfiguration)
  | destroy (handle : Nat)
  | encode (handle : Nat) (input output : List Byte)
  | decode (handle : Nat) (input output : List Byte)
  | parseSpec (spec : List Byte)
  | writeHeader (fields : List HeaderField) (origSize compSize : Nat)
  | readHeader (fields : List HeaderField) (input : List Byte)
  deriving DecidableEq, Repr

/-- What the last request handed back, beside STATUS, BYTES_WRITTEN and OUT (R216, R217, R202 to R204). -/
inductive Reply where
  /-- nothing beside the result registers -/
  | nothing
  | config (c : RawConfiguration)
  | created (handle : Nat)
  | configurationError
  | destroyed
  | fields (fs : List HeaderField)
  | header (bytes : List Byte)
  | headerRead (r : HeaderRead)
  deriving DecidableEq, Repr

/-- The machine: the selected instance (the one a call runs on or was last addressed), the others, the buffers of the
call, and the host's side. -/
structure State extends Instance where
  /-- handle of the selected instance -/
  sel : Nat
  /-- the other instances that exist, by handle; each is idle -/
  parked : List (Nat × Instance)
  /-- the handle the next CREATE gives -/
  nextHandle : Nat
  /-- `IN`, the caller's input bytes; `IN_LEN` is its length (R48) -/
  inBuf : List Byte
  /-- `OUT`, the caller's output buffer (R48) -/
  out : Memory
  /-- `OUT_CAP` (R9) -/
  outCap : Nat
  /-- commands the host has issued and the engine has not taken, oldest first -/
  requests : List Request
  reply : Reply
  /-- the model's own: the number of free values drawn so far (log 4) -/
  draws : Nat
  deriving DecidableEq, Repr

/-- Why the machine stops with a fault. Both are the model's own and safe: the spec's rules never lead there, and the
model claims nothing of a machine that is there. -/
inductive Fault where
  /-- Raised by INSERT and DELETE (R144, R145, R147): a link names no cell of the tree RAM it is followed into, or the walk
  does not end. A tree that keeps R47 has no such link and no such walk. Safe (log 15). -/
  | treeBroken
  /-- Raised by the encoder before it puts a codeword into `codeBuf` where fewer than two of its 17 bytes (R44) are free.
  Safe (log 16). -/
  | codeBufferFull
  deriving DecidableEq, Repr

/-- Why the machine refuses. -/
inductive Refusal where
  /-- Raised by `exec` for an instruction that has no meaning yet. Safe. -/
  | notModelled (mnemonic : String)
  /-- Raised by a command on an instance that does not exist: "a command on an instance that is `Absent` [...] has no
  meaning: the model refuses it" (R223). Safe. -/
  | instanceAbsent (handle : Nat)
  /-- Raised by a command on an instance whose call is still running, which a synchronous host cannot issue (R223). Safe. -/
  | instanceBusy (handle : Nat)
  deriving DecidableEq, Repr

/-- The instance that State holds where there is none: `MODE = Absent` (R36). Its other registers exist with no instance
and no rule reads them; DESIGN CHOICE (log 1): the default Configuration and the values that the decoder's and the encoder's
registers take at a call's start (R37, R43 to R45), `STATUS` OK and `BYTES_WRITTEN` 0. Unsafe: the spec gives no value. -/
def Instance.blank : Instance where
  cfg := Configuration.default
  mode := .absent
  status := .ok
  bytesWritten := 0
  win := { base := .draw 0, cells := [] }
  dec :=
    { ip := 0, op := 0, cur := 4078, ctrl := 0, bitsLeft := 0, flag := false, dstate := .readControlBit,
      ofs := 0, lenField := 0, remaining := 0 }
  enc :=
    { ip := 0, r := 4078, s := 0, len := 0, lastMatchLength := 0, i := 0, slot := 0, codeLen := 1, outCount := 0,
      codeBuf := { base := .constant 0, cells := [] } }
  mf := { lson := [], rson := [], dad := [], matchPosition := 0, matchLength := 0 }

/-- The machine before any command: no instance (R36, R250), no request pending, no buffers. -/
def State.reset : State where
  toInstance := Instance.blank
  sel := 0
  parked := []
  nextHandle := 0
  inBuf := []
  out := { base := .caller [], cells := [] }
  outCap := 0
  requests := []
  reply := .nothing
  draws := 1

end Sys2Proof.Machine
end

