-- ==== Sys2Proof/Machine/Ops.lean ====
section
/-! DEFINITION. The named operations over memories and registers, ending a call (`finish`, the hardware's only exception
entry, 60_exceptions.md R230), and PREFILL (40_window_prefill.md R121). -/

namespace Sys2Proof.Machine

/-! ### Sparse memories in canonical form -/

/-- The listed value at address `a`, if any. -/
def cellsFind {w : Nat} (cells : List (Nat × BitVec w)) (a : Nat) : Option (BitVec w) :=
  match cells with
  | [] => none
  | (b, v) :: rest => if b = a then some v else cellsFind rest a

/-- The list with address `a` holding `v`, addresses still rising. -/
def cellsInsert {w : Nat} (a : Nat) (v : BitVec w) (cells : List (Nat × BitVec w)) : List (Nat × BitVec w) :=
  match cells with
  | [] => [(a, v)]
  | (b, u) :: rest =>
    if a < b then (a, v) :: (b, u) :: rest
    else if b = a then (a, v) :: rest
    else (b, u) :: cellsInsert a v rest

/-- The list without address `a`. -/
def cellsErase {w : Nat} (a : Nat) (cells : List (Nat × BitVec w)) : List (Nat × BitVec w) :=
  match cells with
  | [] => []
  | (b, u) :: rest => if b = a then cellsErase a rest else (b, u) :: cellsErase a rest

/-- The list after writing `v` at `a`, where an unlisted `a` reads as `bg`: the value an unlisted address reads as is not
listed. -/
def cellsWrite {w : Nat} (bg : BitVec w) (a : Nat) (v : BitVec w) (cells : List (Nat × BitVec w)) : List (Nat × BitVec w) :=
  if v = bg then cellsErase a cells else cellsInsert a v cells

/-- The canonical form: addresses strictly rising, every one below `size`, no entry equal to what its address reads as when
unlisted. -/
abbrev cellsWf {w : Nat} (size : Nat) (bg : Nat → BitVec w) (cells : List (Nat × BitVec w)) : Prop :=
  cells.Pairwise (fun c d => c.1 < d.1) ∧ ∀ c ∈ cells, c.1 < size ∧ c.2 ≠ bg c.1

/-! ### Byte memories (20_memory.md R60 to R64) -/

/-- What a cell that nothing has written reads as: the ONE definition, for `WIN` (R121, R31), `OUT` (R48) and `codeBuf`
(R44). A prefill table and a caller's buffer have a byte for every address their memory has; beyond that, 0. -/
def Background.byteAt (base : Background) (a : Nat) : Byte :=
  match base with
  | .constant v => v
  | .table t => t.toList.getD a 0
  | .draw k => Config.freeWindowByte k a
  | .caller bytes => bytes.getD a 0

/-- One byte of a memory (R64). -/
def Memory.read (m : Memory) (a : Nat) : Byte :=
  (cellsFind m.cells a).getD (m.base.byteAt a)

/-- Write one byte of a memory (R64). -/
def Memory.write (m : Memory) (a : Nat) (v : Byte) : Memory :=
  { m with cells := cellsWrite (m.base.byteAt a) a v m.cells }

/-- A memory of `size` bytes is in canonical form. -/
abbrev Memory.wf (size : Nat) (m : Memory) : Prop :=
  cellsWf size m.base.byteAt m.cells

/-- `T(p)`, the window byte at position `p`; positions are 12 bits, so every sum of positions is reduced `mod N`
(R14, R63). -/
def Memory.byteT (win : Memory) (p : WinPos) : Byte :=
  win.read p.toNat

/-! ### Tree RAMs (10_state.md R46) -/

/-- One entry of a tree RAM; an unlisted entry is `NIL` (R50). -/
def ramRead (ram : TreeRam) (a : Nat) : TreeIndex :=
  (cellsFind ram a).getD Config.NIL

/-- Write one entry of a tree RAM. -/
def ramWrite (ram : TreeRam) (a : Nat) (v : TreeIndex) : TreeRam :=
  cellsWrite Config.NIL a v ram

/-- A tree RAM of `size` entries is in canonical form. -/
abbrev ramWf (size : Nat) (ram : TreeRam) : Prop :=
  cellsWf size (fun _ => Config.NIL) ram

/-! ### The status codes (10_state.md R34) -/

/-- The numeric code of a status (R34, R225; decision D14). -/
def statusCode (st : Status) : Nat :=
  match st with
  | .ok => 0
  | .truncatedInput => 1
  | .outputExhausted => 2
  | .badBackReference => 3
  | .configurationError => 4
  | .headerMismatch => 5

/-! ### PREFILL and the end of a call -/

/-- What every position of the window reads as after PREFILL (R121), `draw` being the number of the draw `W0` in mode
`none`. Mode `custom` with no prefill function is refused at CREATE (R217); the window of such a Configuration would be a
draw. -/
def prefillBase (cfg : Configuration) (draw : Nat) : Background :=
  match cfg.prefillMode, cfg.prefillFn with
  | .constant, _ => .constant cfg.prefillValue
  | .custom, some t => .table t
  | .custom, none => .draw draw
  | .none, _ => .draw draw

/-- PREFILL (R121): all `N` positions take the byte of `prefillBase`. -/
def State.prefill (s : State) : State :=
  { s with win := { base := prefillBase s.cfg s.draws, cells := [] } }

/-- The number of bytes written to `OUT` in the running call: the encoder's count, or the decoder's (R14). -/
def State.bytesOut (s : State) : Nat :=
  match s.mode with
  | .encoding => s.enc.outCount
  | .decoding => s.dec.op
  | .idle => s.dec.op
  | .absent => s.dec.op

/-- `finish(status)`, the only way a call ends and the hardware's only exception entry (R230): STATUS, BYTES_WRITTEN,
`MODE <- Idle`, and nothing else. There is no return from it: no command resumes a failed call (R233). -/
def State.finish (st : Status) (s : State) : State :=
  { s with status := st, bytesWritten := s.bytesOut, mode := .idle }

/-! ### The decoder's registers and its output -/

/-- Move the decoder's input index past `n` bytes (R38). -/
def State.skip (n : Nat) (s : State) : State :=
  { s with dec := { s.dec with ip := s.dec.ip + n } }

/-- Produce one byte: to `OUT[op]`, to `WIN[cur]`, and both indices advance (R40, R41, R184, R188). -/
def State.produce (b : Byte) (s : State) : State :=
  { s with
    out := s.out.write s.dec.op b
    win := s.win.write s.dec.cur.toNat b
    dec := { s.dec with op := s.dec.op + 1, cur := s.dec.cur + 1 } }

/-- Load a control byte (R39, R183): `ctrl <- f`, `ip <- ip + 1`, `bitsLeft <- 8`. -/
def State.loadCtrl (f : Byte) (s : State) : State :=
  { s with dec := { s.dec with ctrl := f, ip := s.dec.ip + 1, bitsLeft := 8 } }

/-- Take in the fields of a reference (R185): `ip <- ip + 2`, `ofs`, `lenField`. -/
def State.loadRef (ofs : WinPos) (len : LenField) (s : State) : State :=
  { s with dec := { s.dec with ip := s.dec.ip + 2, ofs := ofs, lenField := len } }

/-- Set the number of bytes of the reference still to copy (R37). -/
def State.setRemaining (n : Nat) (s : State) : State :=
  { s with dec := { s.dec with remaining := BitVec.ofNat 5 n } }

/-- The literal path (R184), once the byte `b` is there: `OutputExhausted` when the output is full, and then no effect;
else one byte produced and one byte of input taken. -/
def State.literal (b : Byte) (s : State) : State :=
  if s.dec.op < s.outCap then (s.skip 1).produce b else s.finish .outputExhausted

end Sys2Proof.Machine
end

