-- ==== Sys2Proof/Machine/Flags.lean ====
section
/-! DEFINITION. The slot flags of a control byte: which bit governs a slot (30_encoding.md R91), taking a flag in the decoder
(10_state.md R39), setting one in the encoder (42_encoder.md R166). -/

namespace Sys2Proof.Machine

/-- `LITERAL_FLAG = 1`: a flag of 1 marks a literal, 0 a reference (R8, R92; decision D1). -/
def literalFlag : Bool := true

/-- The flag bit that the sequencer takes next from `ctrl` (R39). -/
def nextFlag (order : BitOrder) (ctrl : Byte) : Bool :=
  match order with
  | .lsb => ctrl.getLsbD 0
  | .msb => ctrl.getLsbD 7

/-- `ctrl` after a flag is taken (R39). -/
def shiftCtrl (order : BitOrder) (ctrl : Byte) : Byte :=
  match order with
  | .lsb => ctrl >>> 1
  | .msb => ctrl <<< 1

/-- Take a flag (R39) and go from `ReadControlBit` to `ProcessSymbol` (R42). -/
def State.takeFlag (s : State) : State :=
  { s with
    dec := { s.dec with
      flag := nextFlag s.cfg.controlBitOrder s.dec.ctrl
      ctrl := shiftCtrl s.cfg.controlBitOrder s.dec.ctrl
      bitsLeft := s.dec.bitsLeft - 1
      dstate := .processSymbol } }

/-- The bit of a control byte that governs slot `k`, `k = 0..7` (R91). -/
def slotBit (order : BitOrder) (k : Nat) : Nat :=
  match order with
  | .lsb => k
  | .msb => 7 - k

/-- `FLAGBIT(k)` (R166). -/
def flagBit (order : BitOrder) (k : Nat) : Byte :=
  match order with
  | .lsb => (1 : Byte) <<< k
  | .msb => (0x80 : Byte) >>> k

end Sys2Proof.Machine
end

