-- ==== Sys2Proof/Machine/MatchFinder.lean ====
section
/-! DEFINITION. The match finder (41_match_finder.md): 256 binary search trees over window positions in the tree RAMs, keyed
by the `F`-byte strings of the window. A link that names no cell of the RAM it is followed into, or a walk that does not end,
gives `none` (a tree that breaks R47; log 15). -/

namespace Sys2Proof.Machine

/-- Read `lson[x]`, `x` in `0..N` (R46). -/
def MatchFinder.left (m : MatchFinder) (x : TreeIndex) : Option TreeIndex :=
  if x.toNat ≤ 4096 then some (ramRead m.lson x.toNat) else none

/-- Read `rson[x]`, `x` in `0..N+256` (R46). -/
def MatchFinder.right (m : MatchFinder) (x : TreeIndex) : Option TreeIndex :=
  if x.toNat ≤ 4352 then some (ramRead m.rson x.toNat) else none

/-- Read `dad[x]`, `x` in `0..N` (R46). -/
def MatchFinder.parent (m : MatchFinder) (x : TreeIndex) : Option TreeIndex :=
  if x.toNat ≤ 4096 then some (ramRead m.dad x.toNat) else none

/-- Write `lson[x] <- v`. -/
def MatchFinder.setLeft (x v : TreeIndex) (m : MatchFinder) : Option MatchFinder :=
  if x.toNat ≤ 4096 then some { m with lson := ramWrite m.lson x.toNat v } else none

/-- Write `rson[x] <- v`. -/
def MatchFinder.setRight (x v : TreeIndex) (m : MatchFinder) : Option MatchFinder :=
  if x.toNat ≤ 4352 then some { m with rson := ramWrite m.rson x.toNat v } else none

/-- Write `dad[x] <- v`; `dad[NIL]` is the scratch cell (R152). -/
def MatchFinder.setParent (x v : TreeIndex) (m : MatchFinder) : Option MatchFinder :=
  if x.toNat ≤ 4096 then some { m with dad := ramWrite m.dad x.toNat v } else none

/-- Window position `p` as a node (R69). -/
def nodeOf (p : WinPos) : TreeIndex :=
  p.setWidth 13

/-- The window position of node `x` (R69). -/
def posOf (x : TreeIndex) : WinPos :=
  x.setWidth 12

/-- The root slot `N+1+c` of the tree of first byte `c` (R46, R69; decision D10). -/
def rootSlot (c : Byte) : TreeIndex :=
  4097 + c.setWidth 13

/-- INIT_TREE (R142): every cell of the three RAMs is `NIL`, so none is listed. -/
def MatchFinder.initTree (m : MatchFinder) : MatchFinder :=
  { m with lson := [], rson := [], dad := [] }

/-- COMPARE (R143) with `n` bytes of the keys still to compare, that is from byte `i = F - n` on: the length of the common
prefix and the sign of the first difference, bytes unsigned (decision D9). -/
def compareFrom (win : Memory) (r p : WinPos) (n : Nat) : Nat × Ordering :=
  match n with
  | 0 => (Config.F, .eq)
  | n + 1 =>
    let i := Config.F - (n + 1)
    let a := win.byteT (r + BitVec.ofNat 12 i)
    let b := win.byteT (p + BitVec.ofNat 12 i)
    if a = b then compareFrom win r p n
    else (i, if b.toNat < a.toNat then .gt else .lt)

/-- COMPARE (R143): from byte 1 on, since the first bytes are equal by the choice of the tree. -/
def compareKeys (win : Memory) (r p : WinPos) : Nat × Ordering :=
  compareFrom win r p (Config.F - 1)

/-- The second half of REPLACE and of DELETE: the parent `d` of `p` takes `q` in the place of `p` (R145, R147). -/
def MatchFinder.relink (d p q : TreeIndex) (m : MatchFinder) : Option MatchFinder := do
  let rd ← m.right d
  if rd = p then m.setRight d q else m.setLeft d q

/-- REPLACE (R145; decision D24): `r` takes the place of `p`, with `p`'s parent and both children, and `p` becomes
unattached. -/
def MatchFinder.replace (p r : TreeIndex) (m : MatchFinder) : Option MatchFinder := do
  let d ← m.parent p
  let l ← m.left p
  let c ← m.right p
  let m ← m.setParent r d
  let m ← m.setLeft r l
  let m ← m.setRight r c
  let m ← m.setParent l r
  let m ← m.setParent c r
  let m ← m.relink d p r
  m.setParent p Config.NIL

/-- The walk of INSERT (R144) standing at `p`, a root slot or a node, with the comparison `cmp` that says where to go: `gt` and
`eq` right, `lt` left. `fuel` bounds the steps; a walk down a tree takes at most `N` (R262). A strictly longer common prefix is
recorded (R146); one of `F` bytes saturates, and the old node is replaced (R145). -/
def MatchFinder.walk (win : Memory) (r : WinPos) (fuel : Nat) (cmp : Ordering) (p : TreeIndex) (m : MatchFinder) :
    Option MatchFinder :=
  match fuel with
  | 0 => none
  | fuel + 1 =>
    match if cmp = .lt then m.left p else m.right p with
    | none => none
    | some q =>
      if q = Config.NIL then
        (if cmp = .lt then m.setLeft p (nodeOf r) else m.setRight p (nodeOf r)).bind (·.setParent (nodeOf r) p)
      else if q.toNat < Config.N then
        let found := compareKeys win r (posOf q)
        if m.matchLength.toNat < found.1 then
          let m := { m with matchPosition := posOf q, matchLength := BitVec.ofNat 5 found.1 }
          if Config.F ≤ found.1 then m.replace q (nodeOf r) else m.walk win r fuel found.2 q
        else m.walk win r fuel found.2 q
      else none

/-- INSERT (R144): clear `r`'s children and the match length, and walk from the root slot of `T(r)`, first to the right.
`matchPosition` keeps its old value where the tree is empty (decision D23). -/
def MatchFinder.insert (win : Memory) (r : WinPos) (m : MatchFinder) : Option MatchFinder := do
  let m ← m.setLeft (nodeOf r) Config.NIL
  let m ← m.setRight (nodeOf r) Config.NIL
  MatchFinder.walk win r (Config.N + 1) .gt (rootSlot (win.byteT r)) { m with matchLength := 0 }

/-- From `q` down right children to the rightmost node (R147), within `fuel` steps. -/
def MatchFinder.rightmost (m : MatchFinder) (fuel : Nat) (q : TreeIndex) : Option TreeIndex :=
  match fuel with
  | 0 => none
  | fuel + 1 =>
    match m.right q with
    | none => none
    | some c => if c = Config.NIL then some q else m.rightmost fuel c

/-- DELETE's two-children case (R147): the in-order predecessor `q` of `p` is unlinked from its place and adopts `p`'s
subtrees. The new tree and `q`. -/
def MatchFinder.adopt (p l c : TreeIndex) (m : MatchFinder) : Option (MatchFinder × TreeIndex) := do
  let lr ← m.right l
  if lr = Config.NIL then
    let m ← m.setRight l c
    let m ← m.setParent c l
    return (m, l)
  else
    let q ← m.rightmost (Config.N + 1) l
    let dq ← m.parent q
    let lq ← m.left q
    let m ← m.setRight dq lq
    let m ← m.setParent lq dq
    let lp ← m.left p
    let m ← m.setLeft q lp
    let m ← m.setParent lp q
    let m ← m.setRight q c
    let m ← m.setParent c q
    return (m, q)

/-- DELETE (R147; decision D24): nothing where `p` is in no tree; else the replacement `q` (its only child, `NIL`, or its
in-order predecessor) takes its place. -/
def MatchFinder.delete (p : TreeIndex) (m : MatchFinder) : Option MatchFinder := do
  let d ← m.parent p
  if d = Config.NIL then return m
  else
    let c ← m.right p
    let l ← m.left p
    let mq ← if c = Config.NIL then some (m, l) else if l = Config.NIL then some (m, c) else m.adopt p l c
    let m ← mq.1.setParent mq.2 d
    let m ← m.relink d p mq.2
    m.setParent p Config.NIL

/-- INSERT at `p`, `p - 1`, ... : `n` positions, nearest first (R149; decision D11). -/
def MatchFinder.seedFrom (win : Memory) (n : Nat) (p : WinPos) (m : MatchFinder) : Option MatchFinder :=
  match n with
  | 0 => some m
  | n + 1 =>
    match m.insert win p with
    | none => none
    | some m => MatchFinder.seedFrom win n (p - 1) m

/-- How many positions SEED inserts (R149): `F`, `N - F` or none. -/
def seedCount (mode : PrefillMode) : Nat :=
  match mode with
  | .constant => Config.F
  | .custom => Config.N - Config.F
  | .none => 0

/-- SEED (R149): the positions `r - 1`, `r - 2`, ... of the prefilled region. -/
def MatchFinder.seed (cfg : Configuration) (win : Memory) (m : MatchFinder) : Option MatchFinder :=
  MatchFinder.seedFrom win (seedCount cfg.prefillMode) (cfg.writeStart - 1) m

end Sys2Proof.Machine
end

