-- ==== Sys2Proof/Machine/Encoder.lean ====
section
/-! DEFINITION. The encoder (42_encoder.md): loading the lookahead, one codeword turn (STEP, FLUSH, SLIDE), the terminator and
the final flush. -/

namespace Sys2Proof.Machine

/-- Put one byte at the end of the pending codewords (R165, R167, R171). -/
def State.appendCode (b : Byte) (s : State) : State :=
  { s with
    enc := { s.enc with
      codeBuf := s.enc.codeBuf.write s.enc.codeLen.toNat b
      codeLen := s.enc.codeLen + 1 } }

/-- Set the flag of the slot being filled (R165, R166). -/
def State.setSlotFlag (s : State) : State :=
  { s with
    enc := { s.enc with
      codeBuf := s.enc.codeBuf.write 0 (s.enc.codeBuf.read 0 ||| flagBit s.cfg.controlBitOrder s.enc.slot.toNat) } }

/-- A codeword more in the code buffer, of `n` input bytes (R164). -/
def State.codewordDone (n : Nat) (s : State) : State :=
  { s with enc := { s.enc with lastMatchLength := BitVec.ofNat 5 n, slot := s.enc.slot + 1 } }

/-- EMIT_LIT (R165). -/
def State.emitLit (s : State) : State :=
  s.setSlotFlag.appendCode (s.win.byteT s.enc.r)

/-- Append several bytes to the pending codewords, in order. -/
def State.appendCodes (bs : List Byte) (s : State) : State :=
  match bs with
  | [] => s
  | b :: rest => (s.appendCode b).appendCodes rest

/-- The distance the stream carries, `(r - matchPosition) mod N` (R167; decision D2). -/
def State.matchOfs (s : State) : WinPos :=
  s.enc.r - s.mf.matchPosition

/-- EMIT_REF(m) (R167). -/
def State.emitRef (m : Nat) (s : State) : State :=
  s.appendCodes (pack s.cfg.matchFieldLayout s.cfg.matchFieldEndianness s.matchOfs
    (BitVec.ofNat 4 (m - Config.THRESHOLD - 1)))

/-- The match length STEP works with, capped to the valid lookahead (R164). -/
def State.cappedMatch (s : State) : Nat :=
  min s.mf.matchLength.toNat s.enc.len.toNat

/-- STEP (R164): a literal, or a reference where more than THRESHOLD lookahead bytes match. -/
def State.encodeStep (s : State) : State :=
  if s.cappedMatch ≤ Config.THRESHOLD then s.emitLit.codewordDone 1
  else (s.emitRef s.cappedMatch).codewordDone s.cappedMatch

/-- `emit(b)` where it fits (R172). -/
def State.emitByte (b : Byte) (s : State) : State :=
  { s with out := s.out.write s.enc.outCount b, enc := { s.enc with outCount := s.enc.outCount + 1 } }

/-- FLUSH's copy (R169), `n` bytes of the code buffer from `k` on: `OutputExhausted` at the first that does not fit (R172).
The call has ended where `MODE` is no longer `Encoding`. -/
def State.flushFrom (n k : Nat) (s : State) : State :=
  match n with
  | 0 => s
  | n + 1 =>
    if s.enc.outCount < s.outCap then (s.emitByte (s.enc.codeBuf.read k)).flushFrom n (k + 1)
    else s.finish .outputExhausted

/-- Empty the code buffer (R169): `codeBuf[0] <- 0`, `codeLen <- 1`, `slot <- 0`. -/
def State.clearCode (s : State) : State :=
  { s with enc := { s.enc with codeBuf := s.enc.codeBuf.write 0 0, codeLen := 1, slot := 0 } }

/-- FLUSH (R169). -/
def State.flush (s : State) : State :=
  let t := s.flushFrom s.enc.codeLen.toNat 0
  if t.mode = .encoding then t.clearCode else t

/-- One byte of SLIDE (R168): DELETE `s` before its byte changes (R256); where input is left, load the next byte there and
INSERT the new `r`; where it is not, the lookahead shrinks. -/
def State.slideByte (s : State) : Option State := do
  let m ← s.mf.delete (nodeOf s.enc.s)
  match s.inBuf[s.enc.ip]? with
  | some b =>
    let win := s.win.write s.enc.s.toNat b
    let m ← m.insert win (s.enc.r + 1)
    return { s with
      win := win
      mf := m
      enc := { s.enc with ip := s.enc.ip + 1, s := s.enc.s + 1, r := s.enc.r + 1, i := s.enc.i + 1 } }
  | none =>
    let m ← if s.enc.len - 1 = 0 then some m else m.insert s.win (s.enc.r + 1)
    return { s with
      mf := m
      enc := { s.enc with s := s.enc.s + 1, r := s.enc.r + 1, len := s.enc.len - 1, i := s.enc.i + 1 } }

/-- SLIDE's loop with `n` bytes to go (R168). -/
def State.slideFrom (n : Nat) (s : State) : Option State :=
  match n with
  | 0 => some s
  | n + 1 =>
    match s.slideByte with
    | none => none
    | some t => t.slideFrom n

/-- SLIDE (R168): `lastMatchLength` bytes. -/
def State.slide (s : State) : Option State :=
  State.slideFrom s.enc.lastMatchLength.toNat { s with enc := { s.enc with i := 0 } }

/-- The code buffer has room for one more codeword, two bytes (R44). -/
def State.codeRoom (s : State) : Bool :=
  decide (s.enc.codeLen.toNat + 2 ≤ Config.CODEBUF)

/-- One turn of the encoder's loop (R161): STEP, FLUSH when 8 slots are filled, SLIDE. -/
def State.encodeTurn (s : State) : Host.Outcome State Fault Refusal :=
  if s.codeRoom then
    let t := s.encodeStep
    let u := if t.enc.slot = 8 then t.flush else t
    if u.mode = .encoding then
      match u.slide with
      | some v => .next v
      | none => .fault .treeBroken
    else .next u
  else .fault .codeBufferFull

/-- APPEND_EOS (R171): the two bytes `00 00` in the next slot, whose flag stays 0. -/
def State.appendEos (s : State) : State :=
  let t := s.appendCodes (encode .eos)
  { t with enc := { t.enc with slot := t.enc.slot + 1 } }

/-- The end of the encoder's run (R161): the terminator where the Configuration has one, the final flush of a group with at
least one codeword (R170), `finish(OK)`. -/
def State.encodeClose (s : State) : Host.Outcome State Fault Refusal :=
  if s.codeRoom then
    let t := if s.cfg.eosMode = .nullref then s.appendEos else s
    let u := if 1 < t.enc.codeLen.toNat then t.flush else t
    if u.mode = .encoding then .next (u.finish .ok) else .next u
  else .fault .codeBufferFull

/-- One step of a running ENCODE (R161): a turn while the lookahead holds a byte, then the end of the run. -/
def State.encodeStepOnce (s : State) : Host.Outcome State Fault Refusal :=
  if s.enc.len = 0 then s.encodeClose else s.encodeTurn

/-- Copy bytes into the window from `p` on (R162). -/
def loadBytes (win : Memory) (p : WinPos) (bs : List Byte) : Memory :=
  match bs with
  | [] => win
  | b :: rest => loadBytes (win.write p.toNat b) (p + 1) rest

/-- The encoder's registers at the start of a call (R43, R44). -/
def encoderStart (cfg : Configuration) : EncoderRegs where
  ip := 0
  r := cfg.writeStart
  s := cfg.writeStart + 18
  len := 0
  lastMatchLength := 0
  i := 0
  slot := 0
  codeLen := 1
  outCount := 0
  codeBuf := { base := .constant 0, cells := [] }

/-- LOAD (R162): the first up to `F` input bytes go to the window at `r`. -/
def State.load (s : State) : State :=
  let bs := s.inBuf.take Config.F
  { s with
    win := loadBytes s.win s.enc.r bs
    enc := { s.enc with len := BitVec.ofNat 5 bs.length, ip := bs.length } }

/-- The head of ENCODE_FULL (R161), after the call-start reset: LOAD; empty input ends the call `OK` (R163); SEED; INSERT of
the first position. -/
def State.encodeHead (s : State) : Host.Outcome State Fault Refusal :=
  let t := s.load
  if t.enc.len = 0 then .next (t.finish .ok)
  else
    match (t.mf.seed t.cfg t.win).bind (·.insert t.win t.enc.r) with
    | some m => .next { t with mf := m }
    | none => .fault .treeBroken

end Sys2Proof.Machine
end

