-- ==== Sys2Proof/Machine/Header.lean ====
section
/-! DEFINITION. The archive-header codec (44_header_codec.md): PARSE_SPEC, WRITE_HEADER, READ_HEADER, and which size field
counts. Pure functions; a specification string is the list of its character codes. -/

namespace Sys2Proof.Machine

/-- The bytes of a size field, 2 or 4 (R201). -/
def sizeBytes (width : SizeWidth) : Nat :=
  match width with
  | .two => 2
  | .four => 4

/-- The number of header bytes of a field (R201). -/
def fieldLength (f : HeaderField) : Nat :=
  match f with
  | .byte _ => 1
  | .str _ rest => 1 + rest.length
  | .size _ width _ => sizeBytes width
  | .ignore _ => 1

/-- The header's length, fixed by the fields (R201). -/
def headerLength (fields : List HeaderField) : Nat :=
  match fields with
  | [] => 0
  | f :: rest => fieldLength f + headerLength rest

/-! ### PARSE_SPEC (R202) -/

/-- Split at every comma, 2C (R202; decision D26). -/
def splitCommas (cs : List Byte) : List (List Byte) :=
  match cs with
  | [] => [[]]
  | c :: rest =>
    if c = 0x2C then [] :: splitCommas rest
    else
      match splitCommas rest with
      | [] => [[c]]
      | t :: ts => (c :: t) :: ts

/-- The value of a hex digit, in either case (R202; decision D26). -/
def hexDigit (c : Byte) : Option LenField :=
  if 0x30 ≤ c ∧ c ≤ 0x39 then some ((c - 0x30).setWidth 4)
  else if 0x41 ≤ c ∧ c ≤ 0x46 then some ((c - 0x37).setWidth 4)
  else if 0x61 ≤ c ∧ c ≤ 0x66 then some ((c - 0x57).setWidth 4)
  else none

/-- `hex hex`: exactly two hex digits (R202). -/
def hexByte (arg : List Byte) : Option Byte :=
  match arg with
  | [h, l] =>
    match hexDigit h, hexDigit l with
    | some hi, some lo => some (hi ++ lo)
    | _, _ => none
  | _ => none

/-- `N E`: a width `2` or `4` and a byte order `L` or `B` (R202). -/
def sizeArgument (arg : List Byte) : Option (SizeWidth × Endian) :=
  match arg with
  | [n, e] =>
    match (if n = 0x32 then some SizeWidth.two else if n = 0x34 then some SizeWidth.four else none),
      (if e = 0x4C then some Endian.le else if e = 0x42 then some Endian.be else none) with
    | some width, some endian => some (width, endian)
    | _, _ => none
  | _ => none

/-- `char+`: at least one character, each of ASCII (R202; decision D26). A code of 80 hex or more is no ASCII character:
DESIGN CHOICE (log 20), a token of another shape. -/
def stringArgument (arg : List Byte) : Option HeaderField :=
  match arg with
  | [] => none
  | c :: rest => if (c :: rest).all (fun d => decide (d < 0x80)) then some (.str c rest) else none

/-- A token other than `n` (R202): its first character selects its kind: `o`, `c`, `s`, `b`, `i`. -/
def parseToken (token : List Byte) : Option HeaderField :=
  match token with
  | [] => none
  | k :: arg =>
    if k = 0x6F then (sizeArgument arg).map (fun a => .size .orig a.1 a.2)
    else if k = 0x63 then (sizeArgument arg).map (fun a => .size .comp a.1 a.2)
    else if k = 0x73 then stringArgument arg
    else if k = 0x62 then (hexByte arg).map .byte
    else if k = 0x69 then (hexByte arg).map .ignore
    else none

/-- Every token, in order; `none` where one is malformed. -/
def parseTokens (tokens : List (List Byte)) : Option (List HeaderField) :=
  match tokens with
  | [] => some []
  | t :: ts =>
    match parseToken t, parseTokens ts with
    | some f, some fs => some (f :: fs)
    | _, _ => none

/-- PARSE_SPEC (R202): the field list, or `none` for `ConfigurationError`. `n` (6E) is meaningful only as the sole token and
is then the empty header. -/
def parseSpec (cs : List Byte) : Option (List HeaderField) :=
  if splitCommas cs = [[0x6E]] then some [] else parseTokens (splitCommas cs)

/-! ### WRITE_HEADER (R203) -/

/-- The `n` low-order bytes of `x`, least significant first; the rest of `x` is dropped, `x mod 2^(8n)` (R203). -/
def bytesLE (n x : Nat) : List Byte :=
  match n with
  | 0 => []
  | n + 1 => BitVec.ofNat 8 x :: bytesLE n (x / 256)

/-- A size in `n` bytes of either byte order (R203). -/
def sizeEncode (n : Nat) (endian : Endian) (x : Nat) : List Byte :=
  match endian with
  | .le => bytesLE n x
  | .be => (bytesLE n x).reverse

/-- The bytes of one field (R203). -/
def writeField (origSize compSize : Nat) (f : HeaderField) : List Byte :=
  match f with
  | .byte v => [v]
  | .str first rest => first :: rest
  | .ignore v => [v]
  | .size .orig width endian => sizeEncode (sizeBytes width) endian origSize
  | .size .comp width endian => sizeEncode (sizeBytes width) endian compSize

/-- WRITE_HEADER (R203): the fields' bytes in order. -/
def writeHeader (fields : List HeaderField) (origSize compSize : Nat) : List Byte :=
  match fields with
  | [] => []
  | f :: rest => writeField origSize compSize f ++ writeHeader rest origSize compSize

/-! ### READ_HEADER (R204, R205) -/

/-- The number that bytes hold, least significant first. -/
def natLE (bs : List Byte) : Nat :=
  match bs with
  | [] => 0
  | b :: rest => b.toNat + 256 * natLE rest

/-- A size read in either byte order (R204). -/
def sizeDecode (endian : Endian) (bs : List Byte) : Nat :=
  match endian with
  | .le => natLE bs
  | .be => natLE bs.reverse

/-- The widest size found so far, with its width (R205). -/
abbrev WidestSize := Option (Nat × Nat)

/-- A size field of `n` bytes and value `x` is taken where it is wider than what was found before: the widest counts, and
among equal widths the first (R205; decision D26). -/
def widest (best : WidestSize) (n x : Nat) : WidestSize :=
  match best with
  | none => some (n, x)
  | some (m, y) => if m < n then some (n, x) else some (m, y)

/-- READ_HEADER from position `pos` on (R204), with the sizes found before it. -/
def readFields (input : List Byte) (fields : List HeaderField) (pos : Nat) (orig comp : WidestSize) : HeaderRead :=
  match fields with
  | [] => .found (orig.map Prod.snd) (comp.map Prod.snd) pos
  | f :: rest =>
    let need := fieldLength f
    let bytes := (input.drop pos).take need
    if input.length - pos < need then .failed .truncatedInput
    else
      match f with
      | .byte v => if bytes = [v] then readFields input rest (pos + need) orig comp else .failed .headerMismatch
      | .str first more => if bytes = first :: more then readFields input rest (pos + need) orig comp else .failed .headerMismatch
      | .ignore _ => readFields input rest (pos + need) orig comp
      | .size .orig _ endian => readFields input rest (pos + need) (widest orig need (sizeDecode endian bytes)) comp
      | .size .comp _ endian => readFields input rest (pos + need) orig (widest comp need (sizeDecode endian bytes))

/-- READ_HEADER (R204). -/
def readHeader (fields : List HeaderField) (input : List Byte) : HeaderRead :=
  readFields input fields 0 none none

end Sys2Proof.Machine
end

