-- ==== Sys2Proof/Machine/Commands.lean ====
section
/-! DEFINITION. The command interface (45_command_interface.md): GET_DEFAULT_CONFIG, CREATE, DESTROY, ENCODE, DECODE, and the
header codec's operations as requests (log 21); the call-start reset (10_state.md R50). -/

namespace Sys2Proof.Machine

/-! ### The Configuration (R21 to R29, R216, R217) -/

/-- GET_DEFAULT_CONFIG's result (R216), in the codes of decision D15. -/
def defaultConfiguration : RawConfiguration where
  controlBitOrder := 0
  matchFieldLayout := 2
  matchFieldEndianness := 0
  prefillMode := 0
  prefillValue := 0x20
  prefillFn := none
  writeStart := 4078
  eosMode := 0
  dupShortcut := 0

/-- R21. -/
def bitOrderOfCode (n : Nat) : Option BitOrder :=
  match n with
  | 0 => some .lsb
  | 1 => some .msb
  | _ => none

/-- R22. -/
def layoutOfCode (n : Nat) : Option Layout :=
  match n with
  | 0 => some .ll
  | 1 => some .lh
  | 2 => some .hl
  | 3 => some .hh
  | _ => none

/-- R23. -/
def endianOfCode (n : Nat) : Option Endian :=
  match n with
  | 0 => some .le
  | 1 => some .be
  | _ => none

/-- R24; code 3 is not a value. -/
def prefillModeOfCode (n : Nat) : Option PrefillMode :=
  match n with
  | 0 => some .constant
  | 1 => some .custom
  | 2 => some .none
  | _ => none

/-- R28. -/
def eosModeOfCode (n : Nat) : Option EosMode :=
  match n with
  | 0 => some .none
  | 1 => some .nullref
  | _ => none

/-- R29, R104: only `false`, code 0, is admitted. -/
def dupShortcutOfCode (n : Nat) : Option Bool :=
  match n with
  | 0 => some false
  | _ => none

/-- R27: `0..N-1` (decision D18). -/
def writeStartOf (n : Nat) : Option WinPos :=
  if n < Config.N then some (BitVec.ofNat 12 n) else none

/-- CREATE's checks (R217; decision D18): the register values of a well-formed Configuration, `none` for
`ConfigurationError`. -/
def checkConfiguration (c : RawConfiguration) : Option Configuration := do
  let order ← bitOrderOfCode c.controlBitOrder
  let layout ← layoutOfCode c.matchFieldLayout
  let endian ← endianOfCode c.matchFieldEndianness
  let mode ← prefillModeOfCode c.prefillMode
  let start ← writeStartOf c.writeStart
  let eos ← eosModeOfCode c.eosMode
  let dup ← dupShortcutOfCode c.dupShortcut
  if mode = .custom ∧ c.prefillFn = none then none
  else
    some
      { controlBitOrder := order, matchFieldLayout := layout, matchFieldEndianness := endian, prefillMode := mode,
        prefillValue := c.prefillValue, prefillFn := c.prefillFn, writeStart := start, eosMode := eos, dupShortcut := dup }

/-! ### Instances (R217, R218, R223) -/

/-- The parked instance of a handle. -/
def findInstance (parked : List (Nat × Instance)) (handle : Nat) : Option Instance :=
  match parked with
  | [] => none
  | (h, inst) :: rest => if h = handle then some inst else findInstance rest handle

/-- The parked instances without the one of a handle. -/
def dropInstance (parked : List (Nat × Instance)) (handle : Nat) : List (Nat × Instance) :=
  match parked with
  | [] => []
  | (h, inst) :: rest => if h = handle then dropInstance rest handle else (h, inst) :: dropInstance rest handle

/-- The instances beside a newly selected one: the selected instance is parked where it exists. -/
def State.park (s : State) : List (Nat × Instance) :=
  if s.mode = .absent then s.parked else (s.sel, s.toInstance) :: s.parked

/-- The instance of a handle, made the selected one, where it is `Idle`; else the refusal of R223. -/
def State.select (handle : Nat) (s : State) : Host.Outcome State Fault Refusal :=
  if s.sel = handle then
    match s.mode with
    | .idle => .next s
    | .absent => .refused (.instanceAbsent handle)
    | .decoding => .refused (.instanceBusy handle)
    | .encoding => .refused (.instanceBusy handle)
  else
    match findInstance s.parked handle with
    | none => .refused (.instanceAbsent handle)
    | some inst =>
      if inst.mode = .idle then
        .next { s with toInstance := inst, sel := handle, parked := dropInstance s.park handle }
      else .refused (.instanceBusy handle)

/-- The decoder's registers at the start of a call (R37). -/
def decoderStart (cfg : Configuration) : DecoderRegs where
  ip := 0
  op := 0
  cur := cfg.writeStart
  ctrl := 0
  bitsLeft := 0
  flag := false
  dstate := .readControlBit
  ofs := 0
  lenField := 0
  remaining := 0

/-- A new instance (R217, R50): its Configuration and `MODE = Idle`. STATUS, BYTES_WRITTEN and `WIN` are unspecified: free
values (log 2, log 3). The working registers and tree RAMs are unspecified too and no rule reads them before a call's own
reset: DESIGN CHOICE (log 1), the values of that reset. -/
def newInstance (cfg : Configuration) (draw : Nat) : Instance where
  cfg := cfg
  mode := .idle
  status := Config.freeStatus draw
  bytesWritten := (Config.freeBytesWritten draw).toNat
  win := { base := .draw draw, cells := [] }
  dec := decoderStart cfg
  enc := encoderStart cfg
  mf := { lson := [], rson := [], dad := [], matchPosition := 0, matchLength := 0 }

/-! ### The call-start reset (R50, R251) -/

/-- What ENCODE and DECODE have in common at their start (R50): the call's buffers, PREFILL, STATUS and BYTES_WRITTEN
unspecified until `finish` (free values, log 3). -/
def State.callStart (mode : Mode) (input output : List Byte) (s : State) : State :=
  { s.prefill with
    mode := mode
    status := Config.freeStatus s.draws
    bytesWritten := (Config.freeBytesWritten s.draws).toNat
    inBuf := input
    out := { base := .caller output, cells := [] }
    outCap := output.length
    reply := .nothing
    draws := s.draws + 1 }

/-- DECODE's start (R181, R220). -/
def State.decodeStart (input output : List Byte) (s : State) : State :=
  let t := s.callStart .decoding input output
  { t with dec := decoderStart t.cfg }

/-- ENCODE's start (R161, R219): the encoder's registers, an empty Match Record, INIT_TREE. -/
def State.encodeStart (input output : List Byte) (s : State) : State :=
  let t := s.callStart .encoding input output
  { t with
    enc := encoderStart t.cfg
    mf := { t.mf.initTree with matchPosition := 0, matchLength := 0 } }

/-! ### The requests -/

/-- GET_DEFAULT_CONFIG (R216): admitted in every mode, changes no state but what the host is handed. -/
def requestDefault (s : State) : Host.Outcome State Fault Refusal :=
  .next { s with reply := .config defaultConfiguration }

/-- CREATE (R217, R223): a new instance under a new handle, always admitted, or `ConfigurationError` and no instance. -/
def requestCreate (c : RawConfiguration) (s : State) : Host.Outcome State Fault Refusal :=
  match checkConfiguration c with
  | none => .next { s with reply := .configurationError }
  | some cfg =>
    .next
      { s with
        toInstance := newInstance cfg s.draws
        sel := s.nextHandle
        parked := s.park
        nextHandle := s.nextHandle + 1
        reply := .created s.nextHandle
        draws := s.draws + 1 }

/-- DESTROY (R218): the instance and all its state are gone. -/
def requestDestroy (handle : Nat) (s : State) : Host.Outcome State Fault Refusal :=
  match s.select handle with
  | .next t => .next { t with toInstance := Instance.blank, reply := .destroyed }
  | .fault f => .fault f
  | .refused r => .refused r

/-- ENCODE (R219): the call's start and the head of its run, up to the first codeword turn. -/
def requestEncode (handle : Nat) (input output : List Byte) (s : State) : Host.Outcome State Fault Refusal :=
  match s.select handle with
  | .next t => (t.encodeStart input output).encodeHead
  | .fault f => .fault f
  | .refused r => .refused r

/-- DECODE (R220): the call's start. -/
def requestDecode (handle : Nat) (input output : List Byte) (s : State) : Host.Outcome State Fault Refusal :=
  match s.select handle with
  | .next t => .next (t.decodeStart input output)
  | .fault f => .fault f
  | .refused r => .refused r

/-- PARSE_SPEC (R202). -/
def requestParse (spec : List Byte) (s : State) : Host.Outcome State Fault Refusal :=
  match parseSpec spec with
  | some fs => .next { s with reply := .fields fs }
  | none => .next { s with reply := .configurationError }

/-- WRITE_HEADER (R203). -/
def requestWriteHeader (fields : List HeaderField) (origSize compSize : Nat) (s : State) :
    Host.Outcome State Fault Refusal :=
  .next { s with reply := .header (writeHeader fields origSize compSize) }

/-- READ_HEADER (R204). -/
def requestReadHeader (fields : List HeaderField) (input : List Byte) (s : State) : Host.Outcome State Fault Refusal :=
  .next { s with reply := .headerRead (readHeader fields input) }

/-- Run one request. -/
def State.perform (q : Request) (s : State) : Host.Outcome State Fault Refusal :=
  match q with
  | .getDefaultConfig => requestDefault s
  | .create c => requestCreate c s
  | .destroy handle => requestDestroy handle s
  | .encode handle input output => requestEncode handle input output s
  | .decode handle input output => requestDecode handle input output s
  | .parseSpec spec => requestParse spec s
  | .writeHeader fields origSize compSize => requestWriteHeader fields origSize compSize s
  | .readHeader fields input => requestReadHeader fields input s

/-- Between calls (R215): the oldest pending request is taken and run; with none pending nothing happens, "an `Idle` instance
simply holds its Configuration" (R245; log 29). -/
def State.serve (s : State) : Host.Outcome State Fault Refusal :=
  match s.requests with
  | [] => .next s
  | q :: rest => State.perform q { s with requests := rest }

end Sys2Proof.Machine
end

