-- ==== Sys2Proof/Machine/Operands.lean ====
section
/-! DEFINITION. The operands of a reference: its length (30_encoding.md R99), its source position (43_decoder.md R186), the
effective distance and the bounds test (R187), and the byte-serial copy (R188). -/

namespace Sys2Proof.Machine

/-- `length = len + 3`, 3..18 (R99). -/
def copyLength (len : LenField) : Nat :=
  len.toNat + Config.THRESHOLD + 1

/-- `dist`: the offset, 0 standing for `N` (R186, R105; decision D6). -/
def distance (ofs : WinPos) : Nat :=
  if ofs = 0 then Config.N else ofs.toNat

/-- `src = (cur - ofs) mod N` (R186; decision D2). -/
def sourcePos (cur ofs : WinPos) : WinPos :=
  cur - ofs

/-- BOUNDS (R187): the reference reaches before the first produced byte and the Configuration has no prefill. -/
def State.outOfBounds (ofs : WinPos) (s : State) : Bool :=
  decide (s.cfg.prefillMode = .none) && decide (s.dec.op < distance ofs)

/-- One byte of a copy (R188): read it `ofs` behind the cursor, produce it, count it off. -/
def State.copyByte (s : State) : State :=
  let t := s.produce (s.win.byteT (sourcePos s.dec.cur s.dec.ofs))
  { t with dec := { t.dec with remaining := t.dec.remaining - 1 } }

/-- COPY (R188), `n` bytes still to copy: byte-serial, each read seeing the writes before it (R71, R255); `OutputExhausted`
at the first byte that does not fit. -/
def State.copy (n : Nat) (s : State) : State :=
  match n with
  | 0 => s
  | n + 1 => if s.dec.op < s.outCap then s.copyByte.copy n else s.finish .outputExhausted

/-- The reference path (R185 to R188) once its two bytes are unpacked: BOUNDS, then COPY. -/
def State.reference (ofs : WinPos) (len : LenField) (s : State) : State :=
  let t := (s.loadRef ofs len).setRemaining (copyLength len)
  if t.outOfBounds ofs then t.finish .badBackReference else t.copy (copyLength len)

end Sys2Proof.Machine
end

