-- ==== Sys2Proof/Machine/Symbols.lean ====
section
/-! DEFINITION. The meaning of each stream symbol for the decoder (43_decoder.md R183 to R188): CTRL, LIT, the eight dialects
of REF, EOS. Every one takes a next state: "every input yields a status" (30_encoding.md R102). -/

namespace Sys2Proof.Machine

/-- CTRL (R183). The sequencer takes the flag of slot 0 and runs that slot's symbol in the same step (`State.decodeTurn`). -/
def execCtrl (f : Byte) (s : State) : Host.Outcome State Fault Refusal :=
  .next (s.loadCtrl f)

/-- LIT (R184). -/
def execLit (b : Byte) (s : State) : Host.Outcome State Fault Refusal :=
  .next (s.literal b)

/-- REF.HH.LE (R185 to R188). -/
def execRefHHLE (ofs : WinPos) (len : LenField) (s : State) : Host.Outcome State Fault Refusal :=
  .next (s.reference ofs len)

/-- REF.HH.BE (R185 to R188). -/
def execRefHHBE (ofs : WinPos) (len : LenField) (s : State) : Host.Outcome State Fault Refusal :=
  .next (s.reference ofs len)

/-- REF.HL.LE (R185 to R188). -/
def execRefHLLE (ofs : WinPos) (len : LenField) (s : State) : Host.Outcome State Fault Refusal :=
  .next (s.reference ofs len)

/-- REF.HL.BE (R185 to R188). -/
def execRefHLBE (ofs : WinPos) (len : LenField) (s : State) : Host.Outcome State Fault Refusal :=
  .next (s.reference ofs len)

/-- REF.LH.LE (R185 to R188). -/
def execRefLHLE (ofs : WinPos) (len : LenField) (s : State) : Host.Outcome State Fault Refusal :=
  .next (s.reference ofs len)

/-- REF.LH.BE (R185 to R188). -/
def execRefLHBE (ofs : WinPos) (len : LenField) (s : State) : Host.Outcome State Fault Refusal :=
  .next (s.reference ofs len)

/-- REF.LL.LE (R185 to R188). -/
def execRefLLLE (ofs : WinPos) (len : LenField) (s : State) : Host.Outcome State Fault Refusal :=
  .next (s.reference ofs len)

/-- REF.LL.BE (R185 to R188). -/
def execRefLLBE (ofs : WinPos) (len : LenField) (s : State) : Host.Outcome State Fault Refusal :=
  .next (s.reference ofs len)

/-- EOS (R185, R100): both fields are 0, `ip` stands after the two bytes, and the call ends `OK`. -/
def execEos (s : State) : Host.Outcome State Fault Refusal :=
  .next ((s.loadRef 0 0).finish .ok)

end Sys2Proof.Machine
end

