-- ==== Sys2Proof/Machine/Dispatch.lean ====
section
/-! DEFINITION. The dispatch of a stream symbol to its meaning, one arm per constructor of Instr. -/

namespace Sys2Proof.Machine

def exec (i : Instr) (s : State) : Host.Outcome State Fault Refusal :=
  match i with
  | .ctrl f => Sys2Proof.Machine.execCtrl f s
  | .lit b => Sys2Proof.Machine.execLit b s
  | .refHHLE ofs len => Sys2Proof.Machine.execRefHHLE ofs len s
  | .refHHBE ofs len => Sys2Proof.Machine.execRefHHBE ofs len s
  | .refHLLE ofs len => Sys2Proof.Machine.execRefHLLE ofs len s
  | .refHLBE ofs len => Sys2Proof.Machine.execRefHLBE ofs len s
  | .refLHLE ofs len => Sys2Proof.Machine.execRefLHLE ofs len s
  | .refLHBE ofs len => Sys2Proof.Machine.execRefLHBE ofs len s
  | .refLLLE ofs len => Sys2Proof.Machine.execRefLLLE ofs len s
  | .refLLBE ofs len => Sys2Proof.Machine.execRefLLBE ofs len s
  | .eos => Sys2Proof.Machine.execEos s

end Sys2Proof.Machine
end

