-- ==== Sys2Proof/Machine/Fetch.lean ====
section
/-! DEFINITION. Fetching a symbol (43_decoder.md R181, R189) and placing an opcode-table word where the next symbol is fetched. -/

namespace Sys2Proof.Machine

/-- What the decoder finds at `ip`. -/
inductive Fetched where
  /-- `IN` ends here: the call ends with this status -/
  | ended (st : Status)
  /-- run this symbol -/
  | run (i : Instr)
  deriving DecidableEq, Repr

/-- Decode the symbol at `ip`; where `IN` ends inside it, the call ends `TruncatedInput` (R189). -/
def State.fetchSymbol (sel : Selector) (s : State) : Fetched :=
  match decode s.cfg sel (s.inBuf.drop s.dec.ip) with
  | .symbol i _ => .run i
  | .rejected .truncated => .ended .truncatedInput

/-- The selector of the symbol whose flag is taken (R181, R101). -/
def State.symbolSelector (s : State) : Selector :=
  if s.dec.flag = literalFlag then .literal else .reference

/-- `IN` with `bytes` at index `ip`, the bytes before it kept (0 where there were none) and those after them too. -/
def bytesAt (ip : Nat) (bytes input : List Byte) : List Byte :=
  (input.take ip ++ List.replicate (ip - input.length) 0) ++ (bytes ++ input.drop (ip + bytes.length))

/-- A control byte all of whose flags mark references (R92). -/
def referenceFlags : Byte :=
  if literalFlag then 0x00 else 0xFF

/-- The decoder about to fetch a word of the opcode table (log 9, log 10): a DECODE call runs and stands in `ReadControlBit`,
`IN` holds the word at `ip`; no flag bit is left before an 8-bit word, one, a reference's, before a 16-bit word. -/
def State.placeTableWord (nbits w : Nat) (s : State) : State :=
  { s with
    mode := .decoding
    cfg := tableConfiguration s.cfg
    inBuf := bytesAt s.dec.ip (tableBytes nbits w) s.inBuf
    dec := { s.dec with
      ctrl := if nbits = 8 then s.dec.ctrl else referenceFlags
      bitsLeft := if nbits = 8 then 0 else 1
      dstate := .readControlBit } }

end Sys2Proof.Machine
end

