-- ==== Sys2Proof/Machine/Decoder.lean ====
section
/-! DEFINITION. The decoder's sequencer (43_decoder.md R181, R182; 10_state.md R42): one step is one turn of its loop, one
control-bit read plus one symbol (00_scope.md R12). -/

namespace Sys2Proof.Machine

/-- Run the symbol at `ip` that `sel` selects and go on with `next`, unless the bytes are missing (R189). -/
def State.runSymbol (sel : Selector) (next : State → Host.Outcome State Fault Refusal) (s : State) :
    Host.Outcome State Fault Refusal :=
  match s.fetchSymbol sel with
  | .ended st => .next (s.finish st)
  | .run i =>
    match exec i s with
    | .next t => next t
    | .fault f => .fault f
    | .refused r => .refused r

/-- `ProcessSymbol -> ReadControlBit` when the symbol is done, unless the call ended in it (R42). -/
def State.symbolDone (s : State) : State :=
  if s.mode = .decoding then { s with dec := { s.dec with dstate := .readControlBit } } else s

/-- State `ProcessSymbol` (R181): the literal or the reference that the flag selects. -/
def State.processSymbol (s : State) : Host.Outcome State Fault Refusal :=
  s.runSymbol s.symbolSelector fun t => .next t.symbolDone

/-- A turn from `ReadControlBit` on (R181): the end of input first, before anything of the next symbol is taken (R182); then a
control byte where no flag bit is left (R183); a flag (R39); and its symbol. -/
def State.decodeTurn (s : State) : Host.Outcome State Fault Refusal :=
  if s.inBuf.length ≤ s.dec.ip then .next (s.finish .ok)
  else if s.dec.bitsLeft = 0 then s.runSymbol .control fun t => t.takeFlag.processSymbol
  else s.takeFlag.processSymbol

/-- One step of a running DECODE: a turn (R12). Every step leaves a running call in `ReadControlBit`; from `ProcessSymbol` a step
is the rest of the turn (log 5). -/
def State.decodeStep (s : State) : Host.Outcome State Fault Refusal :=
  match s.dec.dstate with
  | .readControlBit => s.decodeTurn
  | .processSymbol => s.processSymbol

end Sys2Proof.Machine
end

