-- ==== Sys2Proof/Machine/Step.lean ====
section
/-! DEFINITION. One step of the machine (00_scope.md R12, 70_reset_and_hazards.md R263): a turn of the decoder (one control-bit
read plus one symbol), a turn of the encoder (one codeword plus its slide), or a request of the host. -/

namespace Sys2Proof.Machine

/-- One step: by `MODE` (R36). -/
def step (s : State) : Host.Outcome State Fault Refusal :=
  match s.mode with
  | .decoding => s.decodeStep
  | .encoding => s.encodeStepOnce
  | .idle => s.serve
  | .absent => s.serve

/-- The state with an opcode-table word where `step` fetches its next symbol (log 9). -/
def State.withFetchWord (s : State) (nbits w : Nat) : State :=
  s.placeTableWord nbits w

end Sys2Proof.Machine
end

