-- ==== Sys2Proof/Machine/Assembler.lean ====
section
/-! DEFINITION. Streams as listings (30_encoding.md R90, R106, R107; decision D22): the bytes of a list of symbols and the
pseudo-instructions GROUP, EOS and REP. -/

namespace Sys2Proof.Machine

/-- The bytes of a listing, symbol by symbol (R106). -/
def assemble (is : List Instr) : List Byte :=
  match is with
  | [] => []
  | i :: rest => encode i ++ assemble rest

/-- A codeword needs the flag `LITERAL_FLAG` (R92, R107). -/
def isLiteral (i : Instr) : Bool :=
  match i with
  | .ctrl _ => false
  | .lit _ => true
  | .refHHLE _ _ => false
  | .refHHBE _ _ => false
  | .refHLLE _ _ => false
  | .refHLBE _ _ => false
  | .refLHLE _ _ => false
  | .refLHBE _ _ => false
  | .refLLLE _ _ => false
  | .refLLBE _ _ => false
  | .eos => false

/-- The control byte of the codewords of slots `k`, `k + 1`, ... (R91, R107): flag 1 for a literal, 0 otherwise, unused flags
0. -/
def groupFlags (order : BitOrder) (k : Nat) (codewords : List Instr) : Byte :=
  match codewords with
  | [] => 0
  | i :: rest => (if isLiteral i then flagBit order k else 0) ||| groupFlags order (k + 1) rest

/-- GROUP (R107): a control byte and its codewords. -/
def group (order : BitOrder) (codewords : List Instr) : List Instr :=
  .ctrl (groupFlags order 0 codewords) :: codewords

/-- EOS of the listing, `REF ofs=0, length=3` under `eosMode = nullref` (R107). -/
def listingEos : Instr :=
  .eos

/-- `REP b, n`, `4 ≤ n ≤ 19` (R107): `LIT b`, then `REF ofs=1, length=n-1` in the Configuration's dialect. -/
def rep (cfg : Configuration) (b : Byte) (n : Nat) : List Instr :=
  [.lit b, Instr.ref cfg.matchFieldLayout cfg.matchFieldEndianness 1 (BitVec.ofNat 4 (n - 4))]

end Sys2Proof.Machine
end

