-- ==== Sys2Proof/Safety.lean ====
section
/-! DEFINITION. What counts as a safe machine, in the terms the statements use: the memories' canonical form, the admitted
Configurations, the register ranges of a running call, what the window holds, the host's side, and the relations between two
machines that the isolation statements compare. -/

namespace Sys2Proof.Machine

/-! ### Canonical memories -/

/-- The three tree RAMs are in canonical form, each within its index range (R46). -/
abbrev MatchFinder.wf (m : MatchFinder) : Prop :=
  ramWf 4097 m.lson ∧ ramWf 4353 m.rson ∧ ramWf 4097 m.dad

/-- The memories of an instance are in canonical form, each within its size (R31, R44, R46). -/
abbrev Instance.wf (inst : Instance) : Prop :=
  inst.win.wf 4096 ∧ inst.enc.codeBuf.wf 17 ∧ inst.mf.wf

/-- Every memory of the machine is in canonical form; `OUT` lists no address at or past `OUT_CAP` (R62). -/
def State.canonical (s : State) : Prop :=
  s.toInstance.wf ∧ s.out.wf s.outCap ∧ ∀ p ∈ s.parked, p.2.wf

/-! ### The match finder's trees (R47) -/

/-- The strings at `a` and `b` agree in their first `n` bytes (R141). -/
def keysAgree (win : Memory) (n : Nat) (a b : WinPos) : Prop :=
  ∀ k, k < n → win.byteT (a + BitVec.ofNat 12 k) = win.byteT (b + BitVec.ofNat 12 k)

/-- The key of `a` is less than the key of `b`: `F` bytes each, unsigned, lexicographic (R141). -/
def keyLt (win : Memory) (a b : WinPos) : Prop :=
  ∃ i, i < 18 ∧ keysAgree win i a b
    ∧ (win.byteT (a + BitVec.ofNat 12 i)).toNat < (win.byteT (b + BitVec.ofNat 12 i)).toNat

/-- The key of `a` is not greater than the key of `b`. -/
def keyLe (win : Memory) (a b : WinPos) : Prop :=
  keysAgree win 18 a b ∨ keyLt win a b

/-- Position `p` is attached (R47 a). -/
def MatchFinder.attached (m : MatchFinder) (p : WinPos) : Prop :=
  ramRead m.dad p.toNat ≠ Config.NIL

/-- The shape of a tree: what the links of the tree RAMs draw. -/
inductive SearchTree where
  | nil
  | node (left : SearchTree) (p : WinPos) (right : SearchTree)
  deriving DecidableEq, Repr

/-- The nodes of a tree in order: a node's left subtree, the node, its right subtree. -/
def SearchTree.nodes (t : SearchTree) : List WinPos :=
  match t with
  | .nil => []
  | .node l p r => l.nodes ++ p :: r.nodes

/-- The links of `m` draw the tree `t` where the link `x` of `parent` leads: `NIL` for no tree; else a node whose `dad` is
`parent` and whose child links lead to its subtrees (R47 c). -/
def SearchTree.drawn (m : MatchFinder) (parent x : TreeIndex) (t : SearchTree) : Prop :=
  match t with
  | .nil => x = Config.NIL
  | .node l p r =>
    x = nodeOf p ∧ ramRead m.dad p.toNat = parent
      ∧ l.drawn m (nodeOf p) (ramRead m.lson p.toNat) ∧ r.drawn m (nodeOf p) (ramRead m.rson p.toNat)

/-- The tree of root `p`, subtrees `l` and `r`, without its last node in order, and that node: the rightmost one, in whose
place its left subtree comes (R147). -/
def SearchTree.splitLast (l : SearchTree) (p : WinPos) (r : SearchTree) : SearchTree × WinPos :=
  match r with
  | .nil => (l, p)
  | .node l' p' r' => (.node l p (SearchTree.splitLast l' p' r').1, (SearchTree.splitLast l' p' r').2)

/-- What DELETE of a node with subtrees `l` and `r` puts in its place (R147): the only one that is there, or `r` and the rest
of `l` under the last node of `l`, the in-order predecessor. -/
def SearchTree.join (l r : SearchTree) : SearchTree :=
  match l, r with
  | l, .nil => l
  | .nil, r => r
  | .node l' p r', r => .node (SearchTree.splitLast l' p r').1 (SearchTree.splitLast l' p r').2 r

/-- The tree of first byte `c` is `t` (R47 b to d): the links draw it under the root slot, no node twice, every node's string
begins with `c`, and in order the keys do not fall. -/
def MatchFinder.treeOf (win : Memory) (m : MatchFinder) (c : Byte) (t : SearchTree) : Prop :=
  t.drawn m (rootSlot c) (ramRead m.rson (rootSlot c).toNat)
    ∧ t.nodes.Nodup ∧ (∀ p ∈ t.nodes, win.byteT p = c) ∧ t.nodes.Pairwise (keyLe win)

/-- The trees keep R47: there is a tree for each first byte, and every attached position is a node of the tree of its first
byte. (A root slot has only a right child, R47 e, since `lson` has no root slot.) -/
def MatchFinder.treesOk (win : Memory) (m : MatchFinder) : Prop :=
  ∃ tree : Byte → SearchTree,
    (∀ c, m.treeOf win c (tree c)) ∧ ∀ p, m.attached p → p ∈ (tree (win.byteT p)).nodes

/-! ### The Configuration registers -/

/-- A Configuration that CREATE admits (R29, R217): no duplicate-last-byte codeword, and a prefill function where the mode is
`custom`. The other checks are on codes that the registers cannot hold. -/
abbrev configAdmitted (cfg : Configuration) : Prop :=
  cfg.dupShortcut = false ∧ (cfg.prefillMode = .custom → cfg.prefillFn ≠ none)

/-- Every instance that exists holds an admitted Configuration. -/
def State.configured (s : State) : Prop :=
  (s.mode ≠ .absent → configAdmitted s.cfg) ∧ ∀ p ∈ s.parked, configAdmitted p.2.cfg

/-! ### The host's side -/

/-- The parked instances have distinct handles, all given out and none the selected one, and each is idle (R223, R10). -/
def State.hostOrdered (s : State) : Prop :=
  (s.mode ≠ .absent → s.sel < s.nextHandle)
    ∧ (∀ p ∈ s.parked, p.1 < s.nextHandle ∧ p.1 ≠ s.sel ∧ p.2.mode = .idle)
    ∧ s.parked.Pairwise (fun p q => p.1 ≠ q.1)

/-- A command on handle `h` acts on instance `inst`: the selected instance, or a parked one, idle, while no call runs
(R223). -/
def State.addresses (s : State) (h : Nat) (inst : Instance) : Prop :=
  (h = s.sel ∧ s.mode = .idle ∧ inst = s.toInstance)
    ∨ (h ≠ s.sel ∧ (s.mode = .idle ∨ s.mode = .absent) ∧ findInstance s.parked h = some inst ∧ inst.mode = .idle)

/-! ### A running DECODE -/

/-- The step of a running DECODE from `s` processes its symbol in state `u` (R181): `s` is in `ReadControlBit` with input
left, and `u` is `s` with a control byte loaded, where no flag bit was left (R183), and the next flag taken, from the end of
`ctrl` that the bit order gives (R39); or `s` already stands in `ProcessSymbol`, and `u` is `s`, the rest of a turn (log 5,
DESIGN CHOICE). -/
def State.reachesSymbol (s u : State) : Prop :=
  s.mode = .decoding
    ∧ ((s.dec.dstate = .readControlBit ∧ s.dec.ip < s.inBuf.length ∧ s.dec.bitsLeft ≠ 0 ∧ u = s.takeFlag)
      ∨ (∃ f, s.dec.dstate = .readControlBit ∧ s.dec.bitsLeft = 0 ∧ s.inBuf[s.dec.ip]? = some f ∧ u = (s.loadCtrl f).takeFlag)
      ∨ (s.dec.dstate = .processSymbol ∧ u = s))

/-- The decoder's registers between steps (R192, R41, R39): the cursor follows the output count from `writeStart`, and the
counts stay within the buffers. -/
def State.decoderInRange (s : State) : Prop :=
  s.mode = .decoding →
    s.dec.ip ≤ s.inBuf.length ∧ s.dec.op ≤ s.outCap ∧ s.dec.cur = s.cfg.writeStart + BitVec.ofNat 12 s.dec.op
      ∧ s.dec.bitsLeft.toNat ≤ 7

/-- What the window holds while a DECODE runs (R32): the last produced bytes behind the cursor, the most recent `N` of them;
and at every position no output byte has reached, its prefill byte (its `W0` byte in mode `none`). -/
def State.windowHoldsOutput (s : State) : Prop :=
  s.mode = .decoding →
    (∀ j, 1 ≤ j → j ≤ s.dec.op → j ≤ 4096 →
      s.win.byteT (s.dec.cur - BitVec.ofNat 12 j) = s.out.read (s.dec.op - j))
    ∧ ∃ k, s.win.base = prefillBase s.cfg k ∧
      ∀ j, s.dec.op ≤ j → j < 4096 →
        s.win.byteT (s.cfg.writeStart + BitVec.ofNat 12 j)
          = (prefillBase s.cfg k).byteAt (s.cfg.writeStart + BitVec.ofNat 12 j).toNat

/-- How many more turns a running DECODE can take before the one that ends it (R181, R262): each takes a byte of input. -/
def State.decodeMeasure (s : State) : Nat :=
  s.inBuf.length - s.dec.ip

/-! ### A running ENCODE -/

/-- The encoder's registers between steps (R43, R44, R168, R170): the two window pointers are `F` apart, the position being
coded follows the count of coded bytes from `writeStart`, the lookahead is full while input is left, and the pending group fits
the code buffer. -/
def State.encoderInRange (s : State) : Prop :=
  s.mode = .encoding →
    s.enc.ip ≤ s.inBuf.length ∧ s.enc.len.toNat ≤ 18 ∧ s.enc.len.toNat ≤ s.enc.ip
      ∧ (s.enc.ip < s.inBuf.length → s.enc.len.toNat = 18)
      ∧ s.enc.s = s.enc.r + 18
      ∧ s.enc.r = s.cfg.writeStart + BitVec.ofNat 12 (s.enc.ip - s.enc.len.toNat)
      ∧ s.enc.slot.toNat ≤ 7 ∧ 1 ≤ s.enc.codeLen.toNat ∧ s.enc.codeLen.toNat ≤ 1 + 2 * s.enc.slot.toNat
      ∧ s.enc.outCount ≤ s.outCap

/-- The trees of a running ENCODE (R47, R168): they keep R47, and no lookahead position but the first is attached, so that no
attached key reads the position that is loaded next. -/
def State.treesInOrder (s : State) : Prop :=
  s.mode = .encoding →
    s.mf.treesOk s.win ∧ ∀ k, 1 ≤ k → k < 18 → ¬ s.mf.attached (s.enc.r + BitVec.ofNat 12 k)

/-- What the window holds while an ENCODE runs (R32, R124): the last `N` input bytes loaded, byte `k` at position
`writeStart + k`. -/
def State.windowHoldsInput (s : State) : Prop :=
  s.mode = .encoding →
    ∀ k, k < s.enc.ip → s.enc.ip ≤ k + 4096 →
      s.inBuf[k]? = some (s.win.byteT (s.cfg.writeStart + BitVec.ofNat 12 k))

/-- How many more turns a running ENCODE can take (R262): the bytes not yet coded. -/
def State.encodeMeasure (s : State) : Nat :=
  (s.inBuf.length - s.enc.ip) + s.enc.len.toNat

/-! ### Two machines compared -/

/-- Two machines that differ in the window alone, and there only at positions that no byte produced in this call has reached:
two draws of `W0` (R31, R187). -/
def agreeButForW0 (s t : State) : Prop :=
  t = { s with win := t.win }
    ∧ ∀ j, 1 ≤ j → j ≤ s.dec.op → j ≤ 4096 →
      s.win.byteT (s.dec.cur - BitVec.ofNat 12 j) = t.win.byteT (s.dec.cur - BitVec.ofNat 12 j)

/-- Two machines in the same place of the same call: they agree on the Configuration, the mode, the window, the buffers, and on
the working registers of the call's direction; on nothing else (R251, R252). -/
def sameCall (s t : State) : Prop :=
  s.cfg = t.cfg ∧ s.mode = t.mode ∧ s.win = t.win ∧ s.inBuf = t.inBuf ∧ s.out = t.out ∧ s.outCap = t.outCap
    ∧ (s.mode = .decoding → s.dec = t.dec) ∧ (s.mode = .encoding → s.enc = t.enc ∧ s.mf = t.mf)

/-! ### Headers -/

/-- The size that reading a header gives for a kind of field, where `x` was written: the value in the widest field of the kind,
`x mod 2^(8n)`; absent where there is none (R203, R205). -/
def sizeReadBack (kind : SizeKind) (x : Nat) (fields : List HeaderField) : Option Nat :=
  let widths := fields.filterMap fun f =>
    match f with
    | .size k width _ => if k = kind then some (sizeBytes width) else none
    | .byte _ => none
    | .str _ _ => none
    | .ignore _ => none
  if 4 ∈ widths then some (x % 2 ^ 32) else if 2 ∈ widths then some (x % 2 ^ 16) else none

end Sys2Proof.Machine
end

