-- ==== Sys2Proof/Certificates/Slice0/Obligations.lean ====
section
/-! DEFINITION. The statements for the provers. Each docstring names the rule of spec/ it formalises. Each hypothesis has its
witness in Sys2Proof/Tests/Slice0.lean. -/

open Sys2Proof Sys2Proof.Machine

/-! ### Encoding (30_encoding.md) -/

/-- R98, R97, R96: packing by the formula column, the byte order of R95, and unpacking are inverse bijections in each of the
eight dialects. -/
def Obligations.PackUnpackAreInverse : Prop :=
  (∀ (ofs : WinPos) (len : LenField),
    (packWord .hh ofs len).toNat = len.toNat * 4096 + ofs.toNat
    ∧ (packWord .hl ofs len).toNat = ofs.toNat / 256 * 4096 + len.toNat * 256 + ofs.toNat % 256
    ∧ (packWord .lh ofs len).toNat = ofs.toNat / 16 * 256 + len.toNat * 16 + ofs.toNat % 16
    ∧ (packWord .ll ofs len).toNat = ofs.toNat * 16 + len.toNat)
  ∧ (∀ w : MatchWord,
    wordBytes .le w = [BitVec.ofNat 8 (w.toNat % 256), BitVec.ofNat 8 (w.toNat / 256)]
    ∧ wordBytes .be w = [BitVec.ofNat 8 (w.toNat / 256), BitVec.ofNat 8 (w.toNat % 256)])
  ∧ (∀ (layout : Layout) (endian : Endian) (ofs : WinPos) (len : LenField), ∃ first second,
    pack layout endian ofs len = [first, second]
    ∧ unpackOfs layout (matchWord endian first second) = ofs
    ∧ unpackLen layout (matchWord endian first second) = len)
  ∧ (∀ (layout : Layout) (endian : Endian) (first second : Byte),
    pack layout endian (unpackOfs layout (matchWord endian first second)) (unpackLen layout (matchWord endian first second))
      = [first, second])

/-- Decode and encode agree on all symbols, operands at every value: what is encoded decodes to itself, and what is decoded
is a symbol of the Configuration's stream whose encoding is the bytes read (R97 to R102). -/
def Obligations.DecodeEncodeRoundTrip : Prop :=
  (∀ (cfg : Configuration) (i : Instr) (rest : List Byte),
    i.wf cfg = true → decode cfg i.selector (encode i ++ rest) = .symbol i rest)
  ∧ (∀ (cfg : Configuration) (sel : Selector) (bytes : List Byte) (i : Instr) (rest : List Byte),
    decode cfg sel bytes = .symbol i rest → i.wf cfg = true ∧ i.selector = sel ∧ encode i ++ rest = bytes)

/-- R102 of the encoding: no byte value is illegal in any position; a rejection means only that the bytes end inside the
symbol, before one byte of a control byte or a literal, before two of a reference (R189). -/
def Obligations.DecodeRejectsOnlyShortInput : Prop :=
  ∀ (cfg : Configuration) (sel : Selector) (bytes : List Byte),
    (decode cfg sel bytes = .rejected .truncated ↔ bytes.length < (if sel = .reference then 2 else 1))

/-- Words written out from the spec's encodings: V1 in the eight dialects, CTRL, LIT, EOS (R91, R93, R96, R100). -/
def Obligations.WrittenOutWordsDecode : Prop :=
  let dialect := fun (l : Layout) (e : Endian) =>
    { Configuration.default with matchFieldLayout := l, matchFieldEndianness := e }
  decode Configuration.default .control [0x05] = .symbol (.ctrl 0x05) []
  ∧ decode Configuration.default .literal [0x41] = .symbol (.lit 0x41) []
  ∧ decode (dialect .hh .le) .reference [0xBC, 0x5A] = .symbol (.refHHLE 0xABC 5) []
  ∧ decode (dialect .hh .be) .reference [0x5A, 0xBC] = .symbol (.refHHBE 0xABC 5) []
  ∧ decode (dialect .hl .le) .reference [0xBC, 0xA5] = .symbol (.refHLLE 0xABC 5) []
  ∧ decode (dialect .hl .be) .reference [0xA5, 0xBC] = .symbol (.refHLBE 0xABC 5) []
  ∧ decode (dialect .lh .le) .reference [0x5C, 0xAB] = .symbol (.refLHLE 0xABC 5) []
  ∧ decode (dialect .lh .be) .reference [0xAB, 0x5C] = .symbol (.refLHBE 0xABC 5) []
  ∧ decode (dialect .ll .le) .reference [0xC5, 0xAB] = .symbol (.refLLLE 0xABC 5) []
  ∧ decode (dialect .ll .be) .reference [0xAB, 0xC5] = .symbol (.refLLBE 0xABC 5) []
  ∧ decode { Configuration.default with eosMode := .nullref } .reference [0x00, 0x00] = .symbol .eos []
  ∧ decode Configuration.default .reference [0x00, 0x00] = .symbol (.refHLLE 0 0) []

/-- R91, R39: after `k` flags are taken from a control byte, the next is bit `k` (LSB) or bit `7 - k` (MSB) of the byte as it
stood in the stream, and FLAGBIT sets that bit alone (R166). -/
def Obligations.SlotFlagIsItsControlBit : Prop :=
  ∀ (order : BitOrder) (f : Byte) (k : Nat), k < 8 →
    nextFlag order ((shiftCtrl order)^[k] f) = f.getLsbD (slotBit order k)
    ∧ ∀ n, (flagBit order k).getLsbD n = decide (n = slotBit order k)

/-- R107: the control byte of a GROUP of at most 8 codewords has flag 1 in the slot of each literal and 0 in every other
slot. -/
def Obligations.GroupFlagsMarkLiterals : Prop :=
  ∀ (order : BitOrder) (codewords : List Instr) (k : Nat), codewords.length ≤ 8 → k < 8 →
    (groupFlags order 0 codewords).getLsbD (slotBit order k) = (codewords[k]?.map isLiteral).getD false

/-! ### The symbols (43_decoder.md) -/

/-- CTRL completes in every state (R183): the control byte, its eight flags and `ip`; nothing else changes. -/
def Obligations.ControlByteLoads : Prop :=
  ∀ (f : Byte) (s : State),
    exec (.ctrl f) s = .next { s with dec := { s.dec with ctrl := f, ip := s.dec.ip + 1, bitsLeft := 8 } }

/-- LIT completes where the output has room (R184): one byte to `OUT[op]` and `WIN[cur]`, the three indices advance; every other
byte of both memories and every other part of the state is unchanged. -/
def Obligations.LiteralProducesItsByte : Prop :=
  ∀ (b : Byte) (s : State), s.dec.op < s.outCap →
    ∃ t, exec (.lit b) s = .next t
      ∧ t = { s with
          out := t.out
          win := t.win
          dec := { s.dec with ip := s.dec.ip + 1, op := s.dec.op + 1, cur := s.dec.cur + 1 } }
      ∧ t.out.read s.dec.op = b ∧ (∀ a, a ≠ s.dec.op → t.out.read a = s.out.read a)
      ∧ t.win.byteT s.dec.cur = b ∧ (∀ p, p ≠ s.dec.cur → t.win.byteT p = s.win.byteT p)

/-- LIT with a full output (R184, R190): the call ends `OutputExhausted` and the symbol has no effect, `ip` not advanced. -/
def Obligations.LiteralStopsOnFullOutput : Prop :=
  ∀ (b : Byte) (s : State), s.mode = .decoding → s.dec.op = s.outCap →
    exec (.lit b) s = .next { s with status := .outputExhausted, bytesWritten := s.outCap, mode := .idle }

/-- REF in every dialect completes where the bounds test passes and the output has room (R185 to R188, R99): `len + 3` bytes,
byte `j` from `dist` bytes back, counted from the cursor of that moment, so that bytes of the same copy are read again where
`dist ≤ j` (R71, R255); each goes to `OUT[op + j]` and `WIN[cur + j]`; every other byte and every other part of the state is
unchanged. -/
def Obligations.ReferenceCopies : Prop :=
  ∀ (layout : Layout) (endian : Endian) (ofs : WinPos) (len : LenField) (s : State),
    (s.cfg.prefillMode = .none → distance ofs ≤ s.dec.op) → s.dec.op + (len.toNat + 3) ≤ s.outCap →
    ∃ t, exec (Instr.ref layout endian ofs len) s = .next t
      ∧ t = { s with
          out := t.out
          win := t.win
          dec := { s.dec with
            ip := s.dec.ip + 2
            op := s.dec.op + (len.toNat + 3)
            cur := s.dec.cur + BitVec.ofNat 12 (len.toNat + 3)
            ofs := ofs
            lenField := len
            remaining := 0 } }
      ∧ (∀ j, j < len.toNat + 3 →
          t.out.read (s.dec.op + j)
              = (if j < distance ofs then s.win.byteT (s.dec.cur + BitVec.ofNat 12 j - ofs)
                else t.out.read (s.dec.op + (j - distance ofs)))
            ∧ t.win.byteT (s.dec.cur + BitVec.ofNat 12 j) = t.out.read (s.dec.op + j))
      ∧ (∀ a, a < s.dec.op ∨ s.dec.op + (len.toNat + 3) ≤ a → t.out.read a = s.out.read a)
      ∧ (∀ p, (∀ j, j < len.toNat + 3 → p ≠ s.dec.cur + BitVec.ofNat 12 j) → t.win.byteT p = s.win.byteT p)

/-- REF in every dialect where the output fills up inside the copy (R188, R190, R227): `OutputExhausted` with
`BYTES_WRITTEN = OUT_CAP`; the bytes that fit were copied as ever and stay; `remaining` counts those that did not.
That `ofs`, `lenField` and `remaining` keep what the pseudocode left is the model's reading (log 18, 19, DEDUCED). -/
def Obligations.ReferenceStopsAtCapacity : Prop :=
  ∀ (layout : Layout) (endian : Endian) (ofs : WinPos) (len : LenField) (s : State),
    s.mode = .decoding → (s.cfg.prefillMode = .none → distance ofs ≤ s.dec.op) →
    s.dec.op ≤ s.outCap → s.outCap < s.dec.op + (len.toNat + 3) →
    ∃ t, exec (Instr.ref layout endian ofs len) s = .next t
      ∧ t = { s with
          mode := .idle
          status := .outputExhausted
          bytesWritten := s.outCap
          out := t.out
          win := t.win
          dec := { s.dec with
            ip := s.dec.ip + 2
            op := s.outCap
            cur := s.dec.cur + BitVec.ofNat 12 (s.outCap - s.dec.op)
            ofs := ofs
            lenField := len
            remaining := BitVec.ofNat 5 (s.dec.op + (len.toNat + 3) - s.outCap) } }
      ∧ (∀ j, j < s.outCap - s.dec.op →
          t.out.read (s.dec.op + j)
              = (if j < distance ofs then s.win.byteT (s.dec.cur + BitVec.ofNat 12 j - ofs)
                else t.out.read (s.dec.op + (j - distance ofs)))
            ∧ t.win.byteT (s.dec.cur + BitVec.ofNat 12 j) = t.out.read (s.dec.op + j))
      ∧ (∀ a, a < s.dec.op ∨ s.outCap ≤ a → t.out.read a = s.out.read a)
      ∧ (∀ p, (∀ j, j < s.outCap - s.dec.op → p ≠ s.dec.cur + BitVec.ofNat 12 j) → t.win.byteT p = s.win.byteT p)

/-- REF in every dialect that reaches before the first produced byte with no prefill (R187, R228): `BadBackReference`, with
nothing written; its two bytes are read. That `remaining` then holds the length is the model's reading (log 18). -/
def Obligations.BackReferenceBeforeStartFails : Prop :=
  ∀ (layout : Layout) (endian : Endian) (ofs : WinPos) (len : LenField) (s : State),
    s.mode = .decoding → s.cfg.prefillMode = .none → s.dec.op < distance ofs →
    exec (Instr.ref layout endian ofs len) s = .next
      { s with
        mode := .idle
        status := .badBackReference
        bytesWritten := s.dec.op
        dec := { s.dec with
          ip := s.dec.ip + 2
          ofs := ofs
          lenField := len
          remaining := BitVec.ofNat 5 (len.toNat + 3) } }

/-- EOS completes in every state (R185, R100): the call ends `OK`, `ip` after the two bytes; `WIN`, `OUT`, `cur`, `op` as they
were. That `ofs` and `lenField` hold the two zeros is the model's reading (log 18). -/
def Obligations.TerminatorEndsTheCall : Prop :=
  ∀ s : State, s.mode = .decoding →
    exec .eos s = .next
      { s with
        mode := .idle
        status := .ok
        bytesWritten := s.dec.op
        dec := { s.dec with ip := s.dec.ip + 2, ofs := 0, lenField := 0 } }

/-- No symbol stops the machine, and none touches anything but the decoder's registers, `OUT`, `WIN` and, where it ends the
call, the result registers and `MODE`; among the decoder's registers, `flag` and `dstate` are the sequencer's, and `ctrl` and
`bitsLeft` only CTRL's (R102, R51, R30). -/
def Obligations.EverySymbolCompletesInItsFrame : Prop :=
  ∀ (i : Instr) (s : State), ∃ t, exec i s = .next t
    ∧ t = { s with
        out := t.out
        win := t.win
        dec := t.dec
        mode := t.mode
        status := t.status
        bytesWritten := t.bytesWritten }
    ∧ t.dec.flag = s.dec.flag ∧ t.dec.dstate = s.dec.dstate
    ∧ ((∀ f, i ≠ .ctrl f) → t.dec.ctrl = s.dec.ctrl ∧ t.dec.bitsLeft = s.dec.bitsLeft)
    ∧ (s.mode = .decoding → t.mode = .decoding → t.status = s.status ∧ t.bytesWritten = s.bytesWritten)


/-- R230: `finish(status)` sets STATUS, BYTES_WRITTEN to the number of bytes written in the call, and `MODE`; it saves no other
state. -/
def Obligations.FinishEndsACall : Prop :=
  ∀ (st : Status) (s : State),
    (s.mode = .decoding → s.finish st = { s with status := st, bytesWritten := s.dec.op, mode := .idle })
    ∧ (s.mode = .encoding → s.finish st = { s with status := st, bytesWritten := s.enc.outCount, mode := .idle })

/-! ### The decoder's turn (00_scope.md R12, 43_decoder.md R181, R182, R189)

A step is one control-bit read plus one symbol; `State.reachesSymbol` says in which state it processes the symbol. -/

/-- R12, R181. A step of a running DECODE whose turn processes its symbol in state `u` runs the symbol that the bytes at `u`'s
`ip` decode to, under the selector that `u`'s flag gives (R101), and is back in `ReadControlBit` where the call goes on (R42).
Before that, with no flag bit left, it runs the control byte that the bytes at `ip` decode to and takes the flag of slot 0
(R183). From `ReadControlBit`, `u` is the state after the control-bit read. `State.reachesSymbol` has one case more, and no
rule gives it: from `ProcessSymbol` the step is the rest of the turn and `u` is the state itself, the model's choice (log 5,
DESIGN CHOICE). -/
def Obligations.StepRunsTheDecodedSymbol : Prop :=
  (∀ (s u t : State) (i : Instr) (rest : List Byte), s.reachesSymbol u →
    decode u.cfg (if u.dec.flag then .literal else .reference) (u.inBuf.drop u.dec.ip) = .symbol i rest → exec i u = .next t →
    step s = .next (if t.mode = .decoding then { t with dec := { t.dec with dstate := .readControlBit } } else t))
  ∧ (∀ (s t : State) (i : Instr) (rest : List Byte), s.mode = .decoding → s.dec.dstate = .readControlBit → s.dec.bitsLeft = 0 →
    decode s.cfg .control (s.inBuf.drop s.dec.ip) = .symbol i rest → exec i s = .next t → s.reachesSymbol t.takeFlag)

/-- R182, R181: in `ReadControlBit` the end of input comes first and ends the call `OK`, before a control byte is loaded and
before a flag bit is used. With input left, the step takes one flag, from a control byte it loads first where no flag bit is
left (R183, R39), and goes on as from `ProcessSymbol` with that flag. What a step from `ProcessSymbol` itself does, the rest
of the turn, is the model's choice (log 5, DESIGN CHOICE). -/
def Obligations.BoundaryBeforeNextFlag : Prop :=
  ∀ s : State, s.mode = .decoding → s.dec.dstate = .readControlBit →
    (s.dec.ip = s.inBuf.length →
      step s = .next { s with status := .ok, bytesWritten := s.dec.op, mode := .idle })
    ∧ (s.dec.ip < s.inBuf.length → s.dec.bitsLeft ≠ 0 →
      step s = step { s with dec := { s.dec with
        flag := s.dec.ctrl.getLsbD (if s.cfg.controlBitOrder = .lsb then 0 else 7)
        ctrl := if s.cfg.controlBitOrder = .lsb then s.dec.ctrl >>> 1 else s.dec.ctrl <<< 1
        bitsLeft := s.dec.bitsLeft - 1
        dstate := .processSymbol } })
    ∧ (∀ f, s.inBuf[s.dec.ip]? = some f → s.dec.bitsLeft = 0 →
      step s = step { s with dec := { s.dec with
        ip := s.dec.ip + 1
        flag := f.getLsbD (if s.cfg.controlBitOrder = .lsb then 0 else 7)
        ctrl := if s.cfg.controlBitOrder = .lsb then f >>> 1 else f <<< 1
        bitsLeft := 7
        dstate := .processSymbol } })

/-- R189, R226: a symbol whose flag is taken and whose bytes are missing, 0 bytes left for a literal, 0 or 1 for a reference,
ends the call `TruncatedInput`; the control byte and the flag stay taken, bytes already produced stay. That a step also begins
in `ProcessSymbol`, with no control-bit read, as the rest of the turn (the last case of `State.reachesSymbol`) is the model's
choice (log 5, DESIGN CHOICE). -/
def Obligations.MissingBytesTruncate : Prop :=
  ∀ s u : State, s.reachesSymbol u → u.inBuf.length - u.dec.ip < (if u.dec.flag then 1 else 2) →
    step s = .next { u with status := .truncatedInput, bytesWritten := u.dec.op, mode := .idle }

/-- The literal path whole (R184), as the step whose turn selects it (R181): `TruncatedInput` where no byte is left, else
`OutputExhausted` where the output is full, else the byte to `OUT` and `WIN`, and back to `ReadControlBit` (R42). That a step
also begins in `ProcessSymbol`, with no control-bit read, as the rest of the turn (the last case of `State.reachesSymbol`) is
the model's choice (log 5, DESIGN CHOICE). -/
def Obligations.LiteralPath : Prop :=
  ∀ s u : State, s.reachesSymbol u → u.dec.flag = true → u.dec.ip ≤ u.inBuf.length → u.dec.op ≤ u.outCap →
    (u.inBuf.length = u.dec.ip →
      step s = .next { u with status := .truncatedInput, bytesWritten := u.dec.op, mode := .idle })
    ∧ (∀ b, u.inBuf[u.dec.ip]? = some b → u.dec.op = u.outCap →
      step s = .next { u with status := .outputExhausted, bytesWritten := u.dec.op, mode := .idle })
    ∧ (∀ b, u.inBuf[u.dec.ip]? = some b → u.dec.op < u.outCap →
      step s = .next
        { u with
          out := u.out.write u.dec.op b
          win := u.win.write u.dec.cur.toNat b
          dec := { u.dec with
            ip := u.dec.ip + 1, op := u.dec.op + 1, cur := u.dec.cur + 1, dstate := .readControlBit } })

/-- R262, R181, R191: a running DECODE ends, within one step per input byte left and one more, whatever the state it is in.
From `ProcessSymbol` the first of these steps is the rest of a turn, the model's choice (log 5, DESIGN CHOICE). -/
def Obligations.DecodeTerminates : Prop :=
  ∀ s : State, s.mode = .decoding →
    ∃ k t, k ≤ s.decodeMeasure + 1 ∧ Host.Core.run core k s = .next t ∧ t.mode = .idle

/-! ### Invariants -/

/-- Every step keeps the memories in canonical form, the window, `OUT` below `OUT_CAP` (R62), the code buffer, the tree RAMs, and
those of every parked instance. -/
def Obligations.StepKeepsMemoriesCanonical : Prop :=
  ∀ s t : State, s.canonical → step s = .next t → t.canonical

/-- R192: the decoder's ranges, with the cursor at `writeStart + op`, are kept by every step; and every step, from whatever
state, leaves a running DECODE in `ReadControlBit`, the boundary of its turns (R12, R42). That this is so of a step from
`ProcessSymbol` too, the rest of a turn, is the model's choice (log 5, DESIGN CHOICE). -/
def Obligations.StepKeepsDecoderInRange : Prop :=
  ∀ s t : State, step s = .next t →
    (s.decoderInRange → t.decoderInRange) ∧ (t.mode = .decoding → t.dec.dstate = .readControlBit)

/-- R32, the decoder's part: while a DECODE runs, every step keeps in the window the last `N` produced bytes behind the cursor,
and the prefill (or `W0`) bytes at the positions not reached. -/
def Obligations.StepKeepsWindowHoldingOutput : Prop :=
  ∀ s t : State, s.decoderInRange → s.windowHoldsOutput → step s = .next t → t.windowHoldsOutput

/-- R43, R168, R170: the encoder's ranges (`s = (r + F) mod N`, a full lookahead while input is left, `r` at the count of coded
bytes from `writeStart`, a pending group that fits the code buffer) are kept by every step. -/
def Obligations.StepKeepsEncoderInRange : Prop :=
  ∀ s t : State, s.encoderInRange → step s = .next t → t.encoderInRange

/-- R32, the encoder's part, R124: while an ENCODE runs, every step keeps the last `N` loaded input bytes in the window, byte `k`
at `writeStart + k`. -/
def Obligations.StepKeepsWindowHoldingInput : Prop :=
  ∀ s t : State, s.encoderInRange → s.windowHoldsInput → step s = .next t → t.windowHoldsInput

/-- R30, R29, R217: every step keeps every instance's Configuration admitted; and while a call runs, no step changes the
Configuration. -/
def Obligations.StepKeepsConfiguration : Prop :=
  ∀ s t : State, step s = .next t →
    (s.configured → t.configured) ∧ (s.mode = .decoding ∨ s.mode = .encoding → t.cfg = s.cfg)

/-- Every step keeps the host's side in order: handles distinct and given out, every parked instance idle (R10, R223). Handles
and parking are the model's form of several instances (log 8, DESIGN CHOICE). -/
def Obligations.StepKeepsHostOrdered : Prop :=
  ∀ s t : State, s.hostOrdered → step s = .next t → t.hostOrdered

/-- R36, R250: the state after reset meets every invariant stated here. -/
def Obligations.ResetMeetsTheInvariants : Prop :=
  State.reset.canonical ∧ State.reset.configured ∧ State.reset.hostOrdered ∧ State.reset.decoderInRange
    ∧ State.reset.windowHoldsOutput ∧ State.reset.encoderInRange ∧ State.reset.windowHoldsInput ∧ State.reset.treesInOrder

/-! ### Isolation -/

/-- R187, R252: in prefill mode `none` the decoder never reads a `W0` byte: two machines that differ only in the window, at
positions this call has not produced a byte for, take the same step and differ only so afterwards, with the same `OUT`, STATUS
and BYTES_WRITTEN. -/
def Obligations.DecoderNeverReadsW0 : Prop :=
  ∀ s t s' : State, s.mode = .decoding → s.cfg.prefillMode = .none → agreeButForW0 s t → step s = .next s' →
    ∃ t', step t = .next t' ∧ agreeButForW0 s' t'

/-- R252, R222: nothing a call reads was written before it: two machines in the same place of the same call, whatever else they
hold, take the same step, to the same place with the same `OUT`; and where the call ends, with the same STATUS and
BYTES_WRITTEN. -/
def Obligations.CallsShareNothing : Prop :=
  ∀ s t s' : State, s.mode = .decoding ∨ s.mode = .encoding → sameCall s t → step s = .next s' →
    ∃ t', step t = .next t' ∧ sameCall s' t'
      ∧ (s'.mode = .idle → s'.status = t'.status ∧ s'.bytesWritten = t'.bytesWritten)

/-- R74, R243: a step leaves every instance that it neither runs on nor selects as it was; and an instance put aside is kept
whole. Handles and parking are the model's form of several instances (log 8, DESIGN CHOICE). -/
def Obligations.InstancesAreIsolated : Prop :=
  ∀ s t : State, step s = .next t →
    (∀ h, h ≠ s.sel → h ≠ t.sel → findInstance t.parked h = findInstance s.parked h)
    ∧ (s.mode ≠ .absent → t.sel ≠ s.sel → findInstance t.parked s.sel = some s.toInstance)

/-! ### Commands and resets (45_command_interface.md, 10_state.md R50) -/

/-- R216: GET_DEFAULT_CONFIG hands back the defaults, in every mode in which a command is taken, and changes nothing else. The
request list and `reply` are the model's form of the host (log 8, DESIGN CHOICE). -/
def Obligations.DefaultConfigurationIsConstant : Prop :=
  ∀ (s : State) (rest : List Request), s.mode = .idle ∨ s.mode = .absent → s.requests = .getDefaultConfig :: rest →
    step s = .next { s with requests := rest, reply := .config defaultConfiguration }
    ∧ checkConfiguration defaultConfiguration
      = some { controlBitOrder := .lsb, matchFieldLayout := .hl, matchFieldEndianness := .le, prefillMode := .constant,
               prefillValue := 0x20, prefillFn := none, writeStart := 4078, eosMode := .none, dupShortcut := false }

/-- R217: CREATE admits a Configuration exactly when every enumerated field holds one of its codes, `writeStart` is below `N`, a
prefill function is there in mode `custom`, and `dupShortcut` is false; and the registers then hold the values those codes have
(R21 to R29). -/
def Obligations.CreateChecksItsOperand : Prop :=
  ∀ c : RawConfiguration,
    ((∃ cfg, checkConfiguration c = some cfg) ↔
      c.controlBitOrder ≤ 1 ∧ c.matchFieldLayout ≤ 3 ∧ c.matchFieldEndianness ≤ 1 ∧ c.prefillMode ≤ 2
        ∧ c.writeStart < 4096 ∧ c.eosMode ≤ 1 ∧ c.dupShortcut = 0 ∧ (c.prefillMode = 1 → c.prefillFn ≠ none))
    ∧ ∀ cfg, checkConfiguration c = some cfg →
      ((c.controlBitOrder = 0 → cfg.controlBitOrder = .lsb) ∧ (c.controlBitOrder = 1 → cfg.controlBitOrder = .msb))
      ∧ ((c.matchFieldLayout = 0 → cfg.matchFieldLayout = .ll) ∧ (c.matchFieldLayout = 1 → cfg.matchFieldLayout = .lh)
        ∧ (c.matchFieldLayout = 2 → cfg.matchFieldLayout = .hl) ∧ (c.matchFieldLayout = 3 → cfg.matchFieldLayout = .hh))
      ∧ ((c.matchFieldEndianness = 0 → cfg.matchFieldEndianness = .le)
        ∧ (c.matchFieldEndianness = 1 → cfg.matchFieldEndianness = .be))
      ∧ ((c.prefillMode = 0 → cfg.prefillMode = .constant) ∧ (c.prefillMode = 1 → cfg.prefillMode = .custom)
        ∧ (c.prefillMode = 2 → cfg.prefillMode = .none))
      ∧ ((c.eosMode = 0 → cfg.eosMode = .none) ∧ (c.eosMode = 1 → cfg.eosMode = .nullref))
      ∧ cfg.prefillValue = c.prefillValue ∧ cfg.prefillFn = c.prefillFn ∧ cfg.writeStart.toNat = c.writeStart
      ∧ cfg.dupShortcut = false

/-- R217, R223: CREATE of an admitted Configuration makes an idle instance of that Configuration under a new handle, beside
the others; of another it hands back `ConfigurationError` and makes none. The handles, the request list and `reply` are the
model's form of the host (log 8, DESIGN CHOICE); that a failed CREATE answers in `reply` and leaves every STATUS as it was is
the model's choice (log 21, DESIGN CHOICE). -/
def Obligations.CreateMakesAnInstance : Prop :=
  ∀ (s : State) (c : RawConfiguration) (rest : List Request),
    s.mode = .idle ∨ s.mode = .absent → s.requests = .create c :: rest →
    (checkConfiguration c = none → step s = .next { s with requests := rest, reply := .configurationError })
    ∧ (∀ cfg, checkConfiguration c = some cfg →
      ∃ t, step s = .next t ∧ t.cfg = cfg ∧ t.mode = .idle ∧ t.sel = s.nextHandle ∧ t.reply = .created s.nextHandle
        ∧ t.requests = rest ∧ t.inBuf = s.inBuf ∧ t.out = s.out ∧ t.outCap = s.outCap)

/-- R218, R223: DESTROY of an idle instance, the selected one or a parked one, ends it; every other instance and the caller's
buffers are kept, and every later command on the handle is refused; so is one on a handle never given out. Handles, parking
and `reply`, and that the destroyed instance's handle stays the selected one, are the model's form (log 8, 23, DESIGN CHOICE).
-/
def Obligations.DestroyedInstanceRefusesCommands : Prop :=
  (∀ (s : State) (h : Nat) (inst : Instance) (rest : List Request),
    s.addresses h inst → s.requests = .destroy h :: rest →
    ∃ t, step s = .next t ∧ t.mode = .absent ∧ t.sel = h ∧ t.reply = .destroyed ∧ t.requests = rest
      ∧ t.inBuf = s.inBuf ∧ t.out = s.out ∧ t.outCap = s.outCap
      ∧ (h = s.sel → t.parked = s.parked)
      ∧ (h ≠ s.sel → findInstance t.parked h = none)
      ∧ (h ≠ s.sel → s.mode = .idle → findInstance t.parked s.sel = some s.toInstance)
      ∧ ∀ g, g ≠ h → (g = s.sel → s.mode = .absent) → findInstance t.parked g = findInstance s.parked g)
  ∧ (∀ (s : State) (h : Nat) (rest : List Request) (input output : List Byte),
    s.mode = .idle ∨ s.mode = .absent → (h = s.sel → s.mode = .absent) → (h ≠ s.sel → findInstance s.parked h = none) →
    (s.requests = .destroy h :: rest → step s = .refused (.instanceAbsent h))
    ∧ (s.requests = .encode h input output :: rest → step s = .refused (.instanceAbsent h))
    ∧ (s.requests = .decode h input output :: rest → step s = .refused (.instanceAbsent h)))

/-- R50, R37, R121, R220, the call-start reset of DECODE, on the selected instance or a parked one: the decoder's registers at
their reset values, every window position prefilled, the buffers the call's, `MODE = Decoding`; the Configuration and the
encoder's state unchanged. That the step which takes DECODE makes this reset and ends there, before any turn, is the model's
choice (log 27, DESIGN CHOICE); handles and the request list are its form of the host (log 8, DESIGN CHOICE). -/
def Obligations.DecodeStartsFromReset : Prop :=
  ∀ (s : State) (h : Nat) (inst : Instance) (input output : List Byte) (rest : List Request),
    s.addresses h inst → s.requests = .decode h input output :: rest →
    ∃ t, step s = .next t ∧ t.sel = h ∧ t.mode = .decoding ∧ t.cfg = inst.cfg ∧ t.enc = inst.enc ∧ t.mf = inst.mf
      ∧ t.requests = rest ∧ t.inBuf = input ∧ t.outCap = output.length
      ∧ (∀ k b, output[k]? = some b → t.out.read k = b)
      ∧ t.dec = { ip := 0, op := 0, cur := inst.cfg.writeStart, ctrl := 0, bitsLeft := 0, flag := false,
                  dstate := .readControlBit, ofs := 0, lenField := 0, remaining := 0 }
      ∧ (inst.cfg.prefillMode = .constant → ∀ p, t.win.byteT p = inst.cfg.prefillValue)
      ∧ (∀ f : PrefillTable, inst.cfg.prefillMode = .custom → inst.cfg.prefillFn = some f →
          ∀ p : WinPos, t.win.byteT p = f[p.toNat]'p.isLt)

/-- R50, R43 to R45, R142, R162, R219, the call-start reset of ENCODE and LOAD: the encoder's registers at their reset values
but for what LOAD sets, an empty Match Record, every tree entry `NIL`; the first up to `F` input bytes in the window from
`writeStart` on, every other position prefilled; the decoder's registers unchanged. That the cells 1 to 16 of `codeBuf` read 0
is the model's choice (log 13, DESIGN CHOICE): R44 resets `codeBuf[0]` alone. -/
def Obligations.EncodeStartsFromReset : Prop :=
  ∀ (s : State) (input output : List Byte),
    let t := (s.encodeStart input output).load
    t.mode = .encoding ∧ t.cfg = s.cfg ∧ t.dec = s.dec ∧ t.inBuf = input ∧ t.outCap = output.length
      ∧ (∀ k b, output[k]? = some b → t.out.read k = b)
      ∧ t.enc = { ip := min 18 input.length, r := s.cfg.writeStart, s := s.cfg.writeStart + 18,
                  len := BitVec.ofNat 5 (min 18 input.length), lastMatchLength := 0, i := 0, slot := 0, codeLen := 1,
                  outCount := 0, codeBuf := { base := .constant 0, cells := [] } }
      ∧ t.mf = { lson := [], rson := [], dad := [], matchPosition := 0, matchLength := 0 }
      ∧ (∀ k, k < 18 → ∀ b, input[k]? = some b → t.win.byteT (s.cfg.writeStart + BitVec.ofNat 12 k) = b)
      ∧ ∀ p, (∀ k, k < min 18 input.length → p ≠ s.cfg.writeStart + BitVec.ofNat 12 k) →
          t.win.byteT p = (prefillBase s.cfg s.draws).byteAt p.toNat

/-- R161, R149, R219: ENCODE of a non-empty input, on the selected instance or a parked one, in every prefill mode, goes on to
its first codeword turn: the input loaded and the rest prefilled, and the trees those of SEED, nearest position first (`F`
positions in mode `constant`, `N - F` in mode `custom`, none in mode `none`), and of INSERT of the first position, made from
empty trees. They keep R47 and hold no other position; in mode `none` the first position is alone, and `matchLength` 0 says so
(R144). That the one step which takes ENCODE makes the reset, LOAD, SEED and the first INSERT, and ends before the first
codeword turn, is the model's choice (log 27, DESIGN CHOICE); handles and the request list are its form of the host (log 8,
DESIGN CHOICE). -/
def Obligations.EncodeBeginsSeeded : Prop :=
  ∀ (s : State) (h : Nat) (inst : Instance) (input output : List Byte) (rest : List Request),
    s.addresses h inst → input ≠ [] → s.requests = .encode h input output :: rest →
    let start := inst.cfg.writeStart
    let count := match inst.cfg.prefillMode with | .constant => 18 | .custom => 4078 | .none => 0
    let seeds := (List.range count).map fun i => start - BitVec.ofNat 12 (i + 1)
    ∃ t, step s = .next t ∧ t.sel = h ∧ t.mode = .encoding ∧ t.cfg = inst.cfg ∧ t.inBuf = input ∧ t.outCap = output.length
      ∧ t.requests = rest
      ∧ t.enc.ip = min 18 input.length ∧ t.enc.len.toNat = min 18 input.length ∧ t.enc.r = start
      ∧ (∀ k, k < 18 → ∀ b, input[k]? = some b → t.win.byteT (start + BitVec.ofNat 12 k) = b)
      ∧ (∀ p, (∀ k, k < min 18 input.length → p ≠ start + BitVec.ofNat 12 k) →
          (inst.cfg.prefillMode = .constant → t.win.byteT p = inst.cfg.prefillValue)
          ∧ ∀ f : PrefillTable, inst.cfg.prefillMode = .custom → inst.cfg.prefillFn = some f →
            t.win.byteT p = f[p.toNat]'p.isLt)
      ∧ (seeds ++ [start]).foldlM (fun m p => MatchFinder.insert t.win p m)
          { lson := [], rson := [], dad := [], matchPosition := 0, matchLength := 0 } = some t.mf
      ∧ t.mf.treesOk t.win ∧ t.mf.attached start ∧ (∀ p, t.mf.attached p → p = start ∨ p ∈ seeds)
      ∧ (inst.cfg.prefillMode = .none →
          t.mf.matchLength = 0 ∧ ∀ x, x < 4096 → (ramRead t.mf.dad x ≠ 4096 ↔ x = start.toNat))

/-- ENCODE of an empty input ends `OK` with 0 bytes, whatever the Configuration and the capacity (R163, R160). That it ends in
the step which takes the command is the model's choice (log 27, DESIGN CHOICE); handles and the request list are its form of
the host (log 8, DESIGN CHOICE). -/
def Obligations.EmptyInputEncodesToNothing : Prop :=
  ∀ (s : State) (h : Nat) (inst : Instance) (output : List Byte) (rest : List Request),
    s.addresses h inst → s.requests = .encode h [] output :: rest →
    ∃ t, step s = .next t ∧ t.sel = h ∧ t.mode = .idle ∧ t.status = .ok ∧ t.bytesWritten = 0
      ∧ ∀ k b, output[k]? = some b → t.out.read k = b

/-- R180, R160, R219, R220, R227, R228: which statuses a call can end with. A DECODE ends `OK`, `TruncatedInput`,
`OutputExhausted` or, in prefill mode `none` only, `BadBackReference`, and an ENCODE `OK` or `OutputExhausted`; BYTES_WRITTEN
is the count of bytes written, and it is `OUT_CAP` on `OutputExhausted`. -/
def Obligations.CallsEndWithTheirStatuses : Prop :=
  ∀ s t : State, step s = .next t → t.mode = .idle →
    (s.mode = .decoding → s.dec.op ≤ s.outCap →
      t.bytesWritten = t.dec.op
      ∧ (t.status = .ok ∨ t.status = .truncatedInput ∨ (t.status = .outputExhausted ∧ t.bytesWritten = s.outCap)
        ∨ (t.status = .badBackReference ∧ s.cfg.prefillMode = .none)))
    ∧ (s.mode = .encoding → s.enc.outCount ≤ s.outCap →
      t.bytesWritten = t.enc.outCount
      ∧ (t.status = .ok ∨ (t.status = .outputExhausted ∧ t.bytesWritten = s.outCap)))

/-- R48, R61, R62: while a call runs, no step changes `IN` or `OUT_CAP`; the count of output bytes never falls and never passes
`OUT_CAP`; and `OUT` changes only at the indices the count passes over. -/
def Obligations.OutputGrowsInOrder : Prop :=
  ∀ s t : State, step s = .next t →
    (s.mode = .decoding → s.dec.op ≤ s.outCap →
      t.inBuf = s.inBuf ∧ t.outCap = s.outCap ∧ s.dec.op ≤ t.dec.op ∧ t.dec.op ≤ s.outCap
      ∧ ∀ a, a < s.dec.op ∨ t.dec.op ≤ a → t.out.read a = s.out.read a)
    ∧ (s.mode = .encoding → s.enc.outCount ≤ s.outCap →
      t.inBuf = s.inBuf ∧ t.outCap = s.outCap ∧ s.enc.outCount ≤ t.enc.outCount ∧ t.enc.outCount ≤ s.outCap
      ∧ ∀ a, a < s.enc.outCount ∨ t.enc.outCount ≤ a → t.out.read a = s.out.read a)

/-! ### The match finder (41_match_finder.md) -/

/-- R143: COMPARE gives the length of the common prefix of two keys, from byte 1 on, and the sign of the first difference, bytes
unsigned; 0 when all `F` bytes agree. -/
def Obligations.CompareFindsCommonPrefix : Prop :=
  ∀ (win : Memory) (r p : WinPos),
    let found := compareKeys win r p
    1 ≤ found.1 ∧ found.1 ≤ 18
    ∧ (∀ k, 1 ≤ k → k < found.1 → win.byteT (r + BitVec.ofNat 12 k) = win.byteT (p + BitVec.ofNat 12 k))
    ∧ (found.1 = 18 → found.2 = .eq)
    ∧ (found.1 < 18 →
      let a := win.byteT (r + BitVec.ofNat 12 found.1)
      let b := win.byteT (p + BitVec.ofNat 12 found.1)
      a ≠ b ∧ (b.toNat < a.toNat → found.2 = .gt) ∧ (a.toNat < b.toNat → found.2 = .lt))

/-- R142, R50: INIT_TREE leaves every entry of the three RAMs `NIL`, and the Match Record as it was; the trees then keep R47,
every one empty, whatever the window holds. -/
def Obligations.InitTreeEmptiesTheTrees : Prop :=
  ∀ m : MatchFinder,
    (∀ x : Nat, ramRead m.initTree.lson x = 4096 ∧ ramRead m.initTree.rson x = 4096 ∧ ramRead m.initTree.dad x = 4096)
    ∧ m.initTree.matchPosition = m.matchPosition ∧ m.initTree.matchLength = m.matchLength
    ∧ ∀ win : Memory, m.initTree.treesOk win

/-- R144: INSERT into an empty tree makes `r` its top node with no children; `matchLength` is 0 and `matchPosition` keeps its
value; no other link changes. -/
def Obligations.InsertIntoEmptyTree : Prop :=
  ∀ (win : Memory) (r : WinPos) (m : MatchFinder),
    ramRead m.rson (4097 + (win.byteT r).toNat) = 4096 →
    ∃ m', m.insert win r = some m' ∧ m'.matchLength = 0 ∧ m'.matchPosition = m.matchPosition
      ∧ (∀ x, ramRead m'.rson x
          = if x = 4097 + (win.byteT r).toNat then r.setWidth 13 else if x = r.toNat then 4096 else ramRead m.rson x)
      ∧ (∀ x, ramRead m'.lson x = if x = r.toNat then 4096 else ramRead m.lson x)
      ∧ (∀ x, (ramRead m'.dad x).toNat
          = if x = r.toNat then 4097 + (win.byteT r).toNat else (ramRead m.dad x).toNat)

/-- R150, R144, R145, R47. Whatever the links, bytes 1 to `matchLength - 1` of the strings at `matchPosition` and at `r` agree
and `matchLength` is at most `F`. On trees that keep R47, INSERT of an unattached `r` answers and keeps R47; `r` is attached,
and the only node it takes out is the one it found equal over `F` bytes (R145). `matchLength` is the greatest common prefix,
from byte 0 on, of `r`'s string and that of any node of the tree of byte `T(r)`; `matchPosition` is a node that attains it;
where that tree is empty `matchLength` is 0 and `matchPosition` keeps its value. -/
def Obligations.InsertFindsTheLongestMatch : Prop :=
  (∀ (win : Memory) (r : WinPos) (m m' : MatchFinder), m.insert win r = some m' →
    m'.matchLength.toNat ≤ 18
    ∧ ∀ k, 1 ≤ k → k < m'.matchLength.toNat →
      win.byteT (r + BitVec.ofNat 12 k) = win.byteT (m'.matchPosition + BitVec.ofNat 12 k))
  ∧ (∀ (win : Memory) (r : WinPos) (m : MatchFinder), m.treesOk win → ¬ m.attached r →
    ∃ m', m.insert win r = some m' ∧ m'.treesOk win ∧ m'.attached r
      ∧ (∀ p, p ≠ r → (m'.attached p ↔ m.attached p ∧ ¬ (m'.matchLength = 18 ∧ p = m'.matchPosition)))
      ∧ ((∀ p, m.attached p → win.byteT p ≠ win.byteT r) → m'.matchLength = 0 ∧ m'.matchPosition = m.matchPosition)
      ∧ (∀ p n, m.attached p → win.byteT p = win.byteT r → n ≤ 18 → keysAgree win n r p → n ≤ m'.matchLength.toNat)
      ∧ (m'.matchLength ≠ 0 → m.attached m'.matchPosition ∧ keysAgree win m'.matchLength.toNat r m'.matchPosition))

/-- R145: REPLACE puts `r` in the place of `p`: `p`'s parent and children become `r`'s, the parent's link and the children's
parent links name `r`, `p` is unattached, and no other link changes. Here `p`, `r` are nodes, and the links of `p` are those of a
tree that keeps R47. -/
def Obligations.ReplaceTakesOverLinks : Prop :=
  ∀ (m : MatchFinder) (p r d l c : TreeIndex),
    p.toNat < 4096 → r.toNat < 4096 → p ≠ r → d.toNat ≤ 4352 → d ≠ 4096 → d ≠ p → d ≠ r →
    l.toNat ≤ 4096 → c.toNat ≤ 4096 → l ≠ p → l ≠ r → c ≠ p → c ≠ r →
    ramRead m.dad p.toNat = d → ramRead m.lson p.toNat = l → ramRead m.rson p.toNat = c →
    (ramRead m.rson d.toNat = p ∨ (ramRead m.rson d.toNat ≠ p ∧ d.toNat < 4096)) →
    ∃ m', m.replace p r = some m' ∧ m'.matchPosition = m.matchPosition ∧ m'.matchLength = m.matchLength
      ∧ (∀ x, ramRead m'.dad x
          = if x = p.toNat then 4096 else if x = c.toNat ∨ x = l.toNat then r else if x = r.toNat then d else ramRead m.dad x)
      ∧ (∀ x, ramRead m'.rson x
          = if x = d.toNat ∧ ramRead m.rson d.toNat = p then r else if x = r.toNat then c else ramRead m.rson x)
      ∧ (∀ x, ramRead m'.lson x
          = if x = d.toNat ∧ ramRead m.rson d.toNat ≠ p then r else if x = r.toNat then l else ramRead m.lson x)

/-- R147: DELETE of a position in no tree does nothing. -/
def Obligations.DeleteOfUnattachedIsNothing : Prop :=
  ∀ (m : MatchFinder) (p : TreeIndex), p.toNat < 4096 → ramRead m.dad p.toNat = 4096 → m.delete p = some m

/-- R147, the links. DELETE of a node with at most one child puts that child, or `NIL`, in its place, and the node is
unattached; no other link changes (`dad[NIL]` is the scratch cell, R152). DELETE of any node `p` of a drawn tree, two children
included, puts in its place the tree that `SearchTree.join` makes of its subtrees: the only one there is, or the in-order
predecessor, taken out of the left subtree, with the rest of that subtree and the right one under it; no link outside `p`'s
subtrees changes but the parent's link to `p`. -/
def Obligations.DeleteSplicesReplacement : Prop :=
  (∀ (m : MatchFinder) (p d q : TreeIndex),
    p.toNat < 4096 → d.toNat ≤ 4352 → d ≠ 4096 → d ≠ p → q.toNat ≤ 4096 → q ≠ p →
    ramRead m.dad p.toNat = d →
    (ramRead m.rson p.toNat = 4096 ∧ ramRead m.lson p.toNat = q
      ∨ ramRead m.rson p.toNat = q ∧ ramRead m.lson p.toNat = 4096) →
    (ramRead m.rson d.toNat = p ∨ (ramRead m.rson d.toNat ≠ p ∧ d.toNat < 4096)) →
    ∃ m', m.delete p = some m' ∧ m'.matchPosition = m.matchPosition ∧ m'.matchLength = m.matchLength
      ∧ (∀ x, ramRead m'.dad x = if x = p.toNat then 4096 else if x = q.toNat then d else ramRead m.dad x)
      ∧ (∀ x, ramRead m'.rson x = if x = d.toNat ∧ ramRead m.rson d.toNat = p then q else ramRead m.rson x)
      ∧ (∀ x, ramRead m'.lson x = if x = d.toNat ∧ ramRead m.rson d.toNat ≠ p then q else ramRead m.lson x))
  ∧ (∀ (m : MatchFinder) (p : WinPos) (d : TreeIndex) (a b : SearchTree),
    (SearchTree.node a p b).drawn m d (nodeOf p) → (SearchTree.node a p b).nodes.Nodup →
    (∀ q ∈ (SearchTree.node a p b).nodes, d ≠ nodeOf q) → d ≠ 4096 → d.toNat ≤ 4352 →
    (ramRead m.rson d.toNat = nodeOf p ∨ (ramRead m.rson d.toNat ≠ nodeOf p ∧ d.toNat < 4096)) →
    ∃ m', m.delete (nodeOf p) = some m' ∧ m'.matchPosition = m.matchPosition ∧ m'.matchLength = m.matchLength
      ∧ (a.join b).drawn m' d
          (if ramRead m.rson d.toNat = nodeOf p then ramRead m'.rson d.toNat else ramRead m'.lson d.toNat)
      ∧ ramRead m'.dad p.toNat = 4096
      ∧ ∀ x : Nat, (∀ q ∈ (SearchTree.node a p b).nodes, x ≠ q.toNat) →
        (x ≠ 4096 → ramRead m'.dad x = ramRead m.dad x)
        ∧ (¬ (x = d.toNat ∧ ramRead m.rson d.toNat = nodeOf p) → ramRead m'.rson x = ramRead m.rson x)
        ∧ (¬ (x = d.toNat ∧ ramRead m.rson d.toNat ≠ nodeOf p) → ramRead m'.lson x = ramRead m.lson x))

/-- R147, R47: whatever DELETE did, the position it names is in no tree afterwards. On trees that keep R47, DELETE of any position
answers and keeps R47, takes out that position and no other, and leaves the Match Record as it was. -/
def Obligations.DeleteKeepsTheTrees : Prop :=
  (∀ (m m' : MatchFinder) (p : TreeIndex), m.delete p = some m' → ramRead m'.dad p.toNat = 4096)
  ∧ (∀ (win : Memory) (m : MatchFinder) (p : WinPos), m.treesOk win →
    ∃ m', m.delete (nodeOf p) = some m' ∧ m'.treesOk win
      ∧ m'.matchPosition = m.matchPosition ∧ m'.matchLength = m.matchLength
      ∧ ∀ q, m'.attached q ↔ m.attached q ∧ q ≠ p)

/-! ### The encoder (42_encoder.md) -/

/-- R164, R165: STEP where at most THRESHOLD lookahead bytes match: the flag of the slot and the byte at `r`; one byte coded. -/
def Obligations.ShortMatchEmitsLiteral : Prop :=
  ∀ s : State, min s.mf.matchLength.toNat s.enc.len.toNat ≤ 2 → 1 ≤ s.enc.codeLen.toNat → s.enc.codeLen.toNat ≤ 16 →
    ∃ e : EncoderRegs, s.encodeStep = { s with enc := e }
      ∧ e = { s.enc with
          codeBuf := e.codeBuf
          codeLen := s.enc.codeLen + 1
          lastMatchLength := 1
          slot := s.enc.slot + 1 }
      ∧ e.codeBuf.read 0 = s.enc.codeBuf.read 0 ||| flagBit s.cfg.controlBitOrder s.enc.slot.toNat
      ∧ e.codeBuf.read s.enc.codeLen.toNat = s.win.byteT s.enc.r
      ∧ ∀ a, a ≠ 0 → a ≠ s.enc.codeLen.toNat → e.codeBuf.read a = s.enc.codeBuf.read a

/-- R164, R167: STEP where `m > THRESHOLD` lookahead bytes match: the reference of distance `(r - matchPosition) mod N` and length
field `m - 3`, packed in the Configuration's dialect; the slot's flag stays 0; `m` bytes coded. -/
def Obligations.LongMatchEmitsReference : Prop :=
  ∀ (s : State) (m : Nat), m = min s.mf.matchLength.toNat s.enc.len.toNat → 3 ≤ m → m ≤ 18 →
    s.enc.codeLen.toNat + 2 ≤ 17 →
    ∃ (e : EncoderRegs) (first second : Byte), s.encodeStep = { s with enc := e }
      ∧ encode (Instr.ref s.cfg.matchFieldLayout s.cfg.matchFieldEndianness (s.enc.r - s.mf.matchPosition)
          (BitVec.ofNat 4 (m - 3))) = [first, second]
      ∧ e = { s.enc with
          codeBuf := e.codeBuf
          codeLen := s.enc.codeLen + 2
          lastMatchLength := BitVec.ofNat 5 m
          slot := s.enc.slot + 1 }
      ∧ e.codeBuf.read s.enc.codeLen.toNat = first
      ∧ e.codeBuf.read (s.enc.codeLen.toNat + 1) = second
      ∧ ∀ a, a ≠ s.enc.codeLen.toNat → a ≠ s.enc.codeLen.toNat + 1 → e.codeBuf.read a = s.enc.codeBuf.read a

/-- R169: FLUSH, where the pending group fits the output, appends the code buffer's bytes to `OUT` in order, the control byte
first, and empties the buffer; nothing else changes. -/
def Obligations.FlushAppendsTheGroup : Prop :=
  ∀ s : State, s.mode = .encoding → s.enc.outCount + s.enc.codeLen.toNat ≤ s.outCap →
    ∃ t, s.flush = t
      ∧ t = { s with
          out := t.out
          enc := { s.enc with
            outCount := s.enc.outCount + s.enc.codeLen.toNat, codeLen := 1, slot := 0, codeBuf := s.enc.codeBuf.write 0 0 } }
      ∧ (∀ k, k < s.enc.codeLen.toNat → t.out.read (s.enc.outCount + k) = s.enc.codeBuf.read k)
      ∧ (∀ a, a < s.enc.outCount ∨ s.enc.outCount + s.enc.codeLen.toNat ≤ a → t.out.read a = s.out.read a)

/-- R172, R227: FLUSH of a group that does not fit writes the bytes that do and ends the call `OutputExhausted` with
`BYTES_WRITTEN = OUT_CAP`. -/
def Obligations.FlushStopsAtCapacity : Prop :=
  ∀ s : State, s.mode = .encoding → s.enc.outCount ≤ s.outCap → s.outCap < s.enc.outCount + s.enc.codeLen.toNat →
    ∃ t, s.flush = t
      ∧ t = { s with
          mode := .idle
          status := .outputExhausted
          bytesWritten := s.outCap
          out := t.out
          enc := { s.enc with outCount := s.outCap } }
      ∧ (∀ k, k < s.outCap - s.enc.outCount → t.out.read (s.enc.outCount + k) = s.enc.codeBuf.read k)
      ∧ (∀ a, a < s.enc.outCount ∨ s.outCap ≤ a → t.out.read a = s.out.read a)

/-- R161, R168 to R172: what `step` does in MODE `Encoding`. While the lookahead holds a byte: STEP; FLUSH exactly where that
fills slot 8, and the call ends there if the group does not fit; else SLIDE, one byte `lastMatchLength` times. With the
lookahead empty: APPEND_EOS only under `nullref`; FLUSH only where a codeword is pending, never for a lone control byte
(R170); then `finish(OK)`. APPEND_EOS puts the two bytes `00 00` in the next slot, whose flag stays 0 (R171). A codeword turn
is a step by R12; that APPEND_EOS, the last FLUSH and `finish` are together one step of their own, after the last turn, is the
model's choice (log 27, DESIGN CHOICE). -/
def Obligations.EncoderRunsItsLoop : Prop :=
  (∀ s : State, 1 ≤ s.enc.codeLen.toNat → s.enc.codeLen.toNat + 2 ≤ 17 →
    ∃ e : EncoderRegs, s.appendEos = { s with enc := e }
      ∧ e = { s.enc with codeBuf := e.codeBuf, codeLen := s.enc.codeLen + 2, slot := s.enc.slot + 1 }
      ∧ e.codeBuf.read s.enc.codeLen.toNat = 0 ∧ e.codeBuf.read (s.enc.codeLen.toNat + 1) = 0
      ∧ ∀ a, a ≠ s.enc.codeLen.toNat → a ≠ s.enc.codeLen.toNat + 1 → e.codeBuf.read a = s.enc.codeBuf.read a)
  ∧ (∀ s : State, s.mode = .encoding → s.enc.len ≠ 0 → s.enc.codeLen.toNat + 2 ≤ 17 → s.enc.outCount ≤ s.outCap →
    let t := s.encodeStep
    let slides := fun u v : State =>
      (fun o : Option State => o.bind State.slideByte)^[t.enc.lastMatchLength.toNat]
        (some { u with enc := { u.enc with i := 0 } }) = some v
    (s.enc.slot ≠ 7 → ∀ v, slides t v → step s = .next v)
    ∧ (s.enc.slot = 7 → s.enc.outCount + t.enc.codeLen.toNat ≤ s.outCap → ∀ v, slides t.flush v → step s = .next v)
    ∧ (s.enc.slot = 7 → s.outCap < s.enc.outCount + t.enc.codeLen.toNat → step s = .next t.flush))
  ∧ (∀ s : State, s.mode = .encoding → s.enc.len = 0 → 1 ≤ s.enc.codeLen.toNat → s.enc.codeLen.toNat + 2 ≤ 17 →
    s.enc.outCount ≤ s.outCap →
    (s.cfg.eosMode = .none → s.enc.codeLen = 1 →
      step s = .next { s with status := .ok, bytesWritten := s.enc.outCount, mode := .idle })
    ∧ (∀ t, (s.cfg.eosMode = .nullref ∧ t = s.appendEos ∨ s.cfg.eosMode = .none ∧ s.enc.codeLen ≠ 1 ∧ t = s) →
      (s.enc.outCount + t.enc.codeLen.toNat ≤ s.outCap →
        step s = .next { t.flush with
          status := .ok, bytesWritten := s.enc.outCount + t.enc.codeLen.toNat, mode := .idle })
      ∧ (s.outCap < s.enc.outCount + t.enc.codeLen.toNat → step s = .next t.flush)))

/-- R168, R256: one byte of SLIDE with input left deletes the position from its tree, then overwrites it with the next input byte,
then inserts the new `r`; with no input left the window is not written and the lookahead shrinks, and the new `r` is inserted
while a byte is left. -/
def Obligations.SlideMovesOneByte : Prop :=
  ∀ (s : State) (m : MatchFinder), s.mf.delete (s.enc.s.setWidth 13) = some m →
    (∀ b m', s.inBuf[s.enc.ip]? = some b → m.insert (s.win.write s.enc.s.toNat b) (s.enc.r + 1) = some m' →
      s.slideByte = some
        { s with
          win := s.win.write s.enc.s.toNat b
          mf := m'
          enc := { s.enc with ip := s.enc.ip + 1, s := s.enc.s + 1, r := s.enc.r + 1, i := s.enc.i + 1 } })
    ∧ (∀ m', s.inBuf.length ≤ s.enc.ip →
      (if s.enc.len - 1 = 0 then some m else m.insert s.win (s.enc.r + 1)) = some m' →
      s.slideByte = some
        { s with
          mf := m'
          enc := { s.enc with s := s.enc.s + 1, r := s.enc.r + 1, len := s.enc.len - 1, i := s.enc.i + 1 } })

/-- R262: within one turn per byte not yet coded and one step more, a running ENCODE has ended, or the machine has stopped at
a broken tree or a full code buffer (log 15, 16); and with the encoder's registers in range and the trees in order it has
ended, in no more steps, and nothing stops on the way. That the closing is one step of its own, the one more, is the model's
choice (log 27, DESIGN CHOICE), and so are the two stops (log 15, 16, DESIGN CHOICE). -/
def Obligations.EncodeTerminates : Prop :=
  (∀ s : State, s.mode = .encoding →
    ∃ k, k ≤ s.encodeMeasure + 1
      ∧ ((∃ t, Host.Core.run core k s = .next t ∧ t.mode = .idle)
        ∨ Host.Core.run core k s = .fault .treeBroken ∨ Host.Core.run core k s = .fault .codeBufferFull))
  ∧ (∀ s : State, s.mode = .encoding → s.encoderInRange → s.treesInOrder →
    ∃ k t, k ≤ s.encodeMeasure + 1 ∧ Host.Core.run core k s = .next t ∧ t.mode = .idle)

/-! ### The archive-header codec (44_header_codec.md) -/

/-- R202, R203, the source's example: `"sLZS,b1A,c2L,o4L"` parses to its four fields, and writes `4C 5A 53 1A FA 00 E8 03 00
00` for the sizes 1000 and 250. -/
def Obligations.HeaderExampleIsByteExact : Prop :=
  parseSpec [0x73, 0x4C, 0x5A, 0x53, 0x2C, 0x62, 0x31, 0x41, 0x2C, 0x63, 0x32, 0x4C, 0x2C, 0x6F, 0x34, 0x4C]
      = some [.str 0x4C [0x5A, 0x53], .byte 0x1A, .size .comp .two .le, .size .orig .four .le]
  ∧ writeHeader [.str 0x4C [0x5A, 0x53], .byte 0x1A, .size .comp .two .le, .size .orig .four .le] 1000 250
      = [0x4C, 0x5A, 0x53, 0x1A, 0xFA, 0x00, 0xE8, 0x03, 0x00, 0x00]

/-- R203, R204, R205: a header that is written and read back by the same fields gives the payload's place and each size as its
widest field holds it. -/
def Obligations.HeaderReadsBackWhatWasWritten : Prop :=
  ∀ (fields : List HeaderField) (origSize compSize : Nat) (payload : List Byte),
    readHeader fields (writeHeader fields origSize compSize ++ payload)
      = .found (sizeReadBack .orig origSize fields) (sizeReadBack .comp compSize fields) (headerLength fields)

/-- R204: READ_HEADER finds a header only where the input is as long as the fields ask and the payload then starts after them. -/
def Obligations.HeaderFoundOnlyWhole : Prop :=
  ∀ (fields : List HeaderField) (input : List Byte) (o c : Option Nat) (payload : Nat),
    readHeader fields input = .found o c payload → payload = headerLength fields ∧ payload ≤ input.length

/-! ### The trees of a running ENCODE (41_match_finder.md R47) -/

/-- R47, R168, R256: while an ENCODE runs in range, every step keeps the trees: what the links draw keeps R47 in the window of
that moment, and of the lookahead positions only the first is attached, so that a byte is overwritten only where no attached
key reads it. -/
def Obligations.StepKeepsTrees : Prop :=
  ∀ s t : State, s.encoderInRange → s.treesInOrder → step s = .next t → t.treesInOrder
end

