-- ==== Sys2Proof/Laws/Memory.lean ====
section
/-! SUPPORT. Laws of the sparse memories: read after write in every list, and the canonical form kept by every write. -/

namespace Sys2Proof.Machine

variable {w : Nat}

theorem cellsFind_insert (a b : Nat) (v : BitVec w) (cells : List (Nat × BitVec w)) :
    cellsFind (cellsInsert a v cells) b = if b = a then some v else cellsFind cells b := by
  induction cells with
  | nil => simp [cellsInsert, cellsFind, eq_comm]
  | cons c rest ih =>
    obtain ⟨d, u⟩ := c
    by_cases h1 : a < d
    · simp [cellsInsert, h1, cellsFind, eq_comm]
    · by_cases h2 : d = a
      · subst h2
        by_cases h3 : d = b <;> simp [cellsInsert, cellsFind, h3, eq_comm]
        simp [Ne.symm h3]
      · by_cases h3 : d = b
        · subst h3; simp [cellsInsert, h1, h2, cellsFind]
        · simp [cellsInsert, h1, h2, cellsFind, h3, ih]

theorem cellsFind_erase (a b : Nat) (cells : List (Nat × BitVec w)) :
    cellsFind (cellsErase a cells) b = if b = a then none else cellsFind cells b := by
  induction cells with
  | nil => simp [cellsErase, cellsFind]
  | cons c rest ih =>
    obtain ⟨d, u⟩ := c
    by_cases h2 : d = a
    · subst h2
      by_cases h3 : b = d
      · subst h3; simp [cellsErase, ih]
      · simp [cellsErase, cellsFind, h3, Ne.symm h3, ih]
    · by_cases h3 : d = b
      · subst h3; simp [cellsErase, cellsFind, h2]
      · simp [cellsErase, h2, cellsFind, h3, ih]

/-- What a write does to every address, in any list. -/
theorem cellsRead_write (bg : Nat → BitVec w) (a b : Nat) (v : BitVec w) (cells : List (Nat × BitVec w)) :
    (cellsFind (cellsWrite (bg a) a v cells) b).getD (bg b) = if b = a then v else (cellsFind cells b).getD (bg b) := by
  unfold cellsWrite
  split
  · next h => rw [cellsFind_erase]; by_cases hb : b = a <;> simp [hb, h]
  · rw [cellsFind_insert]; by_cases hb : b = a <;> simp [hb]

/-- A byte after a write: the byte written at the address written to, the byte before elsewhere (R67). -/
theorem Memory.read_write (m : Memory) (a b : Nat) (v : Byte) :
    (m.write a v).read b = if b = a then v else m.read b :=
  cellsRead_write m.base.byteAt a b v m.cells

@[simp] theorem Memory.read_write_same (m : Memory) (a : Nat) (v : Byte) : (m.write a v).read a = v := by
  simp [Memory.read_write]

theorem Memory.read_write_other (m : Memory) {a b : Nat} (v : Byte) (h : b ≠ a) : (m.write a v).read b = m.read b := by
  simp [Memory.read_write, h]

@[simp] theorem Memory.base_write (m : Memory) (a : Nat) (v : Byte) : (m.write a v).base = m.base := rfl

/-- A window byte after a write at a window position. -/
theorem Memory.byteT_write (m : Memory) (p q : WinPos) (v : Byte) :
    (m.write p.toNat v).byteT q = if q = p then v else m.byteT q := by
  simp [Memory.byteT, Memory.read_write, BitVec.toNat_inj]

/-- A tree entry after a write. -/
theorem ramRead_ramWrite (ram : TreeRam) (a b : Nat) (v : TreeIndex) :
    ramRead (ramWrite ram a v) b = if b = a then v else ramRead ram b :=
  cellsRead_write (fun _ => Config.NIL) a b v ram

@[simp] theorem ramRead_nil (a : Nat) : ramRead [] a = Config.NIL := rfl

theorem mem_cellsInsert {a : Nat} {v : BitVec w} {cells : List (Nat × BitVec w)} {c : Nat × BitVec w}
    (h : c ∈ cellsInsert a v cells) : c = (a, v) ∨ c ∈ cells := by
  induction cells with
  | nil => simpa [cellsInsert] using h
  | cons d rest ih =>
    obtain ⟨b, u⟩ := d
    simp only [cellsInsert] at h
    split at h
    · simpa using h
    · split at h
      · rcases List.mem_cons.1 h with h | h <;> simp [h]
      · rcases List.mem_cons.1 h with h | h
        · simp [h]
        · rcases ih h with h | h <;> simp [h]

theorem mem_cellsErase {a : Nat} {cells : List (Nat × BitVec w)} {c : Nat × BitVec w}
    (h : c ∈ cellsErase a cells) : c ∈ cells := by
  induction cells with
  | nil => simp [cellsErase] at h
  | cons d rest ih =>
    obtain ⟨b, u⟩ := d
    simp only [cellsErase] at h
    split at h
    · simp [ih h]
    · rcases List.mem_cons.1 h with h | h
      · simp [h]
      · simp [ih h]

theorem pairwise_cellsInsert {a : Nat} {v : BitVec w} {cells : List (Nat × BitVec w)}
    (h : cells.Pairwise (fun c d => c.1 < d.1)) : (cellsInsert a v cells).Pairwise (fun c d => c.1 < d.1) := by
  induction cells with
  | nil => simp [cellsInsert]
  | cons d rest ih =>
    obtain ⟨b, u⟩ := d
    have hr := List.pairwise_cons.1 h
    simp only [cellsInsert]
    split
    · next hab =>
      refine List.pairwise_cons.2 ⟨fun c hc => ?_, h⟩
      rcases List.mem_cons.1 hc with rfl | hc
      · exact hab
      · exact lt_trans hab (hr.1 c hc)
    · split
      · next hba => subst hba; exact List.pairwise_cons.2 ⟨hr.1, hr.2⟩
      · refine List.pairwise_cons.2 ⟨fun c hc => ?_, ih hr.2⟩
        rcases mem_cellsInsert hc with rfl | hc
        · simp only; omega
        · exact hr.1 c hc

theorem pairwise_cellsErase {a : Nat} {cells : List (Nat × BitVec w)}
    (h : cells.Pairwise (fun c d => c.1 < d.1)) : (cellsErase a cells).Pairwise (fun c d => c.1 < d.1) := by
  induction cells with
  | nil => simp [cellsErase]
  | cons d rest ih =>
    obtain ⟨b, u⟩ := d
    have hr := List.pairwise_cons.1 h
    simp only [cellsErase]
    split
    · exact ih hr.2
    · exact List.pairwise_cons.2 ⟨fun c hc => hr.1 c (mem_cellsErase hc), ih hr.2⟩

/-- A write below `size` keeps the canonical form. -/
theorem cellsWf_write {size : Nat} {bg : Nat → BitVec w} {a : Nat} {v : BitVec w} {cells : List (Nat × BitVec w)}
    (ha : a < size) (h : cellsWf size bg cells) : cellsWf size bg (cellsWrite (bg a) a v cells) := by
  unfold cellsWrite
  split
  · exact ⟨pairwise_cellsErase h.1, fun c hc => h.2 c (mem_cellsErase hc)⟩
  · next hv =>
    refine ⟨pairwise_cellsInsert h.1, fun c hc => ?_⟩
    rcases mem_cellsInsert hc with rfl | hc
    · exact ⟨ha, hv⟩
    · exact h.2 c hc

theorem Memory.wf_write {size : Nat} {m : Memory} {a : Nat} (v : Byte) (ha : a < size) (h : m.wf size) :
    (m.write a v).wf size :=
  cellsWf_write ha h

/-- A write at a window position keeps the window's canonical form. -/
theorem Memory.wf_write_pos {m : Memory} (p : WinPos) (v : Byte) (h : m.wf 4096) : (m.write p.toNat v).wf 4096 :=
  Memory.wf_write v p.isLt h

theorem ramWf_write {size : Nat} {ram : TreeRam} {a : Nat} (v : TreeIndex) (ha : a < size) (h : ramWf size ram) :
    ramWf size (ramWrite ram a v) :=
  cellsWf_write ha h

/-- A memory with nothing listed is in canonical form. -/
theorem Memory.wf_empty (size : Nat) (base : Background) : (Memory.mk base []).wf size := by
  simp [Memory.wf, cellsWf]

theorem ramWf_empty (size : Nat) : ramWf size [] := by
  simp [ramWf, cellsWf]

/-- Two memories in canonical form over one background that read alike below `size` are equal data. -/
theorem cells_eq_of_read {size : Nat} {bg : Nat → BitVec w} {c d : List (Nat × BitVec w)} (hc : cellsWf size bg c)
    (hd : cellsWf size bg d) (h : ∀ a, a < size → (cellsFind c a).getD (bg a) = (cellsFind d a).getD (bg a)) : c = d := by
  have none_of : ∀ (l : List (Nat × BitVec w)) (a : Nat), (∀ x ∈ l, a < x.1) → cellsFind l a = none := by
    intro l
    induction l with
    | nil => intros; rfl
    | cons x rest ih =>
      intro a hx
      have := hx x (by simp)
      simp only [cellsFind]
      rw [if_neg (by omega), ih a (fun y hy => hx y (by simp [hy]))]
  induction c generalizing d with
  | nil =>
    cases d with
    | nil => rfl
    | cons y rest =>
      have := h y.1 (hd.2 y (by simp)).1
      simp only [cellsFind, Option.getD_none, if_true, Option.getD_some] at this
      exact absurd this.symm (hd.2 y (by simp)).2
  | cons x rest ih =>
    cases d with
    | nil =>
      have := h x.1 (hc.2 x (by simp)).1
      simp only [cellsFind, Option.getD_none, if_true, Option.getD_some] at this
      exact absurd this (hc.2 x (by simp)).2
    | cons y rest' =>
      have hxr := List.pairwise_cons.1 hc.1
      have hyr := List.pairwise_cons.1 hd.1
      have hx := hc.2 x (by simp)
      have hy := hd.2 y (by simp)
      have hxy : x.1 = y.1 := by
        rcases lt_trichotomy x.1 y.1 with hlt | heq | hgt
        · have := h x.1 hx.1
          rw [none_of (y :: rest') x.1 (by
            intro z hz
            rcases List.mem_cons.1 hz with rfl | hz
            · exact hlt
            · exact lt_trans hlt (hyr.1 z hz))] at this
          simp only [cellsFind, if_true, Option.getD_some, Option.getD_none] at this
          exact absurd this hx.2
        · exact heq
        · have := h y.1 hy.1
          rw [none_of (x :: rest) y.1 (by
            intro z hz
            rcases List.mem_cons.1 hz with rfl | hz
            · exact hgt
            · exact lt_trans hgt (hxr.1 z hz))] at this
          simp only [cellsFind, if_true, Option.getD_some, Option.getD_none] at this
          exact absurd this.symm hy.2
      have hv : x.2 = y.2 := by
        have := h x.1 hx.1
        simpa [cellsFind, hxy] using this
      have hxy' : x = y := Prod.ext hxy hv
      subst hxy'
      congr 1
      refine ih ⟨hxr.2, fun z hz => hc.2 z (by simp [hz])⟩ ⟨hyr.2, fun z hz => hd.2 z (by simp [hz])⟩ (fun a ha => ?_)
      by_cases hax : x.1 = a
      · subst hax
        rw [none_of rest _ hxr.1, none_of rest' _ hyr.1]
      · have := h a ha
        simpa [cellsFind, hax] using this

/-- Equal memories are equal data: over one background, memories in canonical form that read alike are equal. -/
theorem Memory.ext_of_read {size : Nat} {m n : Memory} (hm : m.wf size) (hn : n.wf size) (hb : m.base = n.base)
    (h : ∀ a, a < size → m.read a = n.read a) : m = n := by
  cases m; cases n
  simp only at hb
  subst hb
  congr 1
  exact cells_eq_of_read hm hn h

end Sys2Proof.Machine
end

