-- ==== Sys2Proof/Laws/State.lean ====
section
/-! SUPPORT. One lemma per field per update of State, so that no proof unfolds a record update. -/

namespace Sys2Proof.Machine

/-! ### `State.prefill` -/

@[simp] theorem State.prefill_cfg (s : State) : (s.prefill).cfg = s.cfg := rfl
@[simp] theorem State.prefill_mode (s : State) : (s.prefill).mode = s.mode := rfl
@[simp] theorem State.prefill_status (s : State) : (s.prefill).status = s.status := rfl
@[simp] theorem State.prefill_bytesWritten (s : State) : (s.prefill).bytesWritten = s.bytesWritten := rfl
@[simp] theorem State.prefill_win (s : State) :
    (s.prefill).win = { base := prefillBase s.cfg s.draws, cells := [] } := rfl
@[simp] theorem State.prefill_dec (s : State) : (s.prefill).dec = s.dec := rfl
@[simp] theorem State.prefill_enc (s : State) : (s.prefill).enc = s.enc := rfl
@[simp] theorem State.prefill_mf (s : State) : (s.prefill).mf = s.mf := rfl
@[simp] theorem State.prefill_sel (s : State) : (s.prefill).sel = s.sel := rfl
@[simp] theorem State.prefill_parked (s : State) : (s.prefill).parked = s.parked := rfl
@[simp] theorem State.prefill_nextHandle (s : State) : (s.prefill).nextHandle = s.nextHandle := rfl
@[simp] theorem State.prefill_inBuf (s : State) : (s.prefill).inBuf = s.inBuf := rfl
@[simp] theorem State.prefill_out (s : State) : (s.prefill).out = s.out := rfl
@[simp] theorem State.prefill_outCap (s : State) : (s.prefill).outCap = s.outCap := rfl
@[simp] theorem State.prefill_requests (s : State) : (s.prefill).requests = s.requests := rfl
@[simp] theorem State.prefill_reply (s : State) : (s.prefill).reply = s.reply := rfl
@[simp] theorem State.prefill_draws (s : State) : (s.prefill).draws = s.draws := rfl

/-! ### `State.finish` -/

@[simp] theorem State.finish_cfg (s : State) (st : Status) : (s.finish st).cfg = s.cfg := rfl
@[simp] theorem State.finish_mode (s : State) (st : Status) : (s.finish st).mode = .idle := rfl
@[simp] theorem State.finish_status (s : State) (st : Status) : (s.finish st).status = st := rfl
@[simp] theorem State.finish_bytesWritten (s : State) (st : Status) : (s.finish st).bytesWritten = s.bytesOut := rfl
@[simp] theorem State.finish_win (s : State) (st : Status) : (s.finish st).win = s.win := rfl
@[simp] theorem State.finish_dec (s : State) (st : Status) : (s.finish st).dec = s.dec := rfl
@[simp] theorem State.finish_enc (s : State) (st : Status) : (s.finish st).enc = s.enc := rfl
@[simp] theorem State.finish_mf (s : State) (st : Status) : (s.finish st).mf = s.mf := rfl
@[simp] theorem State.finish_sel (s : State) (st : Status) : (s.finish st).sel = s.sel := rfl
@[simp] theorem State.finish_parked (s : State) (st : Status) : (s.finish st).parked = s.parked := rfl
@[simp] theorem State.finish_nextHandle (s : State) (st : Status) : (s.finish st).nextHandle = s.nextHandle := rfl
@[simp] theorem State.finish_inBuf (s : State) (st : Status) : (s.finish st).inBuf = s.inBuf := rfl
@[simp] theorem State.finish_out (s : State) (st : Status) : (s.finish st).out = s.out := rfl
@[simp] theorem State.finish_outCap (s : State) (st : Status) : (s.finish st).outCap = s.outCap := rfl
@[simp] theorem State.finish_requests (s : State) (st : Status) : (s.finish st).requests = s.requests := rfl
@[simp] theorem State.finish_reply (s : State) (st : Status) : (s.finish st).reply = s.reply := rfl
@[simp] theorem State.finish_draws (s : State) (st : Status) : (s.finish st).draws = s.draws := rfl

/-! ### `State.skip` -/

@[simp] theorem State.skip_cfg (s : State) (n : Nat) : (s.skip n).cfg = s.cfg := rfl
@[simp] theorem State.skip_mode (s : State) (n : Nat) : (s.skip n).mode = s.mode := rfl
@[simp] theorem State.skip_status (s : State) (n : Nat) : (s.skip n).status = s.status := rfl
@[simp] theorem State.skip_bytesWritten (s : State) (n : Nat) : (s.skip n).bytesWritten = s.bytesWritten := rfl
@[simp] theorem State.skip_win (s : State) (n : Nat) : (s.skip n).win = s.win := rfl
@[simp] theorem State.skip_dec_ip (s : State) (n : Nat) : (s.skip n).dec.ip = s.dec.ip + n := rfl
@[simp] theorem State.skip_dec_op (s : State) (n : Nat) : (s.skip n).dec.op = s.dec.op := rfl
@[simp] theorem State.skip_dec_cur (s : State) (n : Nat) : (s.skip n).dec.cur = s.dec.cur := rfl
@[simp] theorem State.skip_dec_ctrl (s : State) (n : Nat) : (s.skip n).dec.ctrl = s.dec.ctrl := rfl
@[simp] theorem State.skip_dec_bitsLeft (s : State) (n : Nat) : (s.skip n).dec.bitsLeft = s.dec.bitsLeft := rfl
@[simp] theorem State.skip_dec_flag (s : State) (n : Nat) : (s.skip n).dec.flag = s.dec.flag := rfl
@[simp] theorem State.skip_dec_dstate (s : State) (n : Nat) : (s.skip n).dec.dstate = s.dec.dstate := rfl
@[simp] theorem State.skip_dec_ofs (s : State) (n : Nat) : (s.skip n).dec.ofs = s.dec.ofs := rfl
@[simp] theorem State.skip_dec_lenField (s : State) (n : Nat) : (s.skip n).dec.lenField = s.dec.lenField := rfl
@[simp] theorem State.skip_dec_remaining (s : State) (n : Nat) : (s.skip n).dec.remaining = s.dec.remaining := rfl
@[simp] theorem State.skip_enc (s : State) (n : Nat) : (s.skip n).enc = s.enc := rfl
@[simp] theorem State.skip_mf (s : State) (n : Nat) : (s.skip n).mf = s.mf := rfl
@[simp] theorem State.skip_sel (s : State) (n : Nat) : (s.skip n).sel = s.sel := rfl
@[simp] theorem State.skip_parked (s : State) (n : Nat) : (s.skip n).parked = s.parked := rfl
@[simp] theorem State.skip_nextHandle (s : State) (n : Nat) : (s.skip n).nextHandle = s.nextHandle := rfl
@[simp] theorem State.skip_inBuf (s : State) (n : Nat) : (s.skip n).inBuf = s.inBuf := rfl
@[simp] theorem State.skip_out (s : State) (n : Nat) : (s.skip n).out = s.out := rfl
@[simp] theorem State.skip_outCap (s : State) (n : Nat) : (s.skip n).outCap = s.outCap := rfl
@[simp] theorem State.skip_requests (s : State) (n : Nat) : (s.skip n).requests = s.requests := rfl
@[simp] theorem State.skip_reply (s : State) (n : Nat) : (s.skip n).reply = s.reply := rfl
@[simp] theorem State.skip_draws (s : State) (n : Nat) : (s.skip n).draws = s.draws := rfl

/-! ### `State.produce` -/

@[simp] theorem State.produce_cfg (s : State) (b : Byte) : (s.produce b).cfg = s.cfg := rfl
@[simp] theorem State.produce_mode (s : State) (b : Byte) : (s.produce b).mode = s.mode := rfl
@[simp] theorem State.produce_status (s : State) (b : Byte) : (s.produce b).status = s.status := rfl
@[simp] theorem State.produce_bytesWritten (s : State) (b : Byte) : (s.produce b).bytesWritten = s.bytesWritten := rfl
@[simp] theorem State.produce_win (s : State) (b : Byte) : (s.produce b).win = s.win.write s.dec.cur.toNat b := rfl
@[simp] theorem State.produce_dec_ip (s : State) (b : Byte) : (s.produce b).dec.ip = s.dec.ip := rfl
@[simp] theorem State.produce_dec_op (s : State) (b : Byte) : (s.produce b).dec.op = s.dec.op + 1 := rfl
@[simp] theorem State.produce_dec_cur (s : State) (b : Byte) : (s.produce b).dec.cur = s.dec.cur + 1 := rfl
@[simp] theorem State.produce_dec_ctrl (s : State) (b : Byte) : (s.produce b).dec.ctrl = s.dec.ctrl := rfl
@[simp] theorem State.produce_dec_bitsLeft (s : State) (b : Byte) : (s.produce b).dec.bitsLeft = s.dec.bitsLeft := rfl
@[simp] theorem State.produce_dec_flag (s : State) (b : Byte) : (s.produce b).dec.flag = s.dec.flag := rfl
@[simp] theorem State.produce_dec_dstate (s : State) (b : Byte) : (s.produce b).dec.dstate = s.dec.dstate := rfl
@[simp] theorem State.produce_dec_ofs (s : State) (b : Byte) : (s.produce b).dec.ofs = s.dec.ofs := rfl
@[simp] theorem State.produce_dec_lenField (s : State) (b : Byte) : (s.produce b).dec.lenField = s.dec.lenField := rfl
@[simp] theorem State.produce_dec_remaining (s : State) (b : Byte) :
    (s.produce b).dec.remaining = s.dec.remaining := rfl
@[simp] theorem State.produce_enc (s : State) (b : Byte) : (s.produce b).enc = s.enc := rfl
@[simp] theorem State.produce_mf (s : State) (b : Byte) : (s.produce b).mf = s.mf := rfl
@[simp] theorem State.produce_sel (s : State) (b : Byte) : (s.produce b).sel = s.sel := rfl
@[simp] theorem State.produce_parked (s : State) (b : Byte) : (s.produce b).parked = s.parked := rfl
@[simp] theorem State.produce_nextHandle (s : State) (b : Byte) : (s.produce b).nextHandle = s.nextHandle := rfl
@[simp] theorem State.produce_inBuf (s : State) (b : Byte) : (s.produce b).inBuf = s.inBuf := rfl
@[simp] theorem State.produce_out (s : State) (b : Byte) : (s.produce b).out = s.out.write s.dec.op b := rfl
@[simp] theorem State.produce_outCap (s : State) (b : Byte) : (s.produce b).outCap = s.outCap := rfl
@[simp] theorem State.produce_requests (s : State) (b : Byte) : (s.produce b).requests = s.requests := rfl
@[simp] theorem State.produce_reply (s : State) (b : Byte) : (s.produce b).reply = s.reply := rfl
@[simp] theorem State.produce_draws (s : State) (b : Byte) : (s.produce b).draws = s.draws := rfl

/-! ### `State.loadCtrl` -/

@[simp] theorem State.loadCtrl_cfg (s : State) (f : Byte) : (s.loadCtrl f).cfg = s.cfg := rfl
@[simp] theorem State.loadCtrl_mode (s : State) (f : Byte) : (s.loadCtrl f).mode = s.mode := rfl
@[simp] theorem State.loadCtrl_status (s : State) (f : Byte) : (s.loadCtrl f).status = s.status := rfl
@[simp] theorem State.loadCtrl_bytesWritten (s : State) (f : Byte) :
    (s.loadCtrl f).bytesWritten = s.bytesWritten := rfl
@[simp] theorem State.loadCtrl_win (s : State) (f : Byte) : (s.loadCtrl f).win = s.win := rfl
@[simp] theorem State.loadCtrl_dec_ip (s : State) (f : Byte) : (s.loadCtrl f).dec.ip = s.dec.ip + 1 := rfl
@[simp] theorem State.loadCtrl_dec_op (s : State) (f : Byte) : (s.loadCtrl f).dec.op = s.dec.op := rfl
@[simp] theorem State.loadCtrl_dec_cur (s : State) (f : Byte) : (s.loadCtrl f).dec.cur = s.dec.cur := rfl
@[simp] theorem State.loadCtrl_dec_ctrl (s : State) (f : Byte) : (s.loadCtrl f).dec.ctrl = f := rfl
@[simp] theorem State.loadCtrl_dec_bitsLeft (s : State) (f : Byte) : (s.loadCtrl f).dec.bitsLeft = 8 := rfl
@[simp] theorem State.loadCtrl_dec_flag (s : State) (f : Byte) : (s.loadCtrl f).dec.flag = s.dec.flag := rfl
@[simp] theorem State.loadCtrl_dec_dstate (s : State) (f : Byte) : (s.loadCtrl f).dec.dstate = s.dec.dstate := rfl
@[simp] theorem State.loadCtrl_dec_ofs (s : State) (f : Byte) : (s.loadCtrl f).dec.ofs = s.dec.ofs := rfl
@[simp] theorem State.loadCtrl_dec_lenField (s : State) (f : Byte) :
    (s.loadCtrl f).dec.lenField = s.dec.lenField := rfl
@[simp] theorem State.loadCtrl_dec_remaining (s : State) (f : Byte) :
    (s.loadCtrl f).dec.remaining = s.dec.remaining := rfl
@[simp] theorem State.loadCtrl_enc (s : State) (f : Byte) : (s.loadCtrl f).enc = s.enc := rfl
@[simp] theorem State.loadCtrl_mf (s : State) (f : Byte) : (s.loadCtrl f).mf = s.mf := rfl
@[simp] theorem State.loadCtrl_sel (s : State) (f : Byte) : (s.loadCtrl f).sel = s.sel := rfl
@[simp] theorem State.loadCtrl_parked (s : State) (f : Byte) : (s.loadCtrl f).parked = s.parked := rfl
@[simp] theorem State.loadCtrl_nextHandle (s : State) (f : Byte) : (s.loadCtrl f).nextHandle = s.nextHandle := rfl
@[simp] theorem State.loadCtrl_inBuf (s : State) (f : Byte) : (s.loadCtrl f).inBuf = s.inBuf := rfl
@[simp] theorem State.loadCtrl_out (s : State) (f : Byte) : (s.loadCtrl f).out = s.out := rfl
@[simp] theorem State.loadCtrl_outCap (s : State) (f : Byte) : (s.loadCtrl f).outCap = s.outCap := rfl
@[simp] theorem State.loadCtrl_requests (s : State) (f : Byte) : (s.loadCtrl f).requests = s.requests := rfl
@[simp] theorem State.loadCtrl_reply (s : State) (f : Byte) : (s.loadCtrl f).reply = s.reply := rfl
@[simp] theorem State.loadCtrl_draws (s : State) (f : Byte) : (s.loadCtrl f).draws = s.draws := rfl

/-! ### `State.loadRef` -/

@[simp] theorem State.loadRef_cfg (s : State) (ofs : WinPos) (len : LenField) : (s.loadRef ofs len).cfg = s.cfg := rfl
@[simp] theorem State.loadRef_mode (s : State) (ofs : WinPos) (len : LenField) :
    (s.loadRef ofs len).mode = s.mode := rfl
@[simp] theorem State.loadRef_status (s : State) (ofs : WinPos) (len : LenField) :
    (s.loadRef ofs len).status = s.status := rfl
@[simp] theorem State.loadRef_bytesWritten (s : State) (ofs : WinPos) (len : LenField) :
    (s.loadRef ofs len).bytesWritten = s.bytesWritten := rfl
@[simp] theorem State.loadRef_win (s : State) (ofs : WinPos) (len : LenField) : (s.loadRef ofs len).win = s.win := rfl
@[simp] theorem State.loadRef_dec_ip (s : State) (ofs : WinPos) (len : LenField) :
    (s.loadRef ofs len).dec.ip = s.dec.ip + 2 := rfl
@[simp] theorem State.loadRef_dec_op (s : State) (ofs : WinPos) (len : LenField) :
    (s.loadRef ofs len).dec.op = s.dec.op := rfl
@[simp] theorem State.loadRef_dec_cur (s : State) (ofs : WinPos) (len : LenField) :
    (s.loadRef ofs len).dec.cur = s.dec.cur := rfl
@[simp] theorem State.loadRef_dec_ctrl (s : State) (ofs : WinPos) (len : LenField) :
    (s.loadRef ofs len).dec.ctrl = s.dec.ctrl := rfl
@[simp] theorem State.loadRef_dec_bitsLeft (s : State) (ofs : WinPos) (len : LenField) :
    (s.loadRef ofs len).dec.bitsLeft = s.dec.bitsLeft := rfl
@[simp] theorem State.loadRef_dec_flag (s : State) (ofs : WinPos) (len : LenField) :
    (s.loadRef ofs len).dec.flag = s.dec.flag := rfl
@[simp] theorem State.loadRef_dec_dstate (s : State) (ofs : WinPos) (len : LenField) :
    (s.loadRef ofs len).dec.dstate = s.dec.dstate := rfl
@[simp] theorem State.loadRef_dec_ofs (s : State) (ofs : WinPos) (len : LenField) :
    (s.loadRef ofs len).dec.ofs = ofs := rfl
@[simp] theorem State.loadRef_dec_lenField (s : State) (ofs : WinPos) (len : LenField) :
    (s.loadRef ofs len).dec.lenField = len := rfl
@[simp] theorem State.loadRef_dec_remaining (s : State) (ofs : WinPos) (len : LenField) :
    (s.loadRef ofs len).dec.remaining = s.dec.remaining := rfl
@[simp] theorem State.loadRef_enc (s : State) (ofs : WinPos) (len : LenField) : (s.loadRef ofs len).enc = s.enc := rfl
@[simp] theorem State.loadRef_mf (s : State) (ofs : WinPos) (len : LenField) : (s.loadRef ofs len).mf = s.mf := rfl
@[simp] theorem State.loadRef_sel (s : State) (ofs : WinPos) (len : LenField) : (s.loadRef ofs len).sel = s.sel := rfl
@[simp] theorem State.loadRef_parked (s : State) (ofs : WinPos) (len : LenField) :
    (s.loadRef ofs len).parked = s.parked := rfl
@[simp] theorem State.loadRef_nextHandle (s : State) (ofs : WinPos) (len : LenField) :
    (s.loadRef ofs len).nextHandle = s.nextHandle := rfl
@[simp] theorem State.loadRef_inBuf (s : State) (ofs : WinPos) (len : LenField) :
    (s.loadRef ofs len).inBuf = s.inBuf := rfl
@[simp] theorem State.loadRef_out (s : State) (ofs : WinPos) (len : LenField) : (s.loadRef ofs len).out = s.out := rfl
@[simp] theorem State.loadRef_outCap (s : State) (ofs : WinPos) (len : LenField) :
    (s.loadRef ofs len).outCap = s.outCap := rfl
@[simp] theorem State.loadRef_requests (s : State) (ofs : WinPos) (len : LenField) :
    (s.loadRef ofs len).requests = s.requests := rfl
@[simp] theorem State.loadRef_reply (s : State) (ofs : WinPos) (len : LenField) :
    (s.loadRef ofs len).reply = s.reply := rfl
@[simp] theorem State.loadRef_draws (s : State) (ofs : WinPos) (len : LenField) :
    (s.loadRef ofs len).draws = s.draws := rfl

/-! ### `State.setRemaining` -/

@[simp] theorem State.setRemaining_cfg (s : State) (n : Nat) : (s.setRemaining n).cfg = s.cfg := rfl
@[simp] theorem State.setRemaining_mode (s : State) (n : Nat) : (s.setRemaining n).mode = s.mode := rfl
@[simp] theorem State.setRemaining_status (s : State) (n : Nat) : (s.setRemaining n).status = s.status := rfl
@[simp] theorem State.setRemaining_bytesWritten (s : State) (n : Nat) :
    (s.setRemaining n).bytesWritten = s.bytesWritten := rfl
@[simp] theorem State.setRemaining_win (s : State) (n : Nat) : (s.setRemaining n).win = s.win := rfl
@[simp] theorem State.setRemaining_dec_ip (s : State) (n : Nat) : (s.setRemaining n).dec.ip = s.dec.ip := rfl
@[simp] theorem State.setRemaining_dec_op (s : State) (n : Nat) : (s.setRemaining n).dec.op = s.dec.op := rfl
@[simp] theorem State.setRemaining_dec_cur (s : State) (n : Nat) : (s.setRemaining n).dec.cur = s.dec.cur := rfl
@[simp] theorem State.setRemaining_dec_ctrl (s : State) (n : Nat) : (s.setRemaining n).dec.ctrl = s.dec.ctrl := rfl
@[simp] theorem State.setRemaining_dec_bitsLeft (s : State) (n : Nat) :
    (s.setRemaining n).dec.bitsLeft = s.dec.bitsLeft := rfl
@[simp] theorem State.setRemaining_dec_flag (s : State) (n : Nat) : (s.setRemaining n).dec.flag = s.dec.flag := rfl
@[simp] theorem State.setRemaining_dec_dstate (s : State) (n : Nat) :
    (s.setRemaining n).dec.dstate = s.dec.dstate := rfl
@[simp] theorem State.setRemaining_dec_ofs (s : State) (n : Nat) : (s.setRemaining n).dec.ofs = s.dec.ofs := rfl
@[simp] theorem State.setRemaining_dec_lenField (s : State) (n : Nat) :
    (s.setRemaining n).dec.lenField = s.dec.lenField := rfl
@[simp] theorem State.setRemaining_dec_remaining (s : State) (n : Nat) :
    (s.setRemaining n).dec.remaining = BitVec.ofNat 5 n := rfl
@[simp] theorem State.setRemaining_enc (s : State) (n : Nat) : (s.setRemaining n).enc = s.enc := rfl
@[simp] theorem State.setRemaining_mf (s : State) (n : Nat) : (s.setRemaining n).mf = s.mf := rfl
@[simp] theorem State.setRemaining_sel (s : State) (n : Nat) : (s.setRemaining n).sel = s.sel := rfl
@[simp] theorem State.setRemaining_parked (s : State) (n : Nat) : (s.setRemaining n).parked = s.parked := rfl
@[simp] theorem State.setRemaining_nextHandle (s : State) (n : Nat) :
    (s.setRemaining n).nextHandle = s.nextHandle := rfl
@[simp] theorem State.setRemaining_inBuf (s : State) (n : Nat) : (s.setRemaining n).inBuf = s.inBuf := rfl
@[simp] theorem State.setRemaining_out (s : State) (n : Nat) : (s.setRemaining n).out = s.out := rfl
@[simp] theorem State.setRemaining_outCap (s : State) (n : Nat) : (s.setRemaining n).outCap = s.outCap := rfl
@[simp] theorem State.setRemaining_requests (s : State) (n : Nat) : (s.setRemaining n).requests = s.requests := rfl
@[simp] theorem State.setRemaining_reply (s : State) (n : Nat) : (s.setRemaining n).reply = s.reply := rfl
@[simp] theorem State.setRemaining_draws (s : State) (n : Nat) : (s.setRemaining n).draws = s.draws := rfl

/-! ### `State.takeFlag` -/

@[simp] theorem State.takeFlag_cfg (s : State) : (s.takeFlag).cfg = s.cfg := rfl
@[simp] theorem State.takeFlag_mode (s : State) : (s.takeFlag).mode = s.mode := rfl
@[simp] theorem State.takeFlag_status (s : State) : (s.takeFlag).status = s.status := rfl
@[simp] theorem State.takeFlag_bytesWritten (s : State) : (s.takeFlag).bytesWritten = s.bytesWritten := rfl
@[simp] theorem State.takeFlag_win (s : State) : (s.takeFlag).win = s.win := rfl
@[simp] theorem State.takeFlag_dec_ip (s : State) : (s.takeFlag).dec.ip = s.dec.ip := rfl
@[simp] theorem State.takeFlag_dec_op (s : State) : (s.takeFlag).dec.op = s.dec.op := rfl
@[simp] theorem State.takeFlag_dec_cur (s : State) : (s.takeFlag).dec.cur = s.dec.cur := rfl
@[simp] theorem State.takeFlag_dec_ctrl (s : State) :
    (s.takeFlag).dec.ctrl = shiftCtrl s.cfg.controlBitOrder s.dec.ctrl := rfl
@[simp] theorem State.takeFlag_dec_bitsLeft (s : State) : (s.takeFlag).dec.bitsLeft = s.dec.bitsLeft - 1 := rfl
@[simp] theorem State.takeFlag_dec_flag (s : State) :
    (s.takeFlag).dec.flag = nextFlag s.cfg.controlBitOrder s.dec.ctrl := rfl
@[simp] theorem State.takeFlag_dec_dstate (s : State) : (s.takeFlag).dec.dstate = .processSymbol := rfl
@[simp] theorem State.takeFlag_dec_ofs (s : State) : (s.takeFlag).dec.ofs = s.dec.ofs := rfl
@[simp] theorem State.takeFlag_dec_lenField (s : State) : (s.takeFlag).dec.lenField = s.dec.lenField := rfl
@[simp] theorem State.takeFlag_dec_remaining (s : State) : (s.takeFlag).dec.remaining = s.dec.remaining := rfl
@[simp] theorem State.takeFlag_enc (s : State) : (s.takeFlag).enc = s.enc := rfl
@[simp] theorem State.takeFlag_mf (s : State) : (s.takeFlag).mf = s.mf := rfl
@[simp] theorem State.takeFlag_sel (s : State) : (s.takeFlag).sel = s.sel := rfl
@[simp] theorem State.takeFlag_parked (s : State) : (s.takeFlag).parked = s.parked := rfl
@[simp] theorem State.takeFlag_nextHandle (s : State) : (s.takeFlag).nextHandle = s.nextHandle := rfl
@[simp] theorem State.takeFlag_inBuf (s : State) : (s.takeFlag).inBuf = s.inBuf := rfl
@[simp] theorem State.takeFlag_out (s : State) : (s.takeFlag).out = s.out := rfl
@[simp] theorem State.takeFlag_outCap (s : State) : (s.takeFlag).outCap = s.outCap := rfl
@[simp] theorem State.takeFlag_requests (s : State) : (s.takeFlag).requests = s.requests := rfl
@[simp] theorem State.takeFlag_reply (s : State) : (s.takeFlag).reply = s.reply := rfl
@[simp] theorem State.takeFlag_draws (s : State) : (s.takeFlag).draws = s.draws := rfl

/-! ### `State.copyByte` -/

@[simp] theorem State.copyByte_cfg (s : State) : (s.copyByte).cfg = s.cfg := rfl
@[simp] theorem State.copyByte_mode (s : State) : (s.copyByte).mode = s.mode := rfl
@[simp] theorem State.copyByte_status (s : State) : (s.copyByte).status = s.status := rfl
@[simp] theorem State.copyByte_bytesWritten (s : State) : (s.copyByte).bytesWritten = s.bytesWritten := rfl
@[simp] theorem State.copyByte_win (s : State) :
    (s.copyByte).win = s.win.write s.dec.cur.toNat (s.win.byteT (sourcePos s.dec.cur s.dec.ofs)) := rfl
@[simp] theorem State.copyByte_dec_ip (s : State) : (s.copyByte).dec.ip = s.dec.ip := rfl
@[simp] theorem State.copyByte_dec_op (s : State) : (s.copyByte).dec.op = s.dec.op + 1 := rfl
@[simp] theorem State.copyByte_dec_cur (s : State) : (s.copyByte).dec.cur = s.dec.cur + 1 := rfl
@[simp] theorem State.copyByte_dec_ctrl (s : State) : (s.copyByte).dec.ctrl = s.dec.ctrl := rfl
@[simp] theorem State.copyByte_dec_bitsLeft (s : State) : (s.copyByte).dec.bitsLeft = s.dec.bitsLeft := rfl
@[simp] theorem State.copyByte_dec_flag (s : State) : (s.copyByte).dec.flag = s.dec.flag := rfl
@[simp] theorem State.copyByte_dec_dstate (s : State) : (s.copyByte).dec.dstate = s.dec.dstate := rfl
@[simp] theorem State.copyByte_dec_ofs (s : State) : (s.copyByte).dec.ofs = s.dec.ofs := rfl
@[simp] theorem State.copyByte_dec_lenField (s : State) : (s.copyByte).dec.lenField = s.dec.lenField := rfl
@[simp] theorem State.copyByte_dec_remaining (s : State) : (s.copyByte).dec.remaining = s.dec.remaining - 1 := rfl
@[simp] theorem State.copyByte_enc (s : State) : (s.copyByte).enc = s.enc := rfl
@[simp] theorem State.copyByte_mf (s : State) : (s.copyByte).mf = s.mf := rfl
@[simp] theorem State.copyByte_sel (s : State) : (s.copyByte).sel = s.sel := rfl
@[simp] theorem State.copyByte_parked (s : State) : (s.copyByte).parked = s.parked := rfl
@[simp] theorem State.copyByte_nextHandle (s : State) : (s.copyByte).nextHandle = s.nextHandle := rfl
@[simp] theorem State.copyByte_inBuf (s : State) : (s.copyByte).inBuf = s.inBuf := rfl
@[simp] theorem State.copyByte_out (s : State) :
    (s.copyByte).out = s.out.write s.dec.op (s.win.byteT (sourcePos s.dec.cur s.dec.ofs)) := rfl
@[simp] theorem State.copyByte_outCap (s : State) : (s.copyByte).outCap = s.outCap := rfl
@[simp] theorem State.copyByte_requests (s : State) : (s.copyByte).requests = s.requests := rfl
@[simp] theorem State.copyByte_reply (s : State) : (s.copyByte).reply = s.reply := rfl
@[simp] theorem State.copyByte_draws (s : State) : (s.copyByte).draws = s.draws := rfl

/-! ### `State.appendCode` -/

@[simp] theorem State.appendCode_cfg (s : State) (b : Byte) : (s.appendCode b).cfg = s.cfg := rfl
@[simp] theorem State.appendCode_mode (s : State) (b : Byte) : (s.appendCode b).mode = s.mode := rfl
@[simp] theorem State.appendCode_status (s : State) (b : Byte) : (s.appendCode b).status = s.status := rfl
@[simp] theorem State.appendCode_bytesWritten (s : State) (b : Byte) :
    (s.appendCode b).bytesWritten = s.bytesWritten := rfl
@[simp] theorem State.appendCode_win (s : State) (b : Byte) : (s.appendCode b).win = s.win := rfl
@[simp] theorem State.appendCode_dec (s : State) (b : Byte) : (s.appendCode b).dec = s.dec := rfl
@[simp] theorem State.appendCode_enc_ip (s : State) (b : Byte) : (s.appendCode b).enc.ip = s.enc.ip := rfl
@[simp] theorem State.appendCode_enc_r (s : State) (b : Byte) : (s.appendCode b).enc.r = s.enc.r := rfl
@[simp] theorem State.appendCode_enc_s (s : State) (b : Byte) : (s.appendCode b).enc.s = s.enc.s := rfl
@[simp] theorem State.appendCode_enc_len (s : State) (b : Byte) : (s.appendCode b).enc.len = s.enc.len := rfl
@[simp] theorem State.appendCode_enc_lastMatchLength (s : State) (b : Byte) :
    (s.appendCode b).enc.lastMatchLength = s.enc.lastMatchLength := rfl
@[simp] theorem State.appendCode_enc_i (s : State) (b : Byte) : (s.appendCode b).enc.i = s.enc.i := rfl
@[simp] theorem State.appendCode_enc_slot (s : State) (b : Byte) : (s.appendCode b).enc.slot = s.enc.slot := rfl
@[simp] theorem State.appendCode_enc_codeLen (s : State) (b : Byte) :
    (s.appendCode b).enc.codeLen = s.enc.codeLen + 1 := rfl
@[simp] theorem State.appendCode_enc_outCount (s : State) (b : Byte) :
    (s.appendCode b).enc.outCount = s.enc.outCount := rfl
@[simp] theorem State.appendCode_enc_codeBuf (s : State) (b : Byte) :
    (s.appendCode b).enc.codeBuf = s.enc.codeBuf.write s.enc.codeLen.toNat b := rfl
@[simp] theorem State.appendCode_mf (s : State) (b : Byte) : (s.appendCode b).mf = s.mf := rfl
@[simp] theorem State.appendCode_sel (s : State) (b : Byte) : (s.appendCode b).sel = s.sel := rfl
@[simp] theorem State.appendCode_parked (s : State) (b : Byte) : (s.appendCode b).parked = s.parked := rfl
@[simp] theorem State.appendCode_nextHandle (s : State) (b : Byte) : (s.appendCode b).nextHandle = s.nextHandle := rfl
@[simp] theorem State.appendCode_inBuf (s : State) (b : Byte) : (s.appendCode b).inBuf = s.inBuf := rfl
@[simp] theorem State.appendCode_out (s : State) (b : Byte) : (s.appendCode b).out = s.out := rfl
@[simp] theorem State.appendCode_outCap (s : State) (b : Byte) : (s.appendCode b).outCap = s.outCap := rfl
@[simp] theorem State.appendCode_requests (s : State) (b : Byte) : (s.appendCode b).requests = s.requests := rfl
@[simp] theorem State.appendCode_reply (s : State) (b : Byte) : (s.appendCode b).reply = s.reply := rfl
@[simp] theorem State.appendCode_draws (s : State) (b : Byte) : (s.appendCode b).draws = s.draws := rfl

/-! ### `State.setSlotFlag` -/

@[simp] theorem State.setSlotFlag_cfg (s : State) : (s.setSlotFlag).cfg = s.cfg := rfl
@[simp] theorem State.setSlotFlag_mode (s : State) : (s.setSlotFlag).mode = s.mode := rfl
@[simp] theorem State.setSlotFlag_status (s : State) : (s.setSlotFlag).status = s.status := rfl
@[simp] theorem State.setSlotFlag_bytesWritten (s : State) : (s.setSlotFlag).bytesWritten = s.bytesWritten := rfl
@[simp] theorem State.setSlotFlag_win (s : State) : (s.setSlotFlag).win = s.win := rfl
@[simp] theorem State.setSlotFlag_dec (s : State) : (s.setSlotFlag).dec = s.dec := rfl
@[simp] theorem State.setSlotFlag_enc_ip (s : State) : (s.setSlotFlag).enc.ip = s.enc.ip := rfl
@[simp] theorem State.setSlotFlag_enc_r (s : State) : (s.setSlotFlag).enc.r = s.enc.r := rfl
@[simp] theorem State.setSlotFlag_enc_s (s : State) : (s.setSlotFlag).enc.s = s.enc.s := rfl
@[simp] theorem State.setSlotFlag_enc_len (s : State) : (s.setSlotFlag).enc.len = s.enc.len := rfl
@[simp] theorem State.setSlotFlag_enc_lastMatchLength (s : State) :
    (s.setSlotFlag).enc.lastMatchLength = s.enc.lastMatchLength := rfl
@[simp] theorem State.setSlotFlag_enc_i (s : State) : (s.setSlotFlag).enc.i = s.enc.i := rfl
@[simp] theorem State.setSlotFlag_enc_slot (s : State) : (s.setSlotFlag).enc.slot = s.enc.slot := rfl
@[simp] theorem State.setSlotFlag_enc_codeLen (s : State) : (s.setSlotFlag).enc.codeLen = s.enc.codeLen := rfl
@[simp] theorem State.setSlotFlag_enc_outCount (s : State) : (s.setSlotFlag).enc.outCount = s.enc.outCount := rfl
@[simp] theorem State.setSlotFlag_enc_codeBuf (s : State) :
    (s.setSlotFlag).enc.codeBuf = s.enc.codeBuf.write 0 (s.enc.codeBuf.read 0 ||| flagBit s.cfg.controlBitOrder s.enc.slot.toNat) := rfl
@[simp] theorem State.setSlotFlag_mf (s : State) : (s.setSlotFlag).mf = s.mf := rfl
@[simp] theorem State.setSlotFlag_sel (s : State) : (s.setSlotFlag).sel = s.sel := rfl
@[simp] theorem State.setSlotFlag_parked (s : State) : (s.setSlotFlag).parked = s.parked := rfl
@[simp] theorem State.setSlotFlag_nextHandle (s : State) : (s.setSlotFlag).nextHandle = s.nextHandle := rfl
@[simp] theorem State.setSlotFlag_inBuf (s : State) : (s.setSlotFlag).inBuf = s.inBuf := rfl
@[simp] theorem State.setSlotFlag_out (s : State) : (s.setSlotFlag).out = s.out := rfl
@[simp] theorem State.setSlotFlag_outCap (s : State) : (s.setSlotFlag).outCap = s.outCap := rfl
@[simp] theorem State.setSlotFlag_requests (s : State) : (s.setSlotFlag).requests = s.requests := rfl
@[simp] theorem State.setSlotFlag_reply (s : State) : (s.setSlotFlag).reply = s.reply := rfl
@[simp] theorem State.setSlotFlag_draws (s : State) : (s.setSlotFlag).draws = s.draws := rfl

/-! ### `State.codewordDone` -/

@[simp] theorem State.codewordDone_cfg (s : State) (n : Nat) : (s.codewordDone n).cfg = s.cfg := rfl
@[simp] theorem State.codewordDone_mode (s : State) (n : Nat) : (s.codewordDone n).mode = s.mode := rfl
@[simp] theorem State.codewordDone_status (s : State) (n : Nat) : (s.codewordDone n).status = s.status := rfl
@[simp] theorem State.codewordDone_bytesWritten (s : State) (n : Nat) :
    (s.codewordDone n).bytesWritten = s.bytesWritten := rfl
@[simp] theorem State.codewordDone_win (s : State) (n : Nat) : (s.codewordDone n).win = s.win := rfl
@[simp] theorem State.codewordDone_dec (s : State) (n : Nat) : (s.codewordDone n).dec = s.dec := rfl
@[simp] theorem State.codewordDone_enc_ip (s : State) (n : Nat) : (s.codewordDone n).enc.ip = s.enc.ip := rfl
@[simp] theorem State.codewordDone_enc_r (s : State) (n : Nat) : (s.codewordDone n).enc.r = s.enc.r := rfl
@[simp] theorem State.codewordDone_enc_s (s : State) (n : Nat) : (s.codewordDone n).enc.s = s.enc.s := rfl
@[simp] theorem State.codewordDone_enc_len (s : State) (n : Nat) : (s.codewordDone n).enc.len = s.enc.len := rfl
@[simp] theorem State.codewordDone_enc_lastMatchLength (s : State) (n : Nat) :
    (s.codewordDone n).enc.lastMatchLength = BitVec.ofNat 5 n := rfl
@[simp] theorem State.codewordDone_enc_i (s : State) (n : Nat) : (s.codewordDone n).enc.i = s.enc.i := rfl
@[simp] theorem State.codewordDone_enc_slot (s : State) (n : Nat) :
    (s.codewordDone n).enc.slot = s.enc.slot + 1 := rfl
@[simp] theorem State.codewordDone_enc_codeLen (s : State) (n : Nat) :
    (s.codewordDone n).enc.codeLen = s.enc.codeLen := rfl
@[simp] theorem State.codewordDone_enc_outCount (s : State) (n : Nat) :
    (s.codewordDone n).enc.outCount = s.enc.outCount := rfl
@[simp] theorem State.codewordDone_enc_codeBuf (s : State) (n : Nat) :
    (s.codewordDone n).enc.codeBuf = s.enc.codeBuf := rfl
@[simp] theorem State.codewordDone_mf (s : State) (n : Nat) : (s.codewordDone n).mf = s.mf := rfl
@[simp] theorem State.codewordDone_sel (s : State) (n : Nat) : (s.codewordDone n).sel = s.sel := rfl
@[simp] theorem State.codewordDone_parked (s : State) (n : Nat) : (s.codewordDone n).parked = s.parked := rfl
@[simp] theorem State.codewordDone_nextHandle (s : State) (n : Nat) :
    (s.codewordDone n).nextHandle = s.nextHandle := rfl
@[simp] theorem State.codewordDone_inBuf (s : State) (n : Nat) : (s.codewordDone n).inBuf = s.inBuf := rfl
@[simp] theorem State.codewordDone_out (s : State) (n : Nat) : (s.codewordDone n).out = s.out := rfl
@[simp] theorem State.codewordDone_outCap (s : State) (n : Nat) : (s.codewordDone n).outCap = s.outCap := rfl
@[simp] theorem State.codewordDone_requests (s : State) (n : Nat) : (s.codewordDone n).requests = s.requests := rfl
@[simp] theorem State.codewordDone_reply (s : State) (n : Nat) : (s.codewordDone n).reply = s.reply := rfl
@[simp] theorem State.codewordDone_draws (s : State) (n : Nat) : (s.codewordDone n).draws = s.draws := rfl

/-! ### `State.emitByte` -/

@[simp] theorem State.emitByte_cfg (s : State) (b : Byte) : (s.emitByte b).cfg = s.cfg := rfl
@[simp] theorem State.emitByte_mode (s : State) (b : Byte) : (s.emitByte b).mode = s.mode := rfl
@[simp] theorem State.emitByte_status (s : State) (b : Byte) : (s.emitByte b).status = s.status := rfl
@[simp] theorem State.emitByte_bytesWritten (s : State) (b : Byte) :
    (s.emitByte b).bytesWritten = s.bytesWritten := rfl
@[simp] theorem State.emitByte_win (s : State) (b : Byte) : (s.emitByte b).win = s.win := rfl
@[simp] theorem State.emitByte_dec (s : State) (b : Byte) : (s.emitByte b).dec = s.dec := rfl
@[simp] theorem State.emitByte_enc_ip (s : State) (b : Byte) : (s.emitByte b).enc.ip = s.enc.ip := rfl
@[simp] theorem State.emitByte_enc_r (s : State) (b : Byte) : (s.emitByte b).enc.r = s.enc.r := rfl
@[simp] theorem State.emitByte_enc_s (s : State) (b : Byte) : (s.emitByte b).enc.s = s.enc.s := rfl
@[simp] theorem State.emitByte_enc_len (s : State) (b : Byte) : (s.emitByte b).enc.len = s.enc.len := rfl
@[simp] theorem State.emitByte_enc_lastMatchLength (s : State) (b : Byte) :
    (s.emitByte b).enc.lastMatchLength = s.enc.lastMatchLength := rfl
@[simp] theorem State.emitByte_enc_i (s : State) (b : Byte) : (s.emitByte b).enc.i = s.enc.i := rfl
@[simp] theorem State.emitByte_enc_slot (s : State) (b : Byte) : (s.emitByte b).enc.slot = s.enc.slot := rfl
@[simp] theorem State.emitByte_enc_codeLen (s : State) (b : Byte) : (s.emitByte b).enc.codeLen = s.enc.codeLen := rfl
@[simp] theorem State.emitByte_enc_outCount (s : State) (b : Byte) :
    (s.emitByte b).enc.outCount = s.enc.outCount + 1 := rfl
@[simp] theorem State.emitByte_enc_codeBuf (s : State) (b : Byte) : (s.emitByte b).enc.codeBuf = s.enc.codeBuf := rfl
@[simp] theorem State.emitByte_mf (s : State) (b : Byte) : (s.emitByte b).mf = s.mf := rfl
@[simp] theorem State.emitByte_sel (s : State) (b : Byte) : (s.emitByte b).sel = s.sel := rfl
@[simp] theorem State.emitByte_parked (s : State) (b : Byte) : (s.emitByte b).parked = s.parked := rfl
@[simp] theorem State.emitByte_nextHandle (s : State) (b : Byte) : (s.emitByte b).nextHandle = s.nextHandle := rfl
@[simp] theorem State.emitByte_inBuf (s : State) (b : Byte) : (s.emitByte b).inBuf = s.inBuf := rfl
@[simp] theorem State.emitByte_out (s : State) (b : Byte) : (s.emitByte b).out = s.out.write s.enc.outCount b := rfl
@[simp] theorem State.emitByte_outCap (s : State) (b : Byte) : (s.emitByte b).outCap = s.outCap := rfl
@[simp] theorem State.emitByte_requests (s : State) (b : Byte) : (s.emitByte b).requests = s.requests := rfl
@[simp] theorem State.emitByte_reply (s : State) (b : Byte) : (s.emitByte b).reply = s.reply := rfl
@[simp] theorem State.emitByte_draws (s : State) (b : Byte) : (s.emitByte b).draws = s.draws := rfl

/-! ### `State.clearCode` -/

@[simp] theorem State.clearCode_cfg (s : State) : (s.clearCode).cfg = s.cfg := rfl
@[simp] theorem State.clearCode_mode (s : State) : (s.clearCode).mode = s.mode := rfl
@[simp] theorem State.clearCode_status (s : State) : (s.clearCode).status = s.status := rfl
@[simp] theorem State.clearCode_bytesWritten (s : State) : (s.clearCode).bytesWritten = s.bytesWritten := rfl
@[simp] theorem State.clearCode_win (s : State) : (s.clearCode).win = s.win := rfl
@[simp] theorem State.clearCode_dec (s : State) : (s.clearCode).dec = s.dec := rfl
@[simp] theorem State.clearCode_enc_ip (s : State) : (s.clearCode).enc.ip = s.enc.ip := rfl
@[simp] theorem State.clearCode_enc_r (s : State) : (s.clearCode).enc.r = s.enc.r := rfl
@[simp] theorem State.clearCode_enc_s (s : State) : (s.clearCode).enc.s = s.enc.s := rfl
@[simp] theorem State.clearCode_enc_len (s : State) : (s.clearCode).enc.len = s.enc.len := rfl
@[simp] theorem State.clearCode_enc_lastMatchLength (s : State) :
    (s.clearCode).enc.lastMatchLength = s.enc.lastMatchLength := rfl
@[simp] theorem State.clearCode_enc_i (s : State) : (s.clearCode).enc.i = s.enc.i := rfl
@[simp] theorem State.clearCode_enc_slot (s : State) : (s.clearCode).enc.slot = 0 := rfl
@[simp] theorem State.clearCode_enc_codeLen (s : State) : (s.clearCode).enc.codeLen = 1 := rfl
@[simp] theorem State.clearCode_enc_outCount (s : State) : (s.clearCode).enc.outCount = s.enc.outCount := rfl
@[simp] theorem State.clearCode_enc_codeBuf (s : State) : (s.clearCode).enc.codeBuf = s.enc.codeBuf.write 0 0 := rfl
@[simp] theorem State.clearCode_mf (s : State) : (s.clearCode).mf = s.mf := rfl
@[simp] theorem State.clearCode_sel (s : State) : (s.clearCode).sel = s.sel := rfl
@[simp] theorem State.clearCode_parked (s : State) : (s.clearCode).parked = s.parked := rfl
@[simp] theorem State.clearCode_nextHandle (s : State) : (s.clearCode).nextHandle = s.nextHandle := rfl
@[simp] theorem State.clearCode_inBuf (s : State) : (s.clearCode).inBuf = s.inBuf := rfl
@[simp] theorem State.clearCode_out (s : State) : (s.clearCode).out = s.out := rfl
@[simp] theorem State.clearCode_outCap (s : State) : (s.clearCode).outCap = s.outCap := rfl
@[simp] theorem State.clearCode_requests (s : State) : (s.clearCode).requests = s.requests := rfl
@[simp] theorem State.clearCode_reply (s : State) : (s.clearCode).reply = s.reply := rfl
@[simp] theorem State.clearCode_draws (s : State) : (s.clearCode).draws = s.draws := rfl

/-! ### `State.load` -/

@[simp] theorem State.load_cfg (s : State) : (s.load).cfg = s.cfg := rfl
@[simp] theorem State.load_mode (s : State) : (s.load).mode = s.mode := rfl
@[simp] theorem State.load_status (s : State) : (s.load).status = s.status := rfl
@[simp] theorem State.load_bytesWritten (s : State) : (s.load).bytesWritten = s.bytesWritten := rfl
@[simp] theorem State.load_win (s : State) : (s.load).win = loadBytes s.win s.enc.r (s.inBuf.take Config.F) := rfl
@[simp] theorem State.load_dec (s : State) : (s.load).dec = s.dec := rfl
@[simp] theorem State.load_enc_ip (s : State) : (s.load).enc.ip = (s.inBuf.take Config.F).length := rfl
@[simp] theorem State.load_enc_r (s : State) : (s.load).enc.r = s.enc.r := rfl
@[simp] theorem State.load_enc_s (s : State) : (s.load).enc.s = s.enc.s := rfl
@[simp] theorem State.load_enc_len (s : State) :
    (s.load).enc.len = BitVec.ofNat 5 (s.inBuf.take Config.F).length := rfl
@[simp] theorem State.load_enc_lastMatchLength (s : State) :
    (s.load).enc.lastMatchLength = s.enc.lastMatchLength := rfl
@[simp] theorem State.load_enc_i (s : State) : (s.load).enc.i = s.enc.i := rfl
@[simp] theorem State.load_enc_slot (s : State) : (s.load).enc.slot = s.enc.slot := rfl
@[simp] theorem State.load_enc_codeLen (s : State) : (s.load).enc.codeLen = s.enc.codeLen := rfl
@[simp] theorem State.load_enc_outCount (s : State) : (s.load).enc.outCount = s.enc.outCount := rfl
@[simp] theorem State.load_enc_codeBuf (s : State) : (s.load).enc.codeBuf = s.enc.codeBuf := rfl
@[simp] theorem State.load_mf (s : State) : (s.load).mf = s.mf := rfl
@[simp] theorem State.load_sel (s : State) : (s.load).sel = s.sel := rfl
@[simp] theorem State.load_parked (s : State) : (s.load).parked = s.parked := rfl
@[simp] theorem State.load_nextHandle (s : State) : (s.load).nextHandle = s.nextHandle := rfl
@[simp] theorem State.load_inBuf (s : State) : (s.load).inBuf = s.inBuf := rfl
@[simp] theorem State.load_out (s : State) : (s.load).out = s.out := rfl
@[simp] theorem State.load_outCap (s : State) : (s.load).outCap = s.outCap := rfl
@[simp] theorem State.load_requests (s : State) : (s.load).requests = s.requests := rfl
@[simp] theorem State.load_reply (s : State) : (s.load).reply = s.reply := rfl
@[simp] theorem State.load_draws (s : State) : (s.load).draws = s.draws := rfl

/-! ### `State.callStart` -/

@[simp] theorem State.callStart_cfg (s : State) (m : Mode) (input output : List Byte) :
    (s.callStart m input output).cfg = s.cfg := rfl
@[simp] theorem State.callStart_mode (s : State) (m : Mode) (input output : List Byte) :
    (s.callStart m input output).mode = m := rfl
@[simp] theorem State.callStart_status (s : State) (m : Mode) (input output : List Byte) :
    (s.callStart m input output).status = Config.freeStatus s.draws := rfl
@[simp] theorem State.callStart_bytesWritten (s : State) (m : Mode) (input output : List Byte) :
    (s.callStart m input output).bytesWritten = (Config.freeBytesWritten s.draws).toNat := rfl
@[simp] theorem State.callStart_win (s : State) (m : Mode) (input output : List Byte) :
    (s.callStart m input output).win = { base := prefillBase s.cfg s.draws, cells := [] } := rfl
@[simp] theorem State.callStart_dec (s : State) (m : Mode) (input output : List Byte) :
    (s.callStart m input output).dec = s.dec := rfl
@[simp] theorem State.callStart_enc (s : State) (m : Mode) (input output : List Byte) :
    (s.callStart m input output).enc = s.enc := rfl
@[simp] theorem State.callStart_mf (s : State) (m : Mode) (input output : List Byte) :
    (s.callStart m input output).mf = s.mf := rfl
@[simp] theorem State.callStart_sel (s : State) (m : Mode) (input output : List Byte) :
    (s.callStart m input output).sel = s.sel := rfl
@[simp] theorem State.callStart_parked (s : State) (m : Mode) (input output : List Byte) :
    (s.callStart m input output).parked = s.parked := rfl
@[simp] theorem State.callStart_nextHandle (s : State) (m : Mode) (input output : List Byte) :
    (s.callStart m input output).nextHandle = s.nextHandle := rfl
@[simp] theorem State.callStart_inBuf (s : State) (m : Mode) (input output : List Byte) :
    (s.callStart m input output).inBuf = input := rfl
@[simp] theorem State.callStart_out (s : State) (m : Mode) (input output : List Byte) :
    (s.callStart m input output).out = { base := .caller output, cells := [] } := rfl
@[simp] theorem State.callStart_outCap (s : State) (m : Mode) (input output : List Byte) :
    (s.callStart m input output).outCap = output.length := rfl
@[simp] theorem State.callStart_requests (s : State) (m : Mode) (input output : List Byte) :
    (s.callStart m input output).requests = s.requests := rfl
@[simp] theorem State.callStart_reply (s : State) (m : Mode) (input output : List Byte) :
    (s.callStart m input output).reply = .nothing := rfl
@[simp] theorem State.callStart_draws (s : State) (m : Mode) (input output : List Byte) :
    (s.callStart m input output).draws = s.draws + 1 := rfl

/-! ### `State.symbolDone` -/

@[simp] theorem State.symbolDone_cfg (s : State) : s.symbolDone.cfg = s.cfg := by
  unfold State.symbolDone; split <;> rfl
@[simp] theorem State.symbolDone_mode (s : State) : s.symbolDone.mode = s.mode := by
  unfold State.symbolDone; split <;> rfl
@[simp] theorem State.symbolDone_status (s : State) : s.symbolDone.status = s.status := by
  unfold State.symbolDone; split <;> rfl
@[simp] theorem State.symbolDone_bytesWritten (s : State) : s.symbolDone.bytesWritten = s.bytesWritten := by
  unfold State.symbolDone; split <;> rfl
@[simp] theorem State.symbolDone_win (s : State) : s.symbolDone.win = s.win := by
  unfold State.symbolDone; split <;> rfl
@[simp] theorem State.symbolDone_enc (s : State) : s.symbolDone.enc = s.enc := by
  unfold State.symbolDone; split <;> rfl
@[simp] theorem State.symbolDone_mf (s : State) : s.symbolDone.mf = s.mf := by
  unfold State.symbolDone; split <;> rfl
@[simp] theorem State.symbolDone_sel (s : State) : s.symbolDone.sel = s.sel := by
  unfold State.symbolDone; split <;> rfl
@[simp] theorem State.symbolDone_parked (s : State) : s.symbolDone.parked = s.parked := by
  unfold State.symbolDone; split <;> rfl
@[simp] theorem State.symbolDone_nextHandle (s : State) : s.symbolDone.nextHandle = s.nextHandle := by
  unfold State.symbolDone; split <;> rfl
@[simp] theorem State.symbolDone_inBuf (s : State) : s.symbolDone.inBuf = s.inBuf := by
  unfold State.symbolDone; split <;> rfl
@[simp] theorem State.symbolDone_out (s : State) : s.symbolDone.out = s.out := by
  unfold State.symbolDone; split <;> rfl
@[simp] theorem State.symbolDone_outCap (s : State) : s.symbolDone.outCap = s.outCap := by
  unfold State.symbolDone; split <;> rfl
@[simp] theorem State.symbolDone_requests (s : State) : s.symbolDone.requests = s.requests := by
  unfold State.symbolDone; split <;> rfl
@[simp] theorem State.symbolDone_reply (s : State) : s.symbolDone.reply = s.reply := by
  unfold State.symbolDone; split <;> rfl
@[simp] theorem State.symbolDone_draws (s : State) : s.symbolDone.draws = s.draws := by
  unfold State.symbolDone; split <;> rfl
@[simp] theorem State.symbolDone_dec_ip (s : State) : s.symbolDone.dec.ip = s.dec.ip := by
  unfold State.symbolDone; split <;> rfl
@[simp] theorem State.symbolDone_dec_op (s : State) : s.symbolDone.dec.op = s.dec.op := by
  unfold State.symbolDone; split <;> rfl
@[simp] theorem State.symbolDone_dec_cur (s : State) : s.symbolDone.dec.cur = s.dec.cur := by
  unfold State.symbolDone; split <;> rfl
@[simp] theorem State.symbolDone_dec_ctrl (s : State) : s.symbolDone.dec.ctrl = s.dec.ctrl := by
  unfold State.symbolDone; split <;> rfl
@[simp] theorem State.symbolDone_dec_bitsLeft (s : State) : s.symbolDone.dec.bitsLeft = s.dec.bitsLeft := by
  unfold State.symbolDone; split <;> rfl
@[simp] theorem State.symbolDone_dec_flag (s : State) : s.symbolDone.dec.flag = s.dec.flag := by
  unfold State.symbolDone; split <;> rfl
@[simp] theorem State.symbolDone_dec_ofs (s : State) : s.symbolDone.dec.ofs = s.dec.ofs := by
  unfold State.symbolDone; split <;> rfl
@[simp] theorem State.symbolDone_dec_lenField (s : State) : s.symbolDone.dec.lenField = s.dec.lenField := by
  unfold State.symbolDone; split <;> rfl
@[simp] theorem State.symbolDone_dec_remaining (s : State) : s.symbolDone.dec.remaining = s.dec.remaining := by
  unfold State.symbolDone; split <;> rfl

end Sys2Proof.Machine
end

