-- ==== Sys2Proof/Laws/Ops.lean ====
section
/-! SUPPORT. One lemma per shared operation of the decoder that says everything it can do: the copy, the symbols. -/

namespace Sys2Proof.Machine

/-! ### The copy (43_decoder.md R188) -/

/-- Whatever a copy does, it touches `OUT`, `WIN`, the decoder's registers, and the result registers and `MODE` alone; among the
decoder's registers only `op`, `cur`, `remaining`. -/
theorem State.copy_frame (n : Nat) (s : State) :
    ∃ (out win : Memory) (op : Nat) (cur : WinPos) (rem : BitVec 5) (st : Status) (bw : Nat) (md : Mode),
      s.copy n = { s with
        out := out, win := win, status := st, bytesWritten := bw, mode := md
        dec := { s.dec with op := op, cur := cur, remaining := rem } } := by
  induction n generalizing s with
  | zero => exact ⟨_, _, _, _, _, _, _, _, rfl⟩
  | succ n ih =>
    unfold State.copy
    split
    · obtain ⟨a, b, c, d, e, f, g, h, ih⟩ := ih s.copyByte
      exact ⟨a, b, c, d, e, f, g, h, ih⟩
    · exact ⟨_, _, _, _, _, _, _, _, rfl⟩

/-- A copy that fits is a copy byte by byte to the end. -/
theorem State.copy_succ_of_fits {n : Nat} {s : State} (h : s.dec.op + (n + 1) ≤ s.outCap) :
    s.copy (n + 1) = s.copyByte.copy n := by
  rw [State.copy, if_pos (by omega)]

/-- The last byte of a copy that fits, taken apart from the others. -/
theorem State.copy_last {n : Nat} {s : State} (h : s.dec.op + (n + 1) ≤ s.outCap) :
    s.copy (n + 1) = (s.copy n).copyByte := by
  induction n generalizing s with
  | zero => rw [State.copy_succ_of_fits h]; rfl
  | succ n ih =>
    rw [State.copy_succ_of_fits h, ih (s := s.copyByte) (by simp; omega),
      ← State.copy_succ_of_fits (n := n) (by omega)]

/-- The fields of a copy that fits. -/
theorem State.copy_fields {n : Nat} {s : State} (h : s.dec.op + n ≤ s.outCap) :
    s.copy n = { s with
      out := (s.copy n).out
      win := (s.copy n).win
      dec := { s.dec with
        op := s.dec.op + n
        cur := s.dec.cur + BitVec.ofNat 12 n
        remaining := s.dec.remaining - BitVec.ofNat 5 n } } := by
  induction n with
  | zero => simp [State.copy]
  | succ n ih =>
    have hn := ih (by omega)
    have e1 : s.dec.cur + BitVec.ofNat 12 (n + 1) = s.dec.cur + BitVec.ofNat 12 n + 1 := by
      rw [BitVec.add_assoc]; congr 1; simp [BitVec.ofNat_add]
    have e2 : s.dec.remaining - BitVec.ofNat 5 (n + 1) = s.dec.remaining - BitVec.ofNat 5 n - 1 := by
      rw [BitVec.ofNat_add]; simp [BitVec.sub_eq_add_neg, BitVec.add_assoc]
      exact BitVec.add_comm _ _
    rw [State.copy_last h]
    generalize s.copy n = t at hn ⊢
    unfold State.copyByte State.produce
    rw [e1, e2, hn]
    simp [Nat.add_assoc]

theorem State.copy_cur {n : Nat} {s : State} (h : s.dec.op + n ≤ s.outCap) :
    (s.copy n).dec.cur = s.dec.cur + BitVec.ofNat 12 n := by rw [State.copy_fields h]

theorem State.copy_op {n : Nat} {s : State} (h : s.dec.op + n ≤ s.outCap) : (s.copy n).dec.op = s.dec.op + n := by
  rw [State.copy_fields h]

theorem State.copy_ofs {n : Nat} {s : State} (h : s.dec.op + n ≤ s.outCap) : (s.copy n).dec.ofs = s.dec.ofs := by
  rw [State.copy_fields h]

/-- `OUT` outside the bytes of a copy that fits. -/
theorem State.copy_out_frame {n : Nat} {s : State} (h : s.dec.op + n ≤ s.outCap) {a : Nat}
    (ha : a < s.dec.op ∨ s.dec.op + n ≤ a) : (s.copy n).out.read a = s.out.read a := by
  induction n with
  | zero => rfl
  | succ n ih =>
    rw [State.copy_last h, State.copyByte_out, Memory.read_write, State.copy_op (by omega), if_neg (by omega)]
    exact ih (by omega) (by omega)

/-- `WIN` outside the positions of a copy that fits. -/
theorem State.copy_win_frame {n : Nat} {s : State} (h : s.dec.op + n ≤ s.outCap) {p : WinPos}
    (hp : ∀ j, j < n → p ≠ s.dec.cur + BitVec.ofNat 12 j) : (s.copy n).win.byteT p = s.win.byteT p := by
  induction n with
  | zero => rfl
  | succ n ih =>
    rw [State.copy_last h, State.copyByte_win, Memory.byteT_write, State.copy_cur (by omega),
      if_neg (hp n (by omega))]
    exact ih (by omega) (fun j hj => hp j (by omega))

/-- Byte `j` of a copy that fits goes to `OUT[op + j]` and `WIN[cur + j]`. -/
theorem State.copy_win_eq_out {n : Nat} {s : State} (h : s.dec.op + n ≤ s.outCap) (hn : n ≤ 4096) {j : Nat} (hj : j < n) :
    (s.copy n).win.byteT (s.dec.cur + BitVec.ofNat 12 j) = (s.copy n).out.read (s.dec.op + j) := by
  induction n with
  | zero => omega
  | succ n ih =>
    rw [State.copy_last h, State.copyByte_win, State.copyByte_out, Memory.byteT_write, Memory.read_write,
      State.copy_cur (by omega), State.copy_op (by omega)]
    by_cases hjn : j = n
    · subst hjn; simp
    · have h1 : s.dec.cur + BitVec.ofNat 12 j ≠ s.dec.cur + BitVec.ofNat 12 n := by
        intro e
        have := congrArg BitVec.toNat ((BitVec.add_right_inj _).1 e)
        simp [BitVec.toNat_ofNat] at this; omega
      rw [if_neg h1, if_neg (by omega)]
      exact ih (by omega) (by omega) (by omega)

/-- Where byte `j` of a copy that fits comes from: `dist` bytes back, in the window as it was before the copy while `j < dist`,
among the copy's own bytes from then on (R71). -/
theorem State.copy_source {n : Nat} {s : State} (h : s.dec.op + n ≤ s.outCap) (hn : n ≤ 4096) {j : Nat} (hj : j < n) :
    (s.copy n).out.read (s.dec.op + j)
      = if j < distance s.dec.ofs then s.win.byteT (s.dec.cur + BitVec.ofNat 12 j - s.dec.ofs)
        else (s.copy n).out.read (s.dec.op + (j - distance s.dec.ofs)) := by
  have hd : 1 ≤ distance s.dec.ofs ∧ distance s.dec.ofs ≤ 4096 := by
    unfold distance
    split
    · simp
    · next h0 =>
      have := s.dec.ofs.isLt
      have : s.dec.ofs.toNat ≠ 0 := fun e => h0 (BitVec.eq_of_toNat_eq (by simpa using e))
      omega
  have hsub : ∀ x : WinPos, x - s.dec.ofs = x - BitVec.ofNat 12 (distance s.dec.ofs) := by
    intro x
    unfold distance
    split
    · next h0 => rw [h0]; rfl
    · simp
  induction n with
  | zero => omega
  | succ n ih =>
    rw [State.copy_last h, State.copyByte_out]
    simp only [Memory.read_write, State.copy_op (show s.dec.op + n ≤ s.outCap by omega),
      State.copy_cur (show s.dec.op + n ≤ s.outCap by omega), State.copy_ofs (show s.dec.op + n ≤ s.outCap by omega)]
    by_cases hjn : j = n
    · subst hjn
      rw [if_pos rfl]
      unfold sourcePos
      split
      · next hjd =>
        refine State.copy_win_frame (by omega) (fun i hi e => ?_)
        rw [hsub] at e
        have e := congrArg BitVec.toNat e
        have := s.dec.cur.isLt
        simp [BitVec.toNat_sub, BitVec.toNat_add, BitVec.toNat_ofNat] at e
        omega
      · next hjd =>
        rw [if_neg (by omega)]
        have e : s.dec.cur + BitVec.ofNat 12 j - s.dec.ofs
            = s.dec.cur + BitVec.ofNat 12 (j - distance s.dec.ofs) := by
          rw [hsub]
          apply BitVec.eq_of_toNat_eq
          have := s.dec.cur.isLt
          simp [BitVec.toNat_sub, BitVec.toNat_add, BitVec.toNat_ofNat]
          omega
        rw [e]
        exact State.copy_win_eq_out (by omega) (by omega) (by omega)
    · rw [if_neg (by omega), ih (by omega) (by omega) (by omega)]
      split
      · rfl
      · rw [if_neg (by omega)]

/-- A copy that does not fit: what fits of it, then `OutputExhausted` (R188, R227). -/
theorem State.copy_exhausted {n : Nat} {s : State} (h0 : s.dec.op ≤ s.outCap) (h : s.outCap < s.dec.op + n) :
    s.copy n = (s.copy (s.outCap - s.dec.op)).finish .outputExhausted := by
  induction n generalizing s with
  | zero => omega
  | succ n ih =>
    rw [State.copy]
    split
    · next hlt =>
      rw [ih (s := s.copyByte) (by simp; omega) (by simp; omega)]
      obtain ⟨k, hk⟩ : ∃ k, s.outCap - s.dec.op = k + 1 := ⟨s.outCap - s.dec.op - 1, by omega⟩
      rw [hk]
      have : s.copyByte.outCap - s.copyByte.dec.op = k := by simp; omega
      rw [this, State.copy_succ_of_fits (by omega)]
    · next hge =>
      have : s.outCap - s.dec.op = 0 := by omega
      rw [this]
      rfl

/-- Producing a byte with room for it keeps `OUT` and `WIN` in canonical form. -/
theorem State.produce_wf {b : Byte} {s : State} (h : s.dec.op < s.outCap) (ho : s.out.wf s.outCap) (hw : s.win.wf 4096) :
    (s.produce b).out.wf s.outCap ∧ (s.produce b).win.wf 4096 :=
  ⟨Memory.wf_write b h ho, Memory.wf_write_pos s.dec.cur b hw⟩

/-- A copy keeps `OUT` and `WIN` in canonical form. -/
theorem State.copy_wf {n : Nat} {s : State} (ho : s.out.wf s.outCap) (hw : s.win.wf 4096) :
    (s.copy n).out.wf s.outCap ∧ (s.copy n).win.wf 4096 := by
  induction n generalizing s with
  | zero => exact ⟨ho, hw⟩
  | succ n ih =>
    rw [State.copy]
    split
    · next h =>
      have := State.produce_wf (b := s.win.byteT (sourcePos s.dec.cur s.dec.ofs)) h ho hw
      exact ih (s := s.copyByte) this.1 this.2
    · exact ⟨ho, hw⟩

/-! ### The symbols -/

/-- The reference constructors share one meaning (R185 to R188). -/
theorem exec_ref (layout : Layout) (endian : Endian) (ofs : WinPos) (len : LenField) (s : State) :
    exec (Instr.ref layout endian ofs len) s = .next (s.reference ofs len) := by
  cases layout <;> cases endian <;> rfl

/-- A reference is BOUNDS, then COPY. -/
theorem State.reference_eq (ofs : WinPos) (len : LenField) (s : State) :
    s.reference ofs len =
      if s.cfg.prefillMode = .none ∧ s.dec.op < distance ofs then
        (((s.loadRef ofs len).setRemaining (copyLength len)).finish .badBackReference)
      else ((s.loadRef ofs len).setRemaining (copyLength len)).copy (copyLength len) := by
  unfold State.reference State.outOfBounds
  by_cases h1 : s.cfg.prefillMode = .none <;> by_cases h2 : s.dec.op < distance ofs <;> simp [h1, h2]

/-- What the decoder can read at its place: with the selector it gives, only these symbols (R101). -/
theorem decode_symbol {cfg : Configuration} {sel : Selector} {bytes rest : List Byte} {i : Instr}
    (h : decode cfg sel bytes = .symbol i rest) :
    (∃ f, sel = .control ∧ i = .ctrl f ∧ bytes = f :: rest)
    ∨ (∃ b, sel = .literal ∧ i = .lit b ∧ bytes = b :: rest)
    ∨ (∃ first second, sel = .reference ∧ bytes = first :: second :: rest
        ∧ i = referenceSymbol cfg (unpackOfs cfg.matchFieldLayout (matchWord cfg.matchFieldEndianness first second))
            (unpackLen cfg.matchFieldLayout (matchWord cfg.matchFieldEndianness first second))) := by
  unfold decode at h
  split at h
  · injection h with h1 h2; exact .inl ⟨_, rfl, h1.symm, by rw [h2]⟩
  · injection h with h1 h2; exact .inr (.inl ⟨_, rfl, h1.symm, by rw [h2]⟩)
  · injection h with h1 h2; exact .inr (.inr ⟨_, _, rfl, by rw [h2], h1.symm⟩)
  · cases h

end Sys2Proof.Machine
end

