-- ==== Sys2Proof/Laws/Decoder.lean ====
section
/-! SUPPORT. Everything a step of a running DECODE can do: where its turn ends, or the state it processes its symbol in, and what
processing a symbol does. -/

namespace Sys2Proof.Machine

/-- Where the bytes decode to a symbol, running it is its meaning. -/
theorem State.runSymbol_of_decode {sel : Selector} {next : State → Host.Outcome State Fault Refusal} {s t : State} {i : Instr}
    {rest : List Byte} (hd : decode s.cfg sel (s.inBuf.drop s.dec.ip) = .symbol i rest) (he : exec i s = .next t) :
    s.runSymbol sel next = next t := by
  simp only [State.runSymbol, State.fetchSymbol, hd, he]

/-- Where the bytes end inside the symbol, the call ends (R189). -/
theorem State.runSymbol_of_rejected {sel : Selector} {next : State → Host.Outcome State Fault Refusal} {s : State}
    (hd : decode s.cfg sel (s.inBuf.drop s.dec.ip) = .rejected .truncated) :
    s.runSymbol sel next = .next (s.finish .truncatedInput) := by
  simp only [State.runSymbol, State.fetchSymbol, hd]

/-- A control byte's run (R183). -/
theorem State.runSymbol_control {next : State → Host.Outcome State Fault Refusal} {s : State} {f : Byte} {rest : List Byte}
    (h : s.inBuf.drop s.dec.ip = f :: rest) : s.runSymbol .control next = next (s.loadCtrl f) :=
  State.runSymbol_of_decode (i := .ctrl f) (rest := rest) (by rw [h]; rfl) rfl

/-- Everything that processing a symbol can do: `TruncatedInput` (R189), a literal (R184), a reference (R186 to R188) or the
terminator (R185). -/
theorem State.processSymbol_cases (s : State) :
    (s.inBuf.length - s.dec.ip < (if s.dec.flag then 1 else 2) ∧ s.processSymbol = .next (s.finish .truncatedInput))
    ∨ (∃ b rest, s.dec.flag = true ∧ s.inBuf.drop s.dec.ip = b :: rest ∧ s.processSymbol = .next (s.literal b).symbolDone)
    ∨ (∃ first second rest, s.dec.flag = false ∧ s.inBuf.drop s.dec.ip = first :: second :: rest
        ∧ let w := matchWord s.cfg.matchFieldEndianness first second
          let ofs := unpackOfs s.cfg.matchFieldLayout w
          let len := unpackLen s.cfg.matchFieldLayout w
          ((ofs = 0 ∧ len = 0 ∧ s.cfg.eosMode = .nullref
              ∧ s.processSymbol = .next (((s.loadRef 0 0).finish .ok).symbolDone))
            ∨ (¬ (ofs = 0 ∧ len = 0 ∧ s.cfg.eosMode = .nullref) ∧ s.processSymbol = .next (s.reference ofs len).symbolDone))) := by
  have hlen : (s.inBuf.drop s.dec.ip).length = s.inBuf.length - s.dec.ip := List.length_drop
  cases hf : s.dec.flag with
  | true =>
    have hsel : s.symbolSelector = .literal := by simp [State.symbolSelector, hf, literalFlag]
    cases hb : s.inBuf.drop s.dec.ip with
    | nil =>
      rw [hb] at hlen
      refine .inl ⟨by simp at hlen ⊢; omega, ?_⟩
      rw [State.processSymbol, hsel]
      exact State.runSymbol_of_rejected (by rw [hb]; rfl)
    | cons b rest =>
      refine .inr (.inl ⟨b, rest, rfl, rfl, ?_⟩)
      rw [State.processSymbol, hsel]
      exact State.runSymbol_of_decode (i := .lit b) (rest := rest) (by rw [hb]; rfl) rfl
  | false =>
    have hsel : s.symbolSelector = .reference := by simp [State.symbolSelector, hf, literalFlag]
    match hb : s.inBuf.drop s.dec.ip with
    | [] =>
      rw [hb] at hlen
      refine .inl ⟨by simp at hlen ⊢; omega, ?_⟩
      rw [State.processSymbol, hsel]
      exact State.runSymbol_of_rejected (by rw [hb]; rfl)
    | [b] =>
      rw [hb] at hlen
      refine .inl ⟨by simp at hlen ⊢; omega, ?_⟩
      rw [State.processSymbol, hsel]
      exact State.runSymbol_of_rejected (by rw [hb]; rfl)
    | first :: second :: rest =>
      refine .inr (.inr ⟨first, second, rest, rfl, rfl, ?_⟩)
      intro w ofs len
      have hdec : decode s.cfg .reference (s.inBuf.drop s.dec.ip) = .symbol (referenceSymbol s.cfg ofs len) rest := by
        rw [hb]; rfl
      rw [State.processSymbol, hsel]
      by_cases h : ofs = 0 ∧ len = 0 ∧ s.cfg.eosMode = .nullref
      · refine .inl ⟨h.1, h.2.1, h.2.2, ?_⟩
        have he : referenceSymbol s.cfg ofs len = .eos := by simp [referenceSymbol, h.1, h.2.1, h.2.2]
        rw [he] at hdec
        exact State.runSymbol_of_decode hdec rfl
      · refine .inr ⟨h, ?_⟩
        have he : referenceSymbol s.cfg ofs len = Instr.ref s.cfg.matchFieldLayout s.cfg.matchFieldEndianness ofs len := by
          unfold referenceSymbol; rw [if_neg]; tauto
        rw [he] at hdec
        exact State.runSymbol_of_decode hdec (exec_ref _ _ _ _ _)

/-- Everything a step of a running DECODE can do: end at the end of input (R182), or process the symbol of the state it reaches. -/
theorem step_decoding_cases {s : State} (hm : s.mode = .decoding) :
    (s.dec.dstate = .readControlBit ∧ s.inBuf.length ≤ s.dec.ip ∧ step s = .next (s.finish .ok))
    ∨ ∃ u, s.reachesSymbol u ∧ step s = u.processSymbol := by
  have hs : step s = s.decodeStep := by simp only [step, hm]
  cases hd : s.dec.dstate with
  | processSymbol => exact .inr ⟨s, ⟨hm, .inr (.inr ⟨hd, rfl⟩)⟩, by rw [hs, State.decodeStep, hd]⟩
  | readControlBit =>
    have ht : step s = s.decodeTurn := by rw [hs, State.decodeStep, hd]
    by_cases he : s.inBuf.length ≤ s.dec.ip
    · exact .inl ⟨rfl, he, by rw [ht, State.decodeTurn, if_pos he]⟩
    · by_cases hb : s.dec.bitsLeft = 0
      · have hdrop := List.drop_eq_getElem_cons (Nat.lt_of_not_le he)
        refine .inr ⟨(s.loadCtrl s.inBuf[s.dec.ip]).takeFlag,
          ⟨hm, .inr (.inl ⟨_, hd, hb, List.getElem?_eq_getElem (Nat.lt_of_not_le he), rfl⟩)⟩, ?_⟩
        rw [ht, State.decodeTurn, if_neg he, if_pos hb, State.runSymbol_control hdrop]
      · exact .inr ⟨s.takeFlag, ⟨hm, .inl ⟨hd, by omega, hb, rfl⟩⟩, by rw [ht, State.decodeTurn, if_neg he, if_neg hb]⟩

/-- The state that a step reaches for its symbol is one: the step is its symbol. -/
theorem step_of_reachesSymbol {s u : State} (h : s.reachesSymbol u) : step s = u.processSymbol := by
  obtain ⟨hm, ⟨hd, hi, hb, rfl⟩ | ⟨f, hd, hb, hf, rfl⟩ | ⟨hd, rfl⟩⟩ := h
  · simp only [step, hm, State.decodeStep, hd, State.decodeTurn]
    rw [if_neg (by omega), if_neg hb]
  · obtain ⟨hi, rfl⟩ := List.getElem?_eq_some_iff.1 hf
    simp only [step, hm, State.decodeStep, hd, State.decodeTurn]
    rw [if_neg (by omega), if_pos hb, State.runSymbol_control (List.drop_eq_getElem_cons hi)]
  · simp only [step, hm, State.decodeStep, hd]

end Sys2Proof.Machine
end

