-- ==== Sys2Proof/Laws/MatchFinder.lean ====
section
/-! SUPPORT. What the match finder's operations do, once each, and that they keep the tree RAMs in canonical form. -/

namespace Sys2Proof.Machine

/-! ### Indices (R69) -/

@[simp] theorem nodeOf_toNat (p : WinPos) : (nodeOf p).toNat = p.toNat := by
  have := p.isLt
  simp [nodeOf]; omega

@[simp] theorem rootSlot_toNat (c : Byte) : (rootSlot c).toNat = 4097 + c.toNat := by
  have := c.isLt
  simp [rootSlot, BitVec.toNat_add]; omega

@[simp] theorem posOf_nodeOf (p : WinPos) : posOf (nodeOf p) = p := by
  simp [posOf, nodeOf]

/-! ### Reads and writes of one entry -/

theorem MatchFinder.left_eq {m : MatchFinder} {x : TreeIndex} (h : x.toNat ≤ 4096) :
    m.left x = some (ramRead m.lson x.toNat) := if_pos h

theorem MatchFinder.right_eq {m : MatchFinder} {x : TreeIndex} (h : x.toNat ≤ 4352) :
    m.right x = some (ramRead m.rson x.toNat) := if_pos h

theorem MatchFinder.parent_eq {m : MatchFinder} {x : TreeIndex} (h : x.toNat ≤ 4096) :
    m.parent x = some (ramRead m.dad x.toNat) := if_pos h

theorem MatchFinder.setLeft_eq {m : MatchFinder} {x v : TreeIndex} (h : x.toNat ≤ 4096) :
    m.setLeft x v = some { m with lson := ramWrite m.lson x.toNat v } := if_pos h

theorem MatchFinder.setRight_eq {m : MatchFinder} {x v : TreeIndex} (h : x.toNat ≤ 4352) :
    m.setRight x v = some { m with rson := ramWrite m.rson x.toNat v } := if_pos h

theorem MatchFinder.setParent_eq {m : MatchFinder} {x v : TreeIndex} (h : x.toNat ≤ 4096) :
    m.setParent x v = some { m with dad := ramWrite m.dad x.toNat v } := if_pos h

/-- A write of a left link that answers is one within the RAM, of that entry alone. -/
theorem MatchFinder.setLeft_some {m n : MatchFinder} {x v : TreeIndex} (h : m.setLeft x v = some n) :
    x.toNat ≤ 4096 ∧ n = { m with lson := ramWrite m.lson x.toNat v } := by
  unfold MatchFinder.setLeft at h
  split at h
  · next hx => exact ⟨hx, (Option.some.inj h).symm⟩
  · cases h

/-- A write of a right link that answers is one within the RAM, of that entry alone. -/
theorem MatchFinder.setRight_some {m n : MatchFinder} {x v : TreeIndex} (h : m.setRight x v = some n) :
    x.toNat ≤ 4352 ∧ n = { m with rson := ramWrite m.rson x.toNat v } := by
  unfold MatchFinder.setRight at h
  split at h
  · next hx => exact ⟨hx, (Option.some.inj h).symm⟩
  · cases h

/-- A write of a parent link that answers is one within the RAM, of that entry alone. -/
theorem MatchFinder.setParent_some {m n : MatchFinder} {x v : TreeIndex} (h : m.setParent x v = some n) :
    x.toNat ≤ 4096 ∧ n = { m with dad := ramWrite m.dad x.toNat v } := by
  unfold MatchFinder.setParent at h
  split at h
  · next hx => exact ⟨hx, (Option.some.inj h).symm⟩
  · cases h

/-- One step of INSERT's walk (R144). -/
theorem MatchFinder.walk_succ (win : Memory) (r : WinPos) (fuel : Nat) (cmp : Ordering) (p : TreeIndex) (m : MatchFinder) :
    m.walk win r (fuel + 1) cmp p =
      (if cmp = .lt then m.left p else m.right p).bind fun q =>
        if q = Config.NIL then
          (if cmp = .lt then m.setLeft p (nodeOf r) else m.setRight p (nodeOf r)).bind (·.setParent (nodeOf r) p)
        else if q.toNat < Config.N then
          if m.matchLength.toNat < (compareKeys win r (posOf q)).1 then
            if Config.F ≤ (compareKeys win r (posOf q)).1 then
              { m with
                matchPosition := posOf q
                matchLength := BitVec.ofNat 5 (compareKeys win r (posOf q)).1 : MatchFinder }.replace q (nodeOf r)
            else
              { m with
                matchPosition := posOf q
                matchLength := BitVec.ofNat 5 (compareKeys win r (posOf q)).1 : MatchFinder }.walk
                win r fuel (compareKeys win r (posOf q)).2 q
          else m.walk win r fuel (compareKeys win r (posOf q)).2 q
        else none := by
  rw [MatchFinder.walk]
  cases (if cmp = .lt then m.left p else m.right p) <;> rfl

/-- What INSERT does before its walk `W`: `r`'s children and the match length are cleared (R144). -/
theorem MatchFinder.insert_prelude (r : WinPos) (m : MatchFinder) (W : MatchFinder → Option MatchFinder) :
    ((m.setLeft (nodeOf r) Config.NIL).bind fun m => (m.setRight (nodeOf r) Config.NIL).bind fun m =>
        W { m with matchLength := 0 })
      = W { m with
          lson := ramWrite m.lson r.toNat Config.NIL
          rson := ramWrite m.rson r.toNat Config.NIL
          matchLength := 0 } := by
  have hr := r.isLt
  rw [MatchFinder.setLeft_eq (by rw [nodeOf_toNat]; omega), Option.bind_some,
    MatchFinder.setRight_eq (by rw [nodeOf_toNat]; omega), Option.bind_some, nodeOf_toNat]

/-- INSERT is its walk from the root slot, with `r`'s children and the match length cleared (R144). The fuel is a name here, so
that no proof unfolds it. -/
theorem MatchFinder.insert_eq (win : Memory) (r : WinPos) (m : MatchFinder) :
    ∃ fuel, fuel = 4096 ∧ m.insert win r =
      MatchFinder.walk win r (fuel + 1) .gt (rootSlot (win.byteT r))
        { m with
          lson := ramWrite m.lson r.toNat Config.NIL
          rson := ramWrite m.rson r.toNat Config.NIL
          matchLength := 0 } :=
  ⟨4096, rfl, MatchFinder.insert_prelude r m _⟩

/-! ### The canonical form is kept -/

theorem MatchFinder.setLeft_wf {m n : MatchFinder} {x v : TreeIndex} (h : m.setLeft x v = some n) (hm : m.wf) : n.wf := by
  obtain ⟨hx, rfl⟩ := MatchFinder.setLeft_some h
  exact ⟨ramWf_write v (by omega) hm.1, hm.2⟩

theorem MatchFinder.setRight_wf {m n : MatchFinder} {x v : TreeIndex} (h : m.setRight x v = some n) (hm : m.wf) : n.wf := by
  obtain ⟨hx, rfl⟩ := MatchFinder.setRight_some h
  exact ⟨hm.1, ramWf_write v (by omega) hm.2.1, hm.2.2⟩

theorem MatchFinder.setParent_wf {m n : MatchFinder} {x v : TreeIndex} (h : m.setParent x v = some n) (hm : m.wf) : n.wf := by
  obtain ⟨hx, rfl⟩ := MatchFinder.setParent_some h
  exact ⟨hm.1, hm.2.1, ramWf_write v (by omega) hm.2.2⟩

theorem MatchFinder.initTree_wf (m : MatchFinder) : m.initTree.wf :=
  ⟨ramWf_empty _, ramWf_empty _, ramWf_empty _⟩

theorem MatchFinder.relink_wf {m n : MatchFinder} {d p q : TreeIndex} (h : m.relink d p q = some n) (hm : m.wf) : n.wf := by
  simp only [MatchFinder.relink, Option.bind_eq_bind, Option.bind_eq_some_iff] at h
  obtain ⟨rd, -, h⟩ := h
  split at h
  · exact MatchFinder.setRight_wf h hm
  · exact MatchFinder.setLeft_wf h hm

theorem MatchFinder.replace_wf {m n : MatchFinder} {p r : TreeIndex} (h : m.replace p r = some n) (hm : m.wf) : n.wf := by
  simp only [MatchFinder.replace, Option.bind_eq_bind, Option.bind_eq_some_iff] at h
  obtain ⟨d, -, l, -, c, -, m1, h1, m2, h2, m3, h3, m4, h4, m5, h5, m6, h6, h⟩ := h
  exact MatchFinder.setParent_wf h (MatchFinder.relink_wf h6 (MatchFinder.setParent_wf h5 (MatchFinder.setParent_wf h4
    (MatchFinder.setRight_wf h3 (MatchFinder.setLeft_wf h2 (MatchFinder.setParent_wf h1 hm))))))

theorem MatchFinder.walk_wf {win : Memory} {r : WinPos} {fuel : Nat} {cmp : Ordering} {p : TreeIndex} {m n : MatchFinder}
    (h : m.walk win r fuel cmp p = some n) (hm : m.wf) : n.wf := by
  induction fuel generalizing m cmp p with
  | zero => cases h
  | succ fuel ih =>
    rw [MatchFinder.walk_succ] at h
    obtain ⟨q, -, h⟩ := Option.bind_eq_some_iff.1 h
    split at h
    · obtain ⟨m1, h1, h⟩ := Option.bind_eq_some_iff.1 h
      refine MatchFinder.setParent_wf h ?_
      split at h1
      · exact MatchFinder.setLeft_wf h1 hm
      · exact MatchFinder.setRight_wf h1 hm
    · split at h
      · split at h
        · split at h
          · exact MatchFinder.replace_wf h hm
          · exact ih h hm
        · exact ih h hm
      · cases h

/-- INSERT keeps the tree RAMs in canonical form. -/
theorem MatchFinder.insert_wf {win : Memory} {r : WinPos} {m n : MatchFinder} (h : m.insert win r = some n) (hm : m.wf) :
    n.wf := by
  obtain ⟨fuel, -, e⟩ := MatchFinder.insert_eq win r m
  rw [e] at h
  have hr := r.isLt
  refine MatchFinder.walk_wf h ⟨?_, ?_, hm.2.2⟩
  · exact ramWf_write (a := r.toNat) Config.NIL (by omega) hm.1
  · exact ramWf_write (a := r.toNat) Config.NIL (by omega) hm.2.1

theorem MatchFinder.adopt_wf {m n : MatchFinder} {p l c q : TreeIndex} (h : m.adopt p l c = some (n, q)) (hm : m.wf) :
    n.wf := by
  simp only [MatchFinder.adopt, Option.bind_eq_bind, Option.bind_eq_some_iff] at h
  obtain ⟨lr, -, h⟩ := h
  split at h
  · simp only [Option.bind_eq_some_iff] at h
    obtain ⟨m1, h1, m2, h2, h⟩ := h
    cases h
    exact MatchFinder.setParent_wf h2 (MatchFinder.setRight_wf h1 hm)
  · simp only [Option.bind_eq_some_iff] at h
    obtain ⟨q', -, dq, -, lq, -, m1, h1, m2, h2, lp, -, m3, h3, m4, h4, m5, h5, m6, h6, h⟩ := h
    cases h
    exact MatchFinder.setParent_wf h6 (MatchFinder.setRight_wf h5 (MatchFinder.setParent_wf h4 (MatchFinder.setLeft_wf h3
      (MatchFinder.setParent_wf h2 (MatchFinder.setRight_wf h1 hm)))))

/-- DELETE, by cases: nothing, or one of the three replacements and the relinking (R147). -/
theorem MatchFinder.delete_cases {m n : MatchFinder} {p : TreeIndex} (h : m.delete p = some n) :
    (m.parent p = some Config.NIL ∧ n = m)
    ∨ ∃ d c l mq m1 m2, m.parent p = some d ∧ d ≠ Config.NIL ∧ m.right p = some c ∧ m.left p = some l
      ∧ (if c = Config.NIL then some (m, l) else if l = Config.NIL then some (m, c) else m.adopt p l c) = some mq
      ∧ mq.1.setParent mq.2 d = some m1 ∧ m1.relink d p mq.2 = some m2 ∧ m2.setParent p Config.NIL = some n := by
  simp only [MatchFinder.delete, Option.bind_eq_bind, Option.bind_eq_some_iff] at h
  obtain ⟨d, hd, h⟩ := h
  by_cases e : d = Config.NIL
  · rw [if_pos e] at h
    cases h
    exact .inl ⟨by rw [hd, e], rfl⟩
  · rw [if_neg e] at h
    obtain ⟨c, hc, h⟩ := Option.bind_eq_some_iff.1 h
    obtain ⟨l, hl, h⟩ := Option.bind_eq_some_iff.1 h
    refine .inr ?_
    by_cases ec : c = Config.NIL
    · rw [if_pos ec] at h
      simp only [Option.bind_eq_some_iff] at h
      obtain ⟨mq, hmq, m1, h1, m2, h2, h⟩ := h
      exact ⟨d, c, l, mq, m1, m2, hd, e, hc, hl, by rw [if_pos ec]; exact hmq, h1, h2, h⟩
    · rw [if_neg ec] at h
      by_cases el : l = Config.NIL
      · rw [if_pos el] at h
        simp only [Option.bind_eq_some_iff] at h
        obtain ⟨mq, hmq, m1, h1, m2, h2, h⟩ := h
        exact ⟨d, c, l, mq, m1, m2, hd, e, hc, hl, by rw [if_neg ec, if_pos el]; exact hmq, h1, h2, h⟩
      · rw [if_neg el] at h
        simp only [Option.bind_eq_some_iff] at h
        obtain ⟨mq, hmq, m1, h1, m2, h2, h⟩ := h
        exact ⟨d, c, l, mq, m1, m2, hd, e, hc, hl, by rw [if_neg ec, if_neg el]; exact hmq, h1, h2, h⟩

/-- DELETE keeps the tree RAMs in canonical form. -/
theorem MatchFinder.delete_wf {m n : MatchFinder} {p : TreeIndex} (h : m.delete p = some n) (hm : m.wf) : n.wf := by
  rcases MatchFinder.delete_cases h with ⟨-, rfl⟩ | ⟨d, c, l, ⟨mq, q⟩, m1, m2, -, -, -, -, hmq, h1, h2, h3⟩
  · exact hm
  · refine MatchFinder.setParent_wf h3 (MatchFinder.relink_wf h2 (MatchFinder.setParent_wf h1 ?_))
    split at hmq
    · cases hmq; exact hm
    · split at hmq
      · cases hmq; exact hm
      · exact MatchFinder.adopt_wf hmq hm

theorem MatchFinder.seedFrom_wf {win : Memory} {k : Nat} {p : WinPos} {m n : MatchFinder}
    (h : m.seedFrom win k p = some n) (hm : m.wf) : n.wf := by
  induction k generalizing m p with
  | zero => cases h; exact hm
  | succ k ih =>
    rw [MatchFinder.seedFrom] at h
    split at h
    · cases h
    · next m1 h1 => exact ih h (MatchFinder.insert_wf h1 hm)

/-- SEED keeps the tree RAMs in canonical form. -/
theorem MatchFinder.seed_wf {cfg : Configuration} {win : Memory} {m n : MatchFinder} (h : m.seed cfg win = some n)
    (hm : m.wf) : n.wf :=
  MatchFinder.seedFrom_wf h hm

end Sys2Proof.Machine
end

