-- ==== Sys2Proof/Laws/Encoder.lean ====
section
/-! SUPPORT. What the encoder's operations do, once each: loading, the codeword put in the code buffer, FLUSH's copy, one byte of
SLIDE; and what selecting an instance does. -/

namespace Sys2Proof.Machine

/-! ### Loading the window (R162) -/

theorem loadBytes_wf {win : Memory} {p : WinPos} {bs : List Byte} (h : win.wf 4096) : (loadBytes win p bs).wf 4096 := by
  induction bs generalizing win p with
  | nil => exact h
  | cons b rest ih => exact ih (Memory.wf_write_pos p b h)

@[simp] theorem loadBytes_base (win : Memory) (p : WinPos) (bs : List Byte) : (loadBytes win p bs).base = win.base := by
  induction bs generalizing win p with
  | nil => rfl
  | cons b rest ih => exact ih _ _

/-- The window outside the loaded bytes. -/
theorem loadBytes_frame {win : Memory} {p q : WinPos} {bs : List Byte}
    (h : ∀ k, k < bs.length → q ≠ p + BitVec.ofNat 12 k) : (loadBytes win p bs).byteT q = win.byteT q := by
  induction bs generalizing win p with
  | nil => rfl
  | cons b rest ih =>
    rw [loadBytes, ih, Memory.byteT_write, if_neg]
    · simpa using h 0 (by simp)
    · intro k hk e
      refine h (k + 1) (by simpa using hk) (e.trans ?_)
      rw [BitVec.add_assoc]
      congr 1
      exact BitVec.eq_of_toNat_eq (by simp [Nat.add_comm])

/-- The loaded bytes. -/
theorem loadBytes_byteT {win : Memory} {p : WinPos} {bs : List Byte} (hn : bs.length ≤ 4096) {k : Nat} {b : Byte}
    (h : bs[k]? = some b) : (loadBytes win p bs).byteT (p + BitVec.ofNat 12 k) = b := by
  induction bs generalizing win p k with
  | nil => cases h
  | cons c rest ih =>
    rw [List.length_cons] at hn
    cases k with
    | zero =>
      cases h
      rw [loadBytes, loadBytes_frame, Memory.byteT_write]
      · simp
      · intro j hj e
        have e := congrArg BitVec.toNat e
        have := p.isLt
        simp [BitVec.toNat_add, BitVec.toNat_ofNat] at e
        omega
    | succ k =>
      rw [loadBytes]
      have := ih (win := win.write p.toNat c) (p := p + 1) (by omega) (by simpa using h)
      rw [← this, BitVec.add_assoc]
      congr 2
      exact BitVec.eq_of_toNat_eq (by simp [Nat.add_comm])

/-! ### Codewords (R164 to R167, R171) -/

/-- Two bytes put at the end of the pending codewords. -/
theorem State.appendCodes_two (a b : Byte) (s : State) :
    s.appendCodes [a, b] = { s with enc := { s.enc with
      codeBuf := (s.enc.codeBuf.write s.enc.codeLen.toNat a).write (s.enc.codeLen + 1).toNat b
      codeLen := s.enc.codeLen + 1 + 1 } } := rfl

/-- PACK gives two bytes. -/
theorem pack_two (layout : Layout) (endian : Endian) (ofs : WinPos) (len : LenField) :
    ∃ a b, pack layout endian ofs len = [a, b] := by
  cases endian <;> exact ⟨_, _, rfl⟩

/-- STEP is EMIT_LIT or EMIT_REF, in the code buffer and its counters alone (R164). -/
theorem State.encodeStep_cases (s : State) :
    (s.cappedMatch ≤ 2 ∧ s.encodeStep = { s with enc := { s.enc with
        codeBuf := (s.enc.codeBuf.write 0
            (s.enc.codeBuf.read 0 ||| flagBit s.cfg.controlBitOrder s.enc.slot.toNat)).write s.enc.codeLen.toNat
            (s.win.byteT s.enc.r)
        codeLen := s.enc.codeLen + 1
        lastMatchLength := 1
        slot := s.enc.slot + 1 } })
    ∨ (2 < s.cappedMatch ∧ ∃ a b, pack s.cfg.matchFieldLayout s.cfg.matchFieldEndianness s.matchOfs
          (BitVec.ofNat 4 (s.cappedMatch - 3)) = [a, b]
        ∧ s.encodeStep = { s with enc := { s.enc with
          codeBuf := (s.enc.codeBuf.write s.enc.codeLen.toNat a).write (s.enc.codeLen + 1).toNat b
          codeLen := s.enc.codeLen + 1 + 1
          lastMatchLength := BitVec.ofNat 5 s.cappedMatch
          slot := s.enc.slot + 1 } }) := by
  unfold State.encodeStep
  by_cases h : s.cappedMatch ≤ Config.THRESHOLD
  · exact .inl ⟨h, by rw [if_pos h]; rfl⟩
  · obtain ⟨a, b, e⟩ := pack_two s.cfg.matchFieldLayout s.cfg.matchFieldEndianness s.matchOfs
      (BitVec.ofNat 4 (s.cappedMatch - 3))
    refine .inr ⟨Nat.lt_of_not_le h, a, b, e, ?_⟩
    rw [if_neg h, State.emitRef, show s.cappedMatch - Config.THRESHOLD - 1 = s.cappedMatch - 3 from rfl, e,
      State.appendCodes_two]
    rfl

/-! ### FLUSH's copy (R169, R172) -/

/-- FLUSH's copy touches `OUT`, its count and what the end of a call touches, and nothing else. -/
theorem State.flushFrom_frame (n k : Nat) (s : State) :
    s.flushFrom n k = { s with
      out := (s.flushFrom n k).out
      mode := (s.flushFrom n k).mode
      status := (s.flushFrom n k).status
      bytesWritten := (s.flushFrom n k).bytesWritten
      enc := { s.enc with outCount := (s.flushFrom n k).enc.outCount } } := by
  induction n generalizing k s with
  | zero => rfl
  | succ n ih =>
    rw [State.flushFrom]
    split
    · conv_lhs => rw [ih]
      rfl
    · rfl

/-- A copy that fits. -/
theorem State.flushFrom_fits {n k : Nat} {s : State} (h : s.enc.outCount + n ≤ s.outCap) :
    s.flushFrom n k = { s with
      out := (s.flushFrom n k).out
      enc := { s.enc with outCount := s.enc.outCount + n } } := by
  induction n generalizing k s with
  | zero => rfl
  | succ n ih =>
    rw [State.flushFrom, if_pos (by omega)]
    conv_lhs => rw [ih (by simp; omega)]
    simp only [State.emitByte]
    rw [show s.enc.outCount + 1 + n = s.enc.outCount + (n + 1) by omega]

/-- The bytes of a copy that fits, and those outside it. -/
theorem State.flushFrom_out {n k : Nat} {s : State} (h : s.enc.outCount + n ≤ s.outCap) (a : Nat) :
    (s.flushFrom n k).out.read a
      = if s.enc.outCount ≤ a ∧ a < s.enc.outCount + n then s.enc.codeBuf.read (k + (a - s.enc.outCount))
        else s.out.read a := by
  induction n generalizing k s with
  | zero => rw [if_neg (by omega)]; rfl
  | succ n ih =>
    rw [State.flushFrom, if_pos (by omega), ih (by simp; omega)]
    simp only [State.emitByte_enc_outCount, State.emitByte_enc_codeBuf, State.emitByte_out, Memory.read_write]
    by_cases h1 : s.enc.outCount = a
    · subst h1
      rw [if_neg (by omega), if_pos rfl, if_pos (by omega)]
      simp
    · by_cases h2 : s.enc.outCount ≤ a ∧ a < s.enc.outCount + (n + 1)
      · rw [if_pos (by omega), if_pos h2]
        congr 1
        omega
      · rw [if_neg (by omega), if_neg (by omega), if_neg h2]

/-- A copy that does not fit: what fits of it, then `OutputExhausted` (R172, R227). -/
theorem State.flushFrom_exhausted {n k : Nat} {s : State} (h0 : s.enc.outCount ≤ s.outCap)
    (h : s.outCap < s.enc.outCount + n) :
    s.flushFrom n k = (s.flushFrom (s.outCap - s.enc.outCount) k).finish .outputExhausted := by
  induction n generalizing k s with
  | zero => omega
  | succ n ih =>
    rw [State.flushFrom]
    split
    · next hlt =>
      rw [ih (by simp; omega) (by simp; omega)]
      obtain ⟨j, hj⟩ : ∃ j, s.outCap - s.enc.outCount = j + 1 := ⟨s.outCap - s.enc.outCount - 1, by omega⟩
      rw [hj, State.flushFrom, if_pos hlt]
      have : (s.emitByte (s.enc.codeBuf.read k)).outCap - (s.emitByte (s.enc.codeBuf.read k)).enc.outCount = j := by
        simp; omega
      rw [this]
    · next hge =>
      have : s.outCap - s.enc.outCount = 0 := by omega
      rw [this]
      rfl

/-- FLUSH's copy keeps `OUT` in canonical form. -/
theorem State.flushFrom_wf {n k : Nat} {s : State} (h : s.out.wf s.outCap) : (s.flushFrom n k).out.wf s.outCap := by
  induction n generalizing k s with
  | zero => exact h
  | succ n ih =>
    rw [State.flushFrom]
    split
    · next hlt => exact ih (s := s.emitByte (s.enc.codeBuf.read k)) (Memory.wf_write _ hlt h)
    · exact h

/-- A codeword put where two bytes are free keeps the code buffer in canonical form. -/
theorem State.encodeStep_wf {s : State} (hroom : s.enc.codeLen.toNat + 2 ≤ 17) (h : s.enc.codeBuf.wf 17) :
    s.encodeStep.enc.codeBuf.wf 17 := by
  have h1 : (s.enc.codeLen + 1).toNat < 17 := by simp [BitVec.toNat_add]; omega
  have h0 : s.enc.codeLen.toNat < 17 := by omega
  rcases State.encodeStep_cases s with ⟨-, e⟩ | ⟨-, a, b, -, e⟩
  · rw [e]
    exact Memory.wf_write (a := s.enc.codeLen.toNat) _ h0 (Memory.wf_write (a := 0) _ (by omega) h)
  · rw [e]
    exact Memory.wf_write (a := (s.enc.codeLen + 1).toNat) _ h1 (Memory.wf_write (a := s.enc.codeLen.toNat) _ h0 h)

/-- The state after reset has its memories in canonical form, as every fresh instance has. -/
theorem Instance.blank_wf : Instance.blank.wf :=
  ⟨Memory.wf_empty _ _, Memory.wf_empty _ _, ramWf_empty _, ramWf_empty _, ramWf_empty _⟩

theorem newInstance_wf (cfg : Configuration) (draw : Nat) : (newInstance cfg draw).wf :=
  ⟨Memory.wf_empty _ _, Memory.wf_empty _ _, ramWf_empty _, ramWf_empty _, ramWf_empty _⟩

/-! ### SLIDE (R168, R256) -/

/-- One byte of SLIDE, by whether input is left. -/
theorem State.slideByte_some {s t : State} (h : s.slideByte = some t) :
    ∃ m, s.mf.delete (nodeOf s.enc.s) = some m ∧
      ((∃ b m', s.inBuf[s.enc.ip]? = some b ∧ m.insert (s.win.write s.enc.s.toNat b) (s.enc.r + 1) = some m'
          ∧ t = { s with
            win := s.win.write s.enc.s.toNat b
            mf := m'
            enc := { s.enc with ip := s.enc.ip + 1, s := s.enc.s + 1, r := s.enc.r + 1, i := s.enc.i + 1 } })
        ∨ (∃ m', s.inBuf[s.enc.ip]? = none
          ∧ (if s.enc.len - 1 = 0 then some m else m.insert s.win (s.enc.r + 1)) = some m'
          ∧ t = { s with
            mf := m'
            enc := { s.enc with s := s.enc.s + 1, r := s.enc.r + 1, len := s.enc.len - 1, i := s.enc.i + 1 } })) := by
  unfold State.slideByte at h
  obtain ⟨m, hm, h⟩ := Option.bind_eq_some_iff.1 h
  refine ⟨m, hm, ?_⟩
  cases hb : s.inBuf[s.enc.ip]? with
  | some b =>
    rw [hb] at h
    obtain ⟨m', hm', h⟩ := Option.bind_eq_some_iff.1 h
    exact .inl ⟨b, m', rfl, hm', (Option.some.inj h).symm⟩
  | none =>
    rw [hb] at h
    refine .inr ?_
    simp only at h
    split at h
    · next h0 => exact ⟨m, rfl, by rw [if_pos h0], (Option.some.inj h).symm⟩
    · next h0 =>
      obtain ⟨m', hm', h⟩ := Option.bind_eq_some_iff.1 h
      exact ⟨m', rfl, by rw [if_neg h0]; exact hm', (Option.some.inj h).symm⟩

/-- One byte of SLIDE keeps the window and the tree RAMs in canonical form. -/
theorem State.slideByte_wf {s t : State} (e : s.slideByte = some t) (hw : s.win.wf 4096) (hm : s.mf.wf) :
    t.win.wf 4096 ∧ t.mf.wf := by
  obtain ⟨m, hd, ⟨b, m', -, hi, rfl⟩ | ⟨m', -, hi, rfl⟩⟩ := State.slideByte_some e
  · exact ⟨Memory.wf_write_pos _ _ hw, MatchFinder.insert_wf hi (MatchFinder.delete_wf hd hm)⟩
  · refine ⟨hw, ?_⟩
    split at hi
    · cases hi; exact MatchFinder.delete_wf hd hm
    · exact MatchFinder.insert_wf hi (MatchFinder.delete_wf hd hm)

/-- What every byte of SLIDE keeps, the whole of it keeps. -/
theorem State.slideFrom_induct {P : State → Prop} (hP : ∀ s t : State, P s → s.slideByte = some t → P t) {n : Nat}
    {s t : State} (hs : P s) (h : s.slideFrom n = some t) : P t := by
  induction n generalizing s with
  | zero => cases h; exact hs
  | succ n ih =>
    rw [State.slideFrom] at h
    split at h
    · cases h
    · next u hu => exact ih (hP s u hs hu) h

/-- SLIDE touches the window, the match finder and the encoder's registers alone. -/
theorem State.slideFrom_frame {n : Nat} {s t : State} (h : s.slideFrom n = some t) :
    t = { s with win := t.win, mf := t.mf, enc := t.enc }
      ∧ t.enc.outCount = s.enc.outCount ∧ t.enc.slot = s.enc.slot ∧ t.enc.codeLen = s.enc.codeLen
      ∧ t.enc.codeBuf = s.enc.codeBuf ∧ t.enc.lastMatchLength = s.enc.lastMatchLength := by
  refine State.slideFrom_induct (P := fun u => u = { s with win := u.win, mf := u.mf, enc := u.enc }
      ∧ u.enc.outCount = s.enc.outCount ∧ u.enc.slot = s.enc.slot ∧ u.enc.codeLen = s.enc.codeLen
      ∧ u.enc.codeBuf = s.enc.codeBuf ∧ u.enc.lastMatchLength = s.enc.lastMatchLength) ?_ (by simp) h
  rintro u v ⟨hu, h1, h2, h3, h4, h5⟩ hv
  obtain ⟨m, -, ⟨b, m', -, -, rfl⟩ | ⟨m', -, -, rfl⟩⟩ := State.slideByte_some hv
  · exact ⟨by simp only; rw [hu], h1, h2, h3, h4, h5⟩
  · exact ⟨by simp only; rw [hu], h1, h2, h3, h4, h5⟩

/-! ### Selecting an instance (R223) -/

/-- A command goes on only on the idle selected instance or on an idle parked one, which is then the selected one. -/
theorem State.select_next {h : Nat} {s t : State} (e : s.select h = .next t) :
    (s.sel = h ∧ s.mode = .idle ∧ t = s)
    ∨ (s.sel ≠ h ∧ ∃ inst, findInstance s.parked h = some inst ∧ inst.mode = .idle
        ∧ t = { s with toInstance := inst, sel := h, parked := dropInstance s.park h }) := by
  unfold State.select at e
  split at e
  · next hs =>
    split at e <;> cases e
    exact .inl ⟨hs, by assumption, rfl⟩
  · next hs =>
    split at e
    · cases e
    · next inst hi =>
      split at e
      · next hm => cases e; exact .inr ⟨hs, inst, hi, hm, rfl⟩
      · cases e

/-- A command on an instance that it addresses goes on (R223). -/
theorem State.select_addresses {s : State} {h : Nat} {inst : Instance} (e : s.addresses h inst) :
    ∃ t, s.select h = .next t ∧ t.toInstance = inst ∧ t.sel = h ∧ t.mode = .idle ∧ t.requests = s.requests
      ∧ t.draws = s.draws ∧ t.nextHandle = s.nextHandle ∧ t.inBuf = s.inBuf ∧ t.out = s.out ∧ t.outCap = s.outCap := by
  rcases e with ⟨rfl, hm, rfl⟩ | ⟨hs, -, hi, hm⟩
  · exact ⟨s, by rw [State.select, if_pos rfl, hm], rfl, rfl, hm, rfl, rfl, rfl, rfl, rfl, rfl⟩
  · refine ⟨{ s with toInstance := inst, sel := h, parked := dropInstance s.park h }, ?_, rfl, rfl, hm, rfl, rfl, rfl, rfl,
      rfl, rfl⟩
    rw [State.select, if_neg (Ne.symm hs), hi]
    exact if_pos hm

end Sys2Proof.Machine
end

