-- ==== Sys2Proof/Laws/PerInstr.lean ====
section
/-! SUPPORT. Statements about every instruction as syntax, one lemma per constructor. The family Width: a symbol's encoding is as
long as its row of the opcode table says. -/

namespace Sys2Proof.Laws.Width

/-- The bytes of an instruction's row in spec/opcode_table.json, its "bits" over 8. -/
def rowBytes (i : Instr) : Nat :=
  match i with
  | .ctrl _ => 1
  | .lit _ => 1
  | .refHHLE _ _ => 2
  | .refHHBE _ _ => 2
  | .refHLLE _ _ => 2
  | .refHLBE _ _ => 2
  | .refLHLE _ _ => 2
  | .refLHBE _ _ => 2
  | .refLLLE _ _ => 2
  | .refLLBE _ _ => 2
  | .eos => 2

/-- The encoding is as long as the row says, and the decoder asks for as many bytes (R91, R93, R94, R100). -/
def Statement (i : Instr) : Prop :=
  (encode i).length = rowBytes i ∧ rowBytes i = if i.selector = .reference then 2 else 1

theorem pack_length (layout : Layout) (endian : Endian) (ofs : WinPos) (len : LenField) :
    (pack layout endian ofs len).length = 2 := by
  cases endian <;> rfl

theorem ctrl (f : Byte) : Statement (.ctrl f) := ⟨rfl, rfl⟩

theorem lit (b : Byte) : Statement (.lit b) := ⟨rfl, rfl⟩

theorem refHHLE (ofs : WinPos) (len : LenField) : Statement (.refHHLE ofs len) := ⟨pack_length _ _ _ _, rfl⟩

theorem refHHBE (ofs : WinPos) (len : LenField) : Statement (.refHHBE ofs len) := ⟨pack_length _ _ _ _, rfl⟩

theorem refHLLE (ofs : WinPos) (len : LenField) : Statement (.refHLLE ofs len) := ⟨pack_length _ _ _ _, rfl⟩

theorem refHLBE (ofs : WinPos) (len : LenField) : Statement (.refHLBE ofs len) := ⟨pack_length _ _ _ _, rfl⟩

theorem refLHLE (ofs : WinPos) (len : LenField) : Statement (.refLHLE ofs len) := ⟨pack_length _ _ _ _, rfl⟩

theorem refLHBE (ofs : WinPos) (len : LenField) : Statement (.refLHBE ofs len) := ⟨pack_length _ _ _ _, rfl⟩

theorem refLLLE (ofs : WinPos) (len : LenField) : Statement (.refLLLE ofs len) := ⟨pack_length _ _ _ _, rfl⟩

theorem refLLBE (ofs : WinPos) (len : LenField) : Statement (.refLLBE ofs len) := ⟨pack_length _ _ _ _, rfl⟩

theorem eos : Statement .eos := ⟨rfl, rfl⟩

end Sys2Proof.Laws.Width
end

