-- ==== Sys2Proof/Laws/Trees.lean ====
section
/-! SUPPORT. The order of keys, what the links draw, and what the walks of INSERT and DELETE do on a drawn tree. -/

namespace Sys2Proof.Machine

/-! ### Keys (R141, R143) -/

theorem keysAgree_symm {win : Memory} {n : Nat} {a b : WinPos} (h : keysAgree win n a b) : keysAgree win n b a :=
  fun k hk => (h k hk).symm

theorem keysAgree_trans {win : Memory} {n : Nat} {a b c : WinPos} (h : keysAgree win n a b) (g : keysAgree win n b c) :
    keysAgree win n a c :=
  fun k hk => (h k hk).trans (g k hk)

theorem keysAgree_mono {win : Memory} {n k : Nat} {a b : WinPos} (hk : k ≤ n) (h : keysAgree win n a b) :
    keysAgree win k a b :=
  fun i hi => h i (by omega)

/-- Equal keys stand for each other in the order. -/
theorem keyLt_of_agree {win : Memory} {a b c : WinPos} (h : keysAgree win 18 a b) (g : keyLt win b c) : keyLt win a c := by
  obtain ⟨i, hi, ha, hl⟩ := g
  exact ⟨i, hi, keysAgree_trans (keysAgree_mono (by omega) h) ha, by rw [h i hi]; exact hl⟩

theorem keyLt_of_agree_right {win : Memory} {a b c : WinPos} (g : keyLt win a b) (h : keysAgree win 18 b c) :
    keyLt win a c := by
  obtain ⟨i, hi, ha, hl⟩ := g
  exact ⟨i, hi, keysAgree_trans ha (keysAgree_mono (by omega) h), by rw [← h i hi]; exact hl⟩

theorem keyLt_trans {win : Memory} {a b c : WinPos} (h : keyLt win a b) (g : keyLt win b c) : keyLt win a c := by
  obtain ⟨i, hi, ha, hl⟩ := h
  obtain ⟨j, hj, gb, gl⟩ := g
  rcases Nat.lt_trichotomy i j with hij | rfl | hij
  · exact ⟨i, hi, keysAgree_trans ha (keysAgree_mono (by omega) gb), by rw [← gb i hij]; exact hl⟩
  · exact ⟨i, hi, keysAgree_trans ha gb, by omega⟩
  · exact ⟨j, hj, keysAgree_trans (keysAgree_mono (by omega) ha) gb, by rw [ha j hij]; exact gl⟩

theorem keyLe_trans {win : Memory} {a b c : WinPos} (h : keyLe win a b) (g : keyLe win b c) : keyLe win a c := by
  rcases h with h | h <;> rcases g with g | g
  · exact .inl (keysAgree_trans h g)
  · exact .inr (keyLt_of_agree h g)
  · exact .inr (keyLt_of_agree_right h g)
  · exact .inr (keyLt_trans h g)

/-- A common prefix of the two ends of a rising triple is one of its first two. -/
theorem agree_of_between {win : Memory} {a b c : WinPos} {n : Nat} (h : keyLt win a b) (g : keyLe win b c)
    (hn : keysAgree win n a c) : keysAgree win n a b := by
  obtain ⟨i, hi, ha, hl⟩ := h
  by_cases hni : n ≤ i
  · exact keysAgree_mono hni ha
  · exfalso
    have e := hn i (by omega)
    rcases g with g | ⟨j, hj, gb, gl⟩
    · rw [g i hi, e] at hl; omega
    · rcases Nat.lt_trichotomy i j with hij | rfl | hij
      · rw [gb i hij, e] at hl; omega
      · rw [e] at hl; omega
      · rw [← ha j hij, hn j (by omega)] at gl; omega

/-- A common prefix of the two ends of a rising triple is one of its last two. -/
theorem agree_of_between_right {win : Memory} {a b c : WinPos} {n : Nat} (h : keyLe win a b) (g : keyLt win b c)
    (hn : keysAgree win n c a) : keysAgree win n c b := by
  obtain ⟨i, hi, ha, hl⟩ := g
  by_cases hni : n ≤ i
  · exact keysAgree_symm (keysAgree_mono hni ha)
  · exfalso
    have e := hn i (by omega)
    rcases h with h | ⟨j, hj, gb, gl⟩
    · rw [e, h i hi] at hl; omega
    · rcases Nat.lt_trichotomy i j with hij | rfl | hij
      · rw [← gb i hij, ← e] at hl; omega
      · rw [e] at hl; omega
      · rw [ha j hij, hn j (by omega)] at gl; omega

/-- Everything that COMPARE finds on keys that agree in byte 0: the length of the common prefix, and the order. -/
theorem compareKeys_found {win : Memory} {r p : WinPos} (h0 : win.byteT r = win.byteT p) :
    keysAgree win (compareKeys win r p).1 r p ∧ 1 ≤ (compareKeys win r p).1
    ∧ ((compareKeys win r p).1 = 18
      ∨ (compareKeys win r p).1 < 18
        ∧ win.byteT (r + BitVec.ofNat 12 (compareKeys win r p).1) ≠ win.byteT (p + BitVec.ofNat 12 (compareKeys win r p).1)
        ∧ ((compareKeys win r p).2 = .lt ∧ keyLt win r p ∨ (compareKeys win r p).2 = .gt ∧ keyLt win p r)) := by
  have key : ∀ n, n ≤ 17 → keysAgree win (18 - n) r p →
      keysAgree win (compareFrom win r p n).1 r p ∧ 1 ≤ (compareFrom win r p n).1
      ∧ ((compareFrom win r p n).1 = 18
        ∨ (compareFrom win r p n).1 < 18
          ∧ win.byteT (r + BitVec.ofNat 12 (compareFrom win r p n).1)
              ≠ win.byteT (p + BitVec.ofNat 12 (compareFrom win r p n).1)
          ∧ ((compareFrom win r p n).2 = .lt ∧ keyLt win r p ∨ (compareFrom win r p n).2 = .gt ∧ keyLt win p r)) := by
    intro n
    induction n with
    | zero => exact fun _ h => ⟨h, show 1 ≤ 18 by omega, .inl rfl⟩
    | succ n ih =>
      intro hn h
      unfold compareFrom
      simp only
      split
      · next he =>
        refine ih (by omega) (fun k hk => ?_)
        by_cases hk' : k = 18 - (n + 1)
        · subst hk'; exact he
        · exact h k (by omega)
      · next he =>
        refine ⟨h, show 1 ≤ 18 - (n + 1) by omega, .inr ⟨show 18 - (n + 1) < 18 by omega, he, ?_⟩⟩
        split
        · next hl => exact .inr ⟨rfl, 18 - (n + 1), by omega, keysAgree_symm h, hl⟩
        · next hl =>
          refine .inl ⟨rfl, 18 - (n + 1), by omega, h, ?_⟩
          have hl : ¬ (win.byteT (p + BitVec.ofNat 12 (18 - (n + 1)))).toNat
              < (win.byteT (r + BitVec.ofNat 12 (18 - (n + 1)))).toNat := hl
          have : (win.byteT (r + BitVec.ofNat 12 (18 - (n + 1)))).toNat
              ≠ (win.byteT (p + BitVec.ofNat 12 (18 - (n + 1)))).toNat := fun e => he (BitVec.eq_of_toNat_eq e)
          omega
  refine key 17 (by omega) (fun k hk => ?_)
  obtain rfl : k = 0 := by omega
  simpa using h0

/-! ### Drawn trees (R47) -/

theorem nodeOf_inj {p q : WinPos} : nodeOf p = nodeOf q ↔ p = q :=
  ⟨fun h => by
    have := congrArg BitVec.toNat h
    rw [nodeOf_toNat, nodeOf_toNat] at this
    exact BitVec.eq_of_toNat_eq this, fun h => by rw [h]⟩

theorem nodeOf_ne_nil (p : WinPos) : nodeOf p ≠ Config.NIL := by
  intro h
  have := congrArg BitVec.toNat h
  have hp := p.isLt
  rw [nodeOf_toNat] at this
  simp at this
  omega

theorem rootSlot_ne_nil (c : Byte) : rootSlot c ≠ Config.NIL := by
  intro h
  have := congrArg BitVec.toNat h
  rw [rootSlot_toNat] at this
  simp at this
  omega

theorem rootSlot_ne_nodeOf (c : Byte) (p : WinPos) : rootSlot c ≠ nodeOf p := by
  intro h
  have := congrArg BitVec.toNat h
  have hp := p.isLt
  rw [rootSlot_toNat, nodeOf_toNat] at this
  omega

/-- A drawn tree's link is `NIL` or its top node. -/
theorem SearchTree.drawn_link {m : MatchFinder} {parent x : TreeIndex} {t : SearchTree} (h : t.drawn m parent x) :
    (t = .nil ∧ x = Config.NIL) ∨ ∃ p ∈ t.nodes, x = nodeOf p := by
  cases t with
  | nil => exact .inl ⟨rfl, h⟩
  | node l p r => exact .inr ⟨p, by simp [SearchTree.nodes], h.1⟩

theorem SearchTree.drawn_link_le {m : MatchFinder} {parent x : TreeIndex} {t : SearchTree} (h : t.drawn m parent x) :
    x.toNat ≤ 4096 := by
  rcases SearchTree.drawn_link h with ⟨-, rfl⟩ | ⟨p, -, rfl⟩
  · simp
  · rw [nodeOf_toNat]; omega

/-- Two machines whose links agree at a tree's nodes draw the same tree. -/
theorem SearchTree.drawn_frame {m n : MatchFinder} {t : SearchTree} {parent x : TreeIndex} (h : t.drawn m parent x)
    (hd : ∀ p ∈ t.nodes, ramRead n.dad p.toNat = ramRead m.dad p.toNat)
    (hl : ∀ p ∈ t.nodes, ramRead n.lson p.toNat = ramRead m.lson p.toNat)
    (hr : ∀ p ∈ t.nodes, ramRead n.rson p.toNat = ramRead m.rson p.toNat) : t.drawn n parent x := by
  induction t generalizing parent x with
  | nil => exact h
  | node l p r ihl ihr =>
    simp only [SearchTree.nodes, List.mem_append, List.mem_cons] at hd hl hr
    refine ⟨h.1, by rw [hd p (by simp)]; exact h.2.1, ?_, ?_⟩
    · rw [hl p (by simp)]
      exact ihl h.2.2.1 (fun q hq => hd q (by simp [hq])) (fun q hq => hl q (by simp [hq])) (fun q hq => hr q (by simp [hq]))
    · rw [hr p (by simp)]
      exact ihr h.2.2.2 (fun q hq => hd q (by simp [hq])) (fun q hq => hl q (by simp [hq])) (fun q hq => hr q (by simp [hq]))

/-- A tree under another parent: the top node's parent link is the new one's, all other links as before. -/
theorem SearchTree.drawn_reparent {m n : MatchFinder} {t : SearchTree} {parent parent' x : TreeIndex}
    (h : t.drawn m parent x) (hn : t.nodes.Nodup)
    (hd : ∀ p ∈ t.nodes, nodeOf p ≠ x → ramRead n.dad p.toNat = ramRead m.dad p.toNat)
    (hx : x ≠ Config.NIL → ramRead n.dad x.toNat = parent')
    (hl : ∀ p ∈ t.nodes, ramRead n.lson p.toNat = ramRead m.lson p.toNat)
    (hr : ∀ p ∈ t.nodes, ramRead n.rson p.toNat = ramRead m.rson p.toNat) : t.drawn n parent' x := by
  cases t with
  | nil => exact h
  | node l p r =>
    obtain ⟨h1, h2, h3, h4⟩ := h
    subst h1
    simp only [SearchTree.nodes, List.mem_append, List.mem_cons] at hd hl hr
    simp only [SearchTree.nodes, List.nodup_append, List.nodup_cons, List.mem_cons] at hn
    obtain ⟨n1, ⟨n2, n3⟩, n4⟩ := hn
    have hx' := hx (nodeOf_ne_nil p)
    rw [nodeOf_toNat] at hx'
    refine ⟨rfl, hx', ?_, ?_⟩
    · rw [hl p (by simp)]
      refine SearchTree.drawn_frame h3 (fun q hq => hd q (by simp [hq]) ?_) (fun q hq => hl q (by simp [hq]))
        (fun q hq => hr q (by simp [hq]))
      exact fun e => n4 q hq p (by simp) (nodeOf_inj.1 e)
    · rw [hr p (by simp)]
      refine SearchTree.drawn_frame h4 (fun q hq => hd q (by simp [hq]) ?_) (fun q hq => hl q (by simp [hq]))
        (fun q hq => hr q (by simp [hq]))
      exact fun e => n2 (nodeOf_inj.1 e ▸ hq)

/-- The parent of a drawn node is a node of the tree or the tree's parent. -/
theorem SearchTree.drawn_dad {m : MatchFinder} {t : SearchTree} {parent x : TreeIndex} (h : t.drawn m parent x) {p : WinPos}
    (hp : p ∈ t.nodes) : ramRead m.dad p.toNat = parent ∨ ∃ q ∈ t.nodes, ramRead m.dad p.toNat = nodeOf q := by
  induction t generalizing parent x with
  | nil => cases hp
  | node l q r ihl ihr =>
    simp only [SearchTree.nodes, List.mem_append, List.mem_cons] at hp
    rcases hp with hp | rfl | hp
    · rcases ihl h.2.2.1 hp with e | ⟨z, hz, e⟩
      · exact .inr ⟨q, by simp [SearchTree.nodes], e⟩
      · exact .inr ⟨z, by simp [SearchTree.nodes, hz], e⟩
    · exact .inl h.2.1
    · rcases ihr h.2.2.2 hp with e | ⟨z, hz, e⟩
      · exact .inr ⟨q, by simp [SearchTree.nodes], e⟩
      · exact .inr ⟨z, by simp [SearchTree.nodes, hz], e⟩

/-- A drawn node is attached. -/
theorem SearchTree.drawn_attached {m : MatchFinder} {t : SearchTree} {parent x : TreeIndex} (h : t.drawn m parent x)
    (hpar : parent ≠ Config.NIL) {p : WinPos} (hp : p ∈ t.nodes) : m.attached p := by
  rcases SearchTree.drawn_dad h hp with e | ⟨q, -, e⟩
  · unfold MatchFinder.attached; rw [e]; exact hpar
  · unfold MatchFinder.attached; rw [e]; exact nodeOf_ne_nil q

/-- A tree has no more nodes than the window has positions. -/
theorem nodes_length_le {l : List WinPos} (h : l.Nodup) : l.length ≤ 4096 := by
  have h1 : (l.map BitVec.toNat).Nodup := h.map (fun _ _ e => BitVec.eq_of_toNat_eq e)
  have h2 : l.map BitVec.toNat ⊆ List.range 4096 := by
    intro x hx
    obtain ⟨p, -, rfl⟩ := List.mem_map.1 hx
    exact List.mem_range.2 p.isLt
  have := (List.subperm_of_subset h1 h2).length_le
  simpa using this

/-! ### INSERT's walk on a drawn tree (R144, R145, R146) -/

/-- REPLACE as the writes it makes (R145). -/
theorem MatchFinder.replace_eq {m : MatchFinder} {p r d l c : TreeIndex} (hp : p.toNat < 4096) (hr : r.toNat < 4096)
    (hd : ramRead m.dad p.toNat = d) (hl : ramRead m.lson p.toNat = l) (hc : ramRead m.rson p.toNat = c)
    (hdle : d.toNat ≤ 4352) (hlle : l.toNat ≤ 4096) (hcle : c.toNat ≤ 4096) (hdr : d ≠ r)
    (hlink : ramRead m.rson d.toNat = p ∨ ramRead m.rson d.toNat ≠ p ∧ d.toNat ≤ 4096) :
    m.replace p r = some { m with
      dad := ramWrite (ramWrite (ramWrite (ramWrite m.dad r.toNat d) l.toNat r) c.toNat r) p.toNat Config.NIL
      lson := if ramRead m.rson d.toNat = p then ramWrite m.lson r.toNat l
        else ramWrite (ramWrite m.lson r.toNat l) d.toNat r
      rson := if ramRead m.rson d.toNat = p then ramWrite (ramWrite m.rson r.toNat c) d.toNat r
        else ramWrite m.rson r.toNat c } := by
  have hdr' : d.toNat ≠ r.toNat := fun e => hdr (BitVec.eq_of_toNat_eq e)
  simp only [MatchFinder.replace, MatchFinder.relink, MatchFinder.parent, MatchFinder.left, MatchFinder.right,
    MatchFinder.setParent, MatchFinder.setLeft, MatchFinder.setRight, Option.bind_eq_bind, hd, hl, hc,
    show p.toNat ≤ 4096 by omega, show p.toNat ≤ 4352 by omega, show r.toNat ≤ 4096 by omega,
    show r.toNat ≤ 4352 by omega, hdle, hlle, hcle, if_true, Option.bind_some, ramRead_ramWrite, if_neg hdr']
  rcases hlink with e | ⟨e, h⟩
  · simp only [e, if_true, Option.bind_some]
  · simp only [e, h, if_true, if_false, Option.bind_some]

/-- The tree after INSERT of `r` (R144, R145): `r` in the place of the node that has its whole key, or where the walk ends. -/
def SearchTree.inserted (win : Memory) (r : WinPos) (t : SearchTree) : SearchTree :=
  match t with
  | .nil => .node .nil r .nil
  | .node a q b =>
    if 18 ≤ (compareKeys win r q).1 then .node a r b
    else if (compareKeys win r q).2 = .lt then .node (a.inserted win r) q b
    else .node a q (b.inserted win r)

/-- The Match Record after the walk down a tree, from the record `best` (R144, R146). -/
def SearchTree.bestMatch (win : Memory) (r : WinPos) (t : SearchTree) (best : Nat × WinPos) : Nat × WinPos :=
  match t with
  | .nil => best
  | .node a q b =>
    let best' := if best.1 < (compareKeys win r q).1 then ((compareKeys win r q).1, q) else best
    if 18 ≤ (compareKeys win r q).1 then best'
    else if (compareKeys win r q).2 = .lt then a.bestMatch win r best' else b.bestMatch win r best'

/-- INSERT's walk on a drawn tree, standing at its parent `p` with the comparison that leads to it: the tree it draws, the record
it leaves, and the links it does not touch. -/
theorem MatchFinder.walk_drawn {win : Memory} {r : WinPos} {t : SearchTree} {fuel : Nat} {cmp : Ordering} {p x : TreeIndex}
    {m : MatchFinder} (hx : (if cmp = .lt then m.left p else m.right p) = some x) (ht : t.drawn m p x)
    (hn : t.nodes.Nodup) (hw : ∀ q ∈ t.nodes, win.byteT q = win.byteT r) (hr : r ∉ t.nodes)
    (hfuel : t.nodes.length < fuel) (hbest : m.matchLength.toNat < 18) (hlr : ramRead m.lson r.toNat = Config.NIL)
    (hrr : ramRead m.rson r.toNat = Config.NIL) (hp : ∀ q ∈ t.nodes, nodeOf q ≠ p) (hpr : nodeOf r ≠ p)
    (hpn : p ≠ Config.NIL)
    (hside : cmp = .lt → ∀ q ∈ t.nodes, ramRead m.rson p.toNat ≠ nodeOf q) :
    ∃ m', m.walk win r fuel cmp p = some m'
      ∧ (m'.matchLength.toNat, m'.matchPosition) = t.bestMatch win r (m.matchLength.toNat, m.matchPosition)
      ∧ (t.inserted win r).drawn m' p (if cmp = .lt then ramRead m'.lson p.toNat else ramRead m'.rson p.toNat)
      ∧ (∀ y, (∀ q ∈ t.nodes, y ≠ q.toNat) → y ≠ r.toNat → y ≠ 4096 → ramRead m'.dad y = ramRead m.dad y)
      ∧ (∀ y, (∀ q ∈ t.nodes, y ≠ q.toNat) → y ≠ r.toNat → ¬ (cmp = .lt ∧ y = p.toNat) →
          ramRead m'.lson y = ramRead m.lson y)
      ∧ (∀ y, (∀ q ∈ t.nodes, y ≠ q.toNat) → y ≠ r.toNat → ¬ (cmp ≠ .lt ∧ y = p.toNat) →
          ramRead m'.rson y = ramRead m.rson y)
      ∧ (∀ q ∈ t.nodes, q ∈ (t.inserted win r).nodes ∨ ¬ m'.attached q) := by
  have nat_ne : ∀ {a b : TreeIndex}, a ≠ b → a.toNat ≠ b.toNat := fun h e => h (BitVec.eq_of_toNat_eq e)
  have pos_ne : ∀ {a b : WinPos}, a ≠ b → a.toNat ≠ b.toNat := fun h e => h (BitVec.eq_of_toNat_eq e)
  have hrl := r.isLt
  have hpr' : r.toNat ≠ p.toNat := by have := nat_ne hpr; rwa [nodeOf_toNat] at this
  have hple : (cmp = .lt → p.toNat ≤ 4096) ∧ p.toNat ≤ 4352 := by
    by_cases hc : cmp = .lt
    · rw [if_pos hc, MatchFinder.left] at hx
      split at hx
      · next h => exact ⟨fun _ => h, by omega⟩
      · cases hx
    · rw [if_neg hc, MatchFinder.right] at hx
      split at hx
      · next h => exact ⟨fun h' => absurd h' hc, h⟩
      · cases hx
  have hxv : x = if cmp = .lt then ramRead m.lson p.toNat else ramRead m.rson p.toNat := by
    by_cases hc : cmp = .lt
    · rw [if_pos hc, MatchFinder.left_eq (hple.1 hc)] at hx
      rw [if_pos hc]; exact (Option.some.inj hx).symm
    · rw [if_neg hc, MatchFinder.right_eq hple.2] at hx
      rw [if_neg hc]; exact (Option.some.inj hx).symm
  induction t generalizing fuel cmp p x m with
  | nil =>
    obtain ⟨fuel, rfl⟩ : ∃ k, fuel = k + 1 := ⟨fuel - 1, by omega⟩
    have ht : x = Config.NIL := ht
    subst ht
    rw [MatchFinder.walk_succ, hx, Option.bind_some, if_pos rfl]
    by_cases hc : cmp = .lt
    · rw [if_pos hc, MatchFinder.setLeft_eq (hple.1 hc), Option.bind_some,
        MatchFinder.setParent_eq (by rw [nodeOf_toNat]; omega)]
      refine ⟨_, rfl, rfl, ?_, ?_, ?_, ?_, by simp [SearchTree.nodes]⟩
      · rw [if_pos hc]
        refine ⟨by simp [ramRead_ramWrite], by simp [ramRead_ramWrite], ?_, ?_⟩
        · simp only [ramRead_ramWrite]; rw [if_neg hpr']; exact hlr
        · exact hrr
      · intro y _ h1 _; simp only [ramRead_ramWrite, nodeOf_toNat]; rw [if_neg (by omega)]
      · intro y _ _ h1; simp only [ramRead_ramWrite]; rw [if_neg (fun e => h1 ⟨hc, e⟩)]
      · intro y _ _ _; rfl
    · rw [if_neg hc, MatchFinder.setRight_eq hple.2, Option.bind_some,
        MatchFinder.setParent_eq (by rw [nodeOf_toNat]; omega)]
      refine ⟨_, rfl, rfl, ?_, ?_, ?_, ?_, by simp [SearchTree.nodes]⟩
      · rw [if_neg hc]
        refine ⟨by simp [ramRead_ramWrite], by simp [ramRead_ramWrite], ?_, ?_⟩
        · exact hlr
        · simp only [ramRead_ramWrite]; rw [if_neg hpr']; exact hrr
      · intro y _ h1 _; simp only [ramRead_ramWrite, nodeOf_toNat]; rw [if_neg (by omega)]
      · intro y _ _ _; rfl
      · intro y _ _ h1; simp only [ramRead_ramWrite]; rw [if_neg (fun e => h1 ⟨hc, e⟩)]
  | node a q b iha ihb =>
    obtain ⟨fuel, rfl⟩ : ∃ k, fuel = k + 1 := ⟨fuel - 1, by omega⟩
    obtain ⟨e1, hdq, hda, hdb⟩ := ht
    subst e1
    have hql := q.isLt
    simp only [SearchTree.nodes, List.mem_append, List.mem_cons, List.length_append, List.length_cons] at hw hr hfuel hp hside
    simp only [SearchTree.nodes, List.nodup_append, List.nodup_cons, List.mem_cons] at hn
    obtain ⟨hna, ⟨hqb, hnb⟩, hab⟩ := hn
    have hra : r ∉ a.nodes := fun h => hr (.inl h)
    have hrq : r ≠ q := fun h => hr (.inr (.inl h))
    have hrb : r ∉ b.nodes := fun h => hr (.inr (.inr h))
    have hqa : q ∉ a.nodes := fun h => hab q h q (by simp) rfl
    have hqp : nodeOf q ≠ p := hp q (by simp)
    have hqp' : q.toNat ≠ p.toNat := by have := nat_ne hqp; rwa [nodeOf_toNat] at this
    have hap : ∀ z ∈ a.nodes, z.toNat ≠ p.toNat := fun z hz => by
      have := nat_ne (hp z (by simp [hz])); rwa [nodeOf_toNat] at this
    have hbp : ∀ z ∈ b.nodes, z.toNat ≠ p.toNat := fun z hz => by
      have := nat_ne (hp z (by simp [hz])); rwa [nodeOf_toNat] at this
    have hne : ∀ {z : WinPos}, z ∈ a.nodes → z.toNat ≠ q.toNat ∧ z.toNat ≠ r.toNat ∧ z.toNat ≠ 4096 := fun {z} hz =>
      ⟨pos_ne fun e => hqa (e ▸ hz), pos_ne fun e => hra (e ▸ hz), by have := z.isLt; omega⟩
    have hne' : ∀ {z : WinPos}, z ∈ b.nodes → z.toNat ≠ q.toNat ∧ z.toNat ≠ r.toNat ∧ z.toNat ≠ 4096 := fun {z} hz =>
      ⟨pos_ne fun e => hqb (e ▸ hz), pos_ne fun e => hrb (e ▸ hz), by have := z.isLt; omega⟩
    have hdis : ∀ {y z : WinPos}, y ∈ a.nodes → z ∈ b.nodes → y.toNat ≠ z.toNat := fun {y z} hy hz =>
      pos_ne (hab y hy z (by simp [hz]))
    have hqr := pos_ne hrq
    obtain ⟨-, hf1, hf⟩ := compareKeys_found (win := win) (r := r) (p := q) (hw q (by simp)).symm
    rw [MatchFinder.walk_succ, hx, Option.bind_some, if_neg (nodeOf_ne_nil q), if_pos (by rw [nodeOf_toNat]; exact hql),
      posOf_nodeOf]
    simp only [SearchTree.inserted, SearchTree.bestMatch]
    by_cases h18 : 18 ≤ (compareKeys win r q).1
    · have e18 : (compareKeys win r q).1 = 18 := by omega
      have hlle := SearchTree.drawn_link_le hda
      have hcle := SearchTree.drawn_link_le hdb
      have hlink : ramRead m.rson p.toNat = nodeOf q ↔ cmp ≠ .lt := by
        by_cases hc : cmp = .lt
        · exact iff_of_false (hside hc q (by simp)) (fun h => h hc)
        · rw [if_neg hc] at hxv; exact iff_of_true hxv.symm hc
      have hl : ∀ z ∈ b.nodes, ramRead m.lson q.toNat ≠ nodeOf z := fun z hz e => by
        rcases SearchTree.drawn_link hda with ⟨-, h⟩ | ⟨y, hy, h⟩
        · rw [h] at e; exact nodeOf_ne_nil z e.symm
        · rw [h] at e; exact hdis hy hz (congrArg BitVec.toNat (nodeOf_inj.1 e))
      have hc : ∀ z ∈ a.nodes, ramRead m.rson q.toNat ≠ nodeOf z := fun z hz e => by
        rcases SearchTree.drawn_link hdb with ⟨-, h⟩ | ⟨y, hy, h⟩
        · rw [h] at e; exact nodeOf_ne_nil z e.symm
        · rw [h] at e; exact hdis hz hy (congrArg BitVec.toNat (nodeOf_inj.1 e.symm))
      have hlq : ∀ z, z = q ∨ z = r → (ramRead m.lson q.toNat).toNat ≠ z.toNat := fun z hz e => by
        rcases SearchTree.drawn_link hda with ⟨-, h⟩ | ⟨y, hy, h⟩
        · rw [h] at e; have := z.isLt; simp at e; omega
        · rw [h, nodeOf_toNat] at e
          rcases hz with rfl | rfl
          · exact (hne hy).1 e
          · exact (hne hy).2.1 e
      have hcq : ∀ z, z = q ∨ z = r → (ramRead m.rson q.toNat).toNat ≠ z.toNat := fun z hz e => by
        rcases SearchTree.drawn_link hdb with ⟨-, h⟩ | ⟨y, hy, h⟩
        · rw [h] at e; have := z.isLt; simp at e; omega
        · rw [h, nodeOf_toNat] at e
          rcases hz with rfl | rfl
          · exact (hne' hy).1 e
          · exact (hne' hy).2.1 e
      rw [if_pos (by omega), if_pos h18]
      have hrep := MatchFinder.replace_eq
        (m := { m with matchPosition := q, matchLength := BitVec.ofNat 5 (compareKeys win r q).1 }) (p := nodeOf q)
        (r := nodeOf r) (d := p) (l := ramRead m.lson q.toNat) (c := ramRead m.rson q.toNat) (by rw [nodeOf_toNat]; exact hql)
        (by rw [nodeOf_toNat]; exact hrl) (by rw [nodeOf_toNat]; exact hdq) (by rw [nodeOf_toNat]) (by rw [nodeOf_toNat])
        hple.2 hlle hcle (Ne.symm hpr)
        (by
          by_cases hcl : cmp = .lt
          · exact .inr ⟨fun h => hlink.1 h hcl, hple.1 hcl⟩
          · exact .inl (hlink.2 hcl))
      simp only [hlink, nodeOf_toNat] at hrep
      obtain ⟨m', hm', hrec, HD, HL, HR⟩ : ∃ m', MatchFinder.replace (nodeOf q) (nodeOf r)
            { m with matchPosition := q, matchLength := BitVec.ofNat 5 (compareKeys win r q).1 } = some m'
          ∧ (m'.matchLength.toNat, m'.matchPosition) = ((compareKeys win r q).1, q)
          ∧ (∀ y, ramRead m'.dad y = if y = q.toNat then Config.NIL
              else if y = (ramRead m.rson q.toNat).toNat ∨ y = (ramRead m.lson q.toNat).toNat then nodeOf r
              else if y = r.toNat then p else ramRead m.dad y)
          ∧ (∀ y, ramRead m'.lson y = if cmp = .lt ∧ y = p.toNat then nodeOf r
              else if y = r.toNat then ramRead m.lson q.toNat else ramRead m.lson y)
          ∧ (∀ y, ramRead m'.rson y = if cmp ≠ .lt ∧ y = p.toNat then nodeOf r
              else if y = r.toNat then ramRead m.rson q.toNat else ramRead m.rson y) := by
        refine ⟨_, hrep, by simp [e18], fun y => ?_, fun y => ?_, fun y => ?_⟩
        · simp only [ramRead_ramWrite]
          grind
        · by_cases hcl : cmp = .lt <;> simp [hcl, ramRead_ramWrite]
        · by_cases hcl : cmp = .lt <;> simp [hcl, ramRead_ramWrite]
      simp only [h18, if_true]
      refine ⟨m', hm', by rw [hrec, if_pos (by omega)], ⟨?_, ?_, ?_, ?_⟩, ?_, ?_, ?_, ?_⟩
      · by_cases hcl : cmp = .lt
        · rw [if_pos hcl, HL, if_pos ⟨hcl, rfl⟩]
        · rw [if_neg hcl, HR, if_pos ⟨hcl, rfl⟩]
      · rw [HD, if_neg hqr, if_neg (fun h => h.elim (fun h => hcq r (.inr rfl) h.symm) (fun h => hlq r (.inr rfl) h.symm)),
          if_pos rfl]
      · rw [HL, if_neg (fun h => hpr' h.2), if_pos rfl]
        refine SearchTree.drawn_reparent hda hna (fun z hz he => ?_) (fun h => ?_) (fun z hz => ?_) (fun z hz => ?_)
        · rw [HD, if_neg (hne hz).1, if_neg, if_neg (hne hz).2.1]
          rintro (h | h)
          · exact hc z hz (BitVec.eq_of_toNat_eq (by rw [nodeOf_toNat]; exact h.symm))
          · exact he (BitVec.eq_of_toNat_eq (by rw [nodeOf_toNat]; exact h))
        · rw [HD, if_neg (hlq q (.inl rfl)), if_pos (.inr rfl)]
        · rw [HL, if_neg (fun h => hap z hz h.2), if_neg (hne hz).2.1]
        · rw [HR, if_neg (fun h => hap z hz h.2), if_neg (hne hz).2.1]
      · rw [HR, if_neg (fun h => hpr' h.2), if_pos rfl]
        refine SearchTree.drawn_reparent hdb hnb (fun z hz he => ?_) (fun h => ?_) (fun z hz => ?_) (fun z hz => ?_)
        · rw [HD, if_neg (hne' hz).1, if_neg, if_neg (hne' hz).2.1]
          rintro (h | h)
          · exact he (BitVec.eq_of_toNat_eq (by rw [nodeOf_toNat]; exact h))
          · exact hl z hz (BitVec.eq_of_toNat_eq (by rw [nodeOf_toNat]; exact h.symm))
        · rw [HD, if_neg (hcq q (.inl rfl)), if_pos (.inl rfl)]
        · rw [HL, if_neg (fun h => hbp z hz h.2), if_neg (hne' hz).2.1]
        · rw [HR, if_neg (fun h => hbp z hz h.2), if_neg (hne' hz).2.1]
      · intro y h1 h2 h3
        rw [HD, if_neg (h1 q (by simp [SearchTree.nodes])), if_neg, if_neg h2]
        rintro (h | h)
        · rcases SearchTree.drawn_link hdb with ⟨-, e⟩ | ⟨z, hz, e⟩
          · rw [e] at h; exact h3 h
          · rw [e, nodeOf_toNat] at h; exact h1 z (by simp [SearchTree.nodes, hz]) h
        · rcases SearchTree.drawn_link hda with ⟨-, e⟩ | ⟨z, hz, e⟩
          · rw [e] at h; exact h3 h
          · rw [e, nodeOf_toNat] at h; exact h1 z (by simp [SearchTree.nodes, hz]) h
      · intro y _ h2 h3; rw [HL, if_neg h3, if_neg h2]
      · intro y _ h2 h3; rw [HR, if_neg h3, if_neg h2]
      · intro z hz
        simp only [SearchTree.nodes, List.mem_append, List.mem_cons] at hz ⊢
        rcases hz with hz | rfl | hz
        · exact .inl (.inl hz)
        · exact .inr (fun h => h (by rw [HD, if_pos rfl]))
        · exact .inl (.inr (.inr hz))
    · have below : ∀ m1 : MatchFinder, m1.lson = m.lson → m1.rson = m.rson → m1.dad = m.dad → m1.matchLength.toNat < 18 →
          ∃ m', m1.walk win r fuel (compareKeys win r q).2 (nodeOf q) = some m'
            ∧ (m'.matchLength.toNat, m'.matchPosition)
              = (if (compareKeys win r q).2 = .lt then a.bestMatch win r (m1.matchLength.toNat, m1.matchPosition)
                else b.bestMatch win r (m1.matchLength.toNat, m1.matchPosition))
            ∧ (if (compareKeys win r q).2 = .lt then SearchTree.node (a.inserted win r) q b
                else SearchTree.node a q (b.inserted win r)).drawn m' p
                  (if cmp = .lt then ramRead m'.lson p.toNat else ramRead m'.rson p.toNat)
            ∧ (∀ y, (∀ z ∈ (SearchTree.node a q b).nodes, y ≠ z.toNat) → y ≠ r.toNat → y ≠ 4096 →
                ramRead m'.dad y = ramRead m.dad y)
            ∧ (∀ y, (∀ z ∈ (SearchTree.node a q b).nodes, y ≠ z.toNat) → y ≠ r.toNat → ¬ (cmp = .lt ∧ y = p.toNat) →
                ramRead m'.lson y = ramRead m.lson y)
            ∧ (∀ y, (∀ z ∈ (SearchTree.node a q b).nodes, y ≠ z.toNat) → y ≠ r.toNat → ¬ (cmp ≠ .lt ∧ y = p.toNat) →
                ramRead m'.rson y = ramRead m.rson y)
            ∧ (∀ z ∈ (SearchTree.node a q b).nodes,
                z ∈ (if (compareKeys win r q).2 = .lt then SearchTree.node (a.inserted win r) q b
                  else SearchTree.node a q (b.inserted win r)).nodes ∨ ¬ m'.attached z) := by
        intro m1 el er ed hb1
        have hxq : nodeOf q = if cmp = .lt then ramRead m.lson p.toNat else ramRead m.rson p.toNat := hxv
        by_cases hlt : (compareKeys win r q).2 = .lt
        · have hda1 : a.drawn m1 (nodeOf q) (ramRead m.lson q.toNat) :=
            SearchTree.drawn_frame hda (fun _ _ => by rw [ed]) (fun _ _ => by rw [el]) (fun _ _ => by rw [er])
          obtain ⟨m', w1, w2, w3, w4, w5, w6, w7⟩ := iha (fuel := fuel) (cmp := .lt) (p := nodeOf q)
            (x := ramRead m.lson q.toNat) (m := m1)
            (by rw [if_pos rfl, MatchFinder.left_eq (by rw [nodeOf_toNat]; omega), nodeOf_toNat, el]) hda1 hna
            (fun z hz => hw z (by simp [hz])) hra (by omega) hb1 (by rw [el]; exact hlr) (by rw [er]; exact hrr)
            (fun z hz e => hqa (nodeOf_inj.1 e ▸ hz)) (fun e => hrq (nodeOf_inj.1 e)) (nodeOf_ne_nil q)
            (fun _ z hz e => by
              rw [nodeOf_toNat, er] at e
              rcases SearchTree.drawn_link hdb with ⟨-, h⟩ | ⟨y, hy, h⟩
              · rw [h] at e; exact nodeOf_ne_nil z e.symm
              · rw [h] at e; exact hab z hz y (by simp [hy]) (nodeOf_inj.1 e).symm)
            (by rw [nodeOf_toNat]; exact hqr) ⟨fun _ => by rw [nodeOf_toNat]; omega, by rw [nodeOf_toNat]; omega⟩
            (by rw [if_pos rfl, nodeOf_toNat, el])
          rw [if_pos rfl, nodeOf_toNat] at w3
          rw [hlt]
          refine ⟨m', w1, ?_, ?_, ?_, ?_, ?_, ?_⟩
          · rw [if_pos rfl]; exact w2
          · rw [if_pos rfl]
            refine ⟨?_, ?_, w3, ?_⟩
            · rw [hxq]
              split
              · rw [w5 p.toNat (fun z hz => (hap z hz).symm) (Ne.symm hpr')
                  (fun h => hqp' (by have := h.2; rw [nodeOf_toNat] at this; exact this.symm)), el]
              · rw [w6 p.toNat (fun z hz => (hap z hz).symm) (Ne.symm hpr') (fun h => h.1 rfl), er]
            · rw [w4 q.toNat (fun z hz => (hne hz).1.symm) (Ne.symm hqr) (by omega), ed]; exact hdq
            · rw [w6 q.toNat (fun z hz => (hne hz).1.symm) (Ne.symm hqr) (fun h => h.1 rfl), er]
              refine SearchTree.drawn_frame hdb (fun z hz => ?_) (fun z hz => ?_) (fun z hz => ?_)
              · rw [w4 z.toNat (fun y hy => (hdis hy hz).symm) (hne' hz).2.1 (hne' hz).2.2, ed]
              · rw [w5 z.toNat (fun y hy => (hdis hy hz).symm) (hne' hz).2.1
                  (fun h => (hne' hz).1 (by have := h.2; rwa [nodeOf_toNat] at this)), el]
              · rw [w6 z.toNat (fun y hy => (hdis hy hz).symm) (hne' hz).2.1 (fun h => h.1 rfl), er]
          · intro y h1 h2 h3
            rw [w4 y (fun z hz => h1 z (by simp [SearchTree.nodes, hz])) h2 h3, ed]
          · intro y h1 h2 h3
            rw [w5 y (fun z hz => h1 z (by simp [SearchTree.nodes, hz])) h2
              (fun h => h1 q (by simp [SearchTree.nodes]) (by have := h.2; rwa [nodeOf_toNat] at this)), el]
          · intro y h1 h2 h3
            rw [w6 y (fun z hz => h1 z (by simp [SearchTree.nodes, hz])) h2 (fun h => h.1 rfl), er]
          · intro z hz
            rw [if_pos rfl]
            simp only [SearchTree.nodes, List.mem_append, List.mem_cons] at hz ⊢
            rcases hz with hz | hz
            · exact (w7 z hz).imp .inl id
            · exact .inl (.inr hz)
        · have hdb1 : b.drawn m1 (nodeOf q) (ramRead m.rson q.toNat) :=
            SearchTree.drawn_frame hdb (fun _ _ => by rw [ed]) (fun _ _ => by rw [el]) (fun _ _ => by rw [er])
          obtain ⟨m', w1, w2, w3, w4, w5, w6, w7⟩ := ihb (fuel := fuel) (cmp := (compareKeys win r q).2) (p := nodeOf q)
            (x := ramRead m.rson q.toNat) (m := m1)
            (by rw [if_neg hlt, MatchFinder.right_eq (by rw [nodeOf_toNat]; omega), nodeOf_toNat, er]) hdb1 hnb
            (fun z hz => hw z (by simp [hz])) hrb (by omega) hb1 (by rw [el]; exact hlr) (by rw [er]; exact hrr)
            (fun z hz e => hqb (nodeOf_inj.1 e ▸ hz)) (fun e => hrq (nodeOf_inj.1 e)) (nodeOf_ne_nil q)
            (fun h => absurd h hlt) (by rw [nodeOf_toNat]; exact hqr)
            ⟨fun _ => by rw [nodeOf_toNat]; omega, by rw [nodeOf_toNat]; omega⟩
            (by rw [if_neg hlt, nodeOf_toNat, er])
          rw [if_neg hlt, nodeOf_toNat] at w3
          refine ⟨m', w1, ?_, ?_, ?_, ?_, ?_, ?_⟩
          · rw [if_neg hlt]; exact w2
          · rw [if_neg hlt]
            refine ⟨?_, ?_, ?_, w3⟩
            · rw [hxq]
              split
              · rw [w5 p.toNat (fun z hz => (hbp z hz).symm) (Ne.symm hpr') (fun h => hlt h.1), el]
              · rw [w6 p.toNat (fun z hz => (hbp z hz).symm) (Ne.symm hpr')
                  (fun h => hqp' (by have := h.2; rw [nodeOf_toNat] at this; exact this.symm)), er]
            · rw [w4 q.toNat (fun z hz => (hne' hz).1.symm) (Ne.symm hqr) (by omega), ed]; exact hdq
            · rw [w5 q.toNat (fun z hz => (hne' hz).1.symm) (Ne.symm hqr) (fun h => hlt h.1), el]
              refine SearchTree.drawn_frame hda (fun z hz => ?_) (fun z hz => ?_) (fun z hz => ?_)
              · rw [w4 z.toNat (fun y hy => hdis hz hy) (hne hz).2.1 (hne hz).2.2, ed]
              · rw [w5 z.toNat (fun y hy => hdis hz hy) (hne hz).2.1 (fun h => hlt h.1), el]
              · rw [w6 z.toNat (fun y hy => hdis hz hy) (hne hz).2.1
                  (fun h => (hne hz).1 (by have := h.2; rwa [nodeOf_toNat] at this)), er]
          · intro y h1 h2 h3
            rw [w4 y (fun z hz => h1 z (by simp [SearchTree.nodes, hz])) h2 h3, ed]
          · intro y h1 h2 h3
            rw [w5 y (fun z hz => h1 z (by simp [SearchTree.nodes, hz])) h2 (fun h => hlt h.1), el]
          · intro y h1 h2 h3
            rw [w6 y (fun z hz => h1 z (by simp [SearchTree.nodes, hz])) h2
              (fun h => h1 q (by simp [SearchTree.nodes]) (by have := h.2; rwa [nodeOf_toNat] at this)), er]
          · intro z hz
            rw [if_neg hlt]
            simp only [SearchTree.nodes, List.mem_append, List.mem_cons] at hz ⊢
            rcases hz with hz | rfl | hz
            · exact .inl (.inl hz)
            · exact .inl (.inr (.inl rfl))
            · exact (w7 z hz).imp (fun h => .inr (.inr h)) id
      have hlt18 : (compareKeys win r q).1 < 18 := by omega
      simp only [h18, if_false]
      by_cases hb : m.matchLength.toNat < (compareKeys win r q).1
      · have e5 : (BitVec.ofNat 5 (compareKeys win r q).1).toNat = (compareKeys win r q).1 := by simp; omega
        rw [if_pos hb, if_pos hb]
        have := below { m with matchPosition := q, matchLength := BitVec.ofNat 5 (compareKeys win r q).1 } rfl rfl rfl
          (by rw [e5]; exact hlt18)
        simp only [e5] at this
        exact this
      · rw [if_neg hb, if_neg hb]
        exact below m rfl rfl rfl hbest

/-! ### The tree and the record after INSERT -/

theorem SearchTree.mem_inserted {win : Memory} {r : WinPos} {t : SearchTree} {y : WinPos}
    (h : y ∈ (t.inserted win r).nodes) : y = r ∨ y ∈ t.nodes := by
  induction t with
  | nil => simpa [SearchTree.inserted, SearchTree.nodes] using h
  | node a q b iha ihb =>
    rw [SearchTree.inserted] at h
    split at h
    · simp only [SearchTree.nodes, List.mem_append, List.mem_cons] at h ⊢
      tauto
    · split at h <;> simp only [SearchTree.nodes, List.mem_append, List.mem_cons] at h ⊢
      · rcases h with h | h
        · rcases iha h with h | h <;> tauto
        · tauto
      · rcases h with h | h | h
        · tauto
        · tauto
        · rcases ihb h with h | h <;> tauto

theorem SearchTree.self_mem_inserted (win : Memory) (r : WinPos) (t : SearchTree) : r ∈ (t.inserted win r).nodes := by
  induction t with
  | nil => simp [SearchTree.inserted, SearchTree.nodes]
  | node a q b iha ihb =>
    rw [SearchTree.inserted]
    split
    · simp [SearchTree.nodes]
    · split <;> simp [SearchTree.nodes, iha, ihb]

theorem SearchTree.inserted_nodup {win : Memory} {r : WinPos} {t : SearchTree} (h : t.nodes.Nodup) (hr : r ∉ t.nodes) :
    (t.inserted win r).nodes.Nodup := by
  induction t with
  | nil => simp [SearchTree.inserted, SearchTree.nodes]
  | node a q b iha ihb =>
    simp only [SearchTree.nodes, List.nodup_append, List.nodup_cons, List.mem_append, List.mem_cons] at h hr
    obtain ⟨ha, ⟨hq, hb⟩, hab⟩ := h
    rw [SearchTree.inserted]
    split
    · simp only [SearchTree.nodes, List.nodup_append, List.nodup_cons, List.mem_cons]
      refine ⟨ha, ⟨by tauto, hb⟩, fun y hy z hz => ?_⟩
      rintro rfl
      rcases hz with rfl | hz
      · tauto
      · exact hab y hy y (.inr hz) rfl
    · split <;> simp only [SearchTree.nodes, List.nodup_append, List.nodup_cons, List.mem_cons]
      · refine ⟨iha ha (by tauto), ⟨hq, hb⟩, fun y hy z hz => ?_⟩
        rintro rfl
        rcases SearchTree.mem_inserted hy with rfl | hy
        · tauto
        · exact hab y hy y hz rfl
      · refine ⟨ha, ⟨fun h => ?_, ihb hb (by tauto)⟩, fun y hy z hz => ?_⟩
        · rcases SearchTree.mem_inserted h with rfl | h <;> tauto
        · rintro rfl
          rcases hz with rfl | hz
          · exact hab y hy y (.inl rfl) rfl
          · rcases SearchTree.mem_inserted hz with rfl | hz
            · tauto
            · exact hab y hy y (.inr hz) rfl

/-- INSERT keeps the keys in order (R47 d). -/
theorem SearchTree.inserted_sorted {win : Memory} {r : WinPos} {t : SearchTree} (h : t.nodes.Pairwise (keyLe win))
    (hw : ∀ q ∈ t.nodes, win.byteT q = win.byteT r) : (t.inserted win r).nodes.Pairwise (keyLe win) := by
  induction t with
  | nil => simp [SearchTree.inserted, SearchTree.nodes]
  | node a q b iha ihb =>
    simp only [SearchTree.nodes, List.pairwise_append, List.pairwise_cons, List.mem_append, List.mem_cons] at h hw
    obtain ⟨ha, ⟨hq, hb⟩, hab⟩ := h
    obtain ⟨hf, -, hf'⟩ := compareKeys_found (win := win) (r := r) (p := q) (hw q (by simp)).symm
    rw [SearchTree.inserted]
    split
    · next h18 =>
      have e18 : (compareKeys win r q).1 = 18 := by omega
      rw [e18] at hf
      simp only [SearchTree.nodes, List.pairwise_append, List.pairwise_cons, List.mem_cons]
      refine ⟨ha, ⟨fun z hz => keyLe_trans (.inl hf) (hq z hz), hb⟩, fun y hy z hz => ?_⟩
      rcases hz with rfl | hz
      · exact keyLe_trans (hab y hy q (.inl rfl)) (.inl (keysAgree_symm hf))
      · exact hab y hy z (.inr hz)
    · next h18 =>
      split <;> simp only [SearchTree.nodes, List.pairwise_append, List.pairwise_cons, List.mem_cons]
      · next hlt =>
        have hrq : keyLt win r q := by
          rcases hf' with h | ⟨-, -, ⟨-, h⟩ | ⟨h, -⟩⟩
          · omega
          · exact h
          · rw [hlt] at h; cases h
        refine ⟨iha ha (fun y hy => hw y (.inl hy)), ⟨hq, hb⟩, fun y hy z hz => ?_⟩
        rcases SearchTree.mem_inserted hy with rfl | hy
        · rcases hz with rfl | hz
          · exact .inr hrq
          · exact keyLe_trans (.inr hrq) (hq z hz)
        · exact hab y hy z hz
      · next hlt =>
        have hrq : keyLt win q r := by
          rcases hf' with h | ⟨-, -, ⟨h, -⟩ | ⟨-, h⟩⟩
          · omega
          · exact absurd h hlt
          · exact h
        refine ⟨ha, ⟨fun z hz => ?_, ihb hb (fun y hy => hw y (.inr (.inr hy)))⟩, fun y hy z hz => ?_⟩
        · rcases SearchTree.mem_inserted hz with rfl | hz
          · exact .inr hrq
          · exact hq z hz
        · rcases hz with rfl | hz
          · exact hab y hy z (.inl rfl)
          · rcases SearchTree.mem_inserted hz with rfl | hz
            · exact keyLe_trans (hab y hy q (.inl rfl)) (.inr hrq)
            · exact hab y hy z (.inr hz)

/-- The record is the one before, or a node of the tree with the common prefix it says. -/
theorem SearchTree.bestMatch_mem {win : Memory} {r : WinPos} {t : SearchTree} {best : Nat × WinPos}
    (hw : ∀ q ∈ t.nodes, win.byteT q = win.byteT r) :
    t.bestMatch win r best = best
    ∨ ((t.bestMatch win r best).2 ∈ t.nodes ∧ best.1 < (t.bestMatch win r best).1 ∧ (t.bestMatch win r best).1 ≤ 18
      ∧ keysAgree win (t.bestMatch win r best).1 r (t.bestMatch win r best).2) := by
  induction t generalizing best with
  | nil => exact .inl rfl
  | node a q b iha ihb =>
    simp only [SearchTree.nodes, List.mem_append, List.mem_cons] at hw ⊢
    obtain ⟨hf, -, hf'⟩ := compareKeys_found (win := win) (r := r) (p := q) (hw q (by simp)).symm
    have hle : (compareKeys win r q).1 ≤ 18 := by omega
    rw [SearchTree.bestMatch]
    by_cases hb : best.1 < (compareKeys win r q).1
    · rw [if_pos hb]
      split
      · exact .inr ⟨.inr (.inl rfl), hb, hle, hf⟩
      · split
        · rcases iha (best := ((compareKeys win r q).1, q)) (fun y hy => hw y (.inl hy)) with e | ⟨e1, e2, e3, e4⟩
          · rw [e]; exact .inr ⟨.inr (.inl rfl), hb, hle, hf⟩
          · exact .inr ⟨.inl e1, by simp only at e2; omega, e3, e4⟩
        · rcases ihb (best := ((compareKeys win r q).1, q)) (fun y hy => hw y (.inr (.inr hy))) with e | ⟨e1, e2, e3, e4⟩
          · rw [e]; exact .inr ⟨.inr (.inl rfl), hb, hle, hf⟩
          · exact .inr ⟨.inr (.inr e1), by simp only at e2; omega, e3, e4⟩
    · rw [if_neg hb]
      split
      · exact .inl rfl
      · split
        · exact (iha (fun y hy => hw y (.inl hy))).imp id (fun h => ⟨.inl h.1, h.2⟩)
        · exact (ihb (fun y hy => hw y (.inr (.inr hy)))).imp id (fun h => ⟨.inr (.inr h.1), h.2⟩)

theorem SearchTree.bestMatch_ge {win : Memory} {r : WinPos} {t : SearchTree} {best : Nat × WinPos}
    (hw : ∀ q ∈ t.nodes, win.byteT q = win.byteT r) : best.1 ≤ (t.bestMatch win r best).1 := by
  rcases SearchTree.bestMatch_mem (best := best) hw with e | ⟨-, h, -⟩
  · rw [e]
  · omega

/-- No node of an ordered tree has a longer common prefix with `r` than the record says (R150). -/
theorem SearchTree.bestMatch_longest {win : Memory} {r : WinPos} {t : SearchTree} {best : Nat × WinPos}
    (hs : t.nodes.Pairwise (keyLe win)) (hw : ∀ q ∈ t.nodes, win.byteT q = win.byteT r) {z : WinPos} (hz : z ∈ t.nodes)
    {n : Nat} (hn : n ≤ 18) (hag : keysAgree win n r z) : n ≤ (t.bestMatch win r best).1 := by
  induction t generalizing best with
  | nil => cases hz
  | node a q b iha ihb =>
    simp only [SearchTree.nodes, List.pairwise_append, List.pairwise_cons, List.mem_append, List.mem_cons] at hs hw hz
    obtain ⟨ha, ⟨hq, hb⟩, hab⟩ := hs
    obtain ⟨hf, -, hf'⟩ := compareKeys_found (win := win) (r := r) (p := q) (hw q (by simp)).symm
    -- a common prefix of `r` and `q` is no longer than COMPARE says
    have atq : ∀ {k : Nat}, k ≤ 18 → keysAgree win k r q → k ≤ (compareKeys win r q).1 := by
      intro k hk hag
      rcases hf' with h | ⟨h, hne, -⟩
      · omega
      · by_contra hlt
        exact hne (hag _ (by omega))
    rw [SearchTree.bestMatch]
    have hbest : (compareKeys win r q).1
        ≤ (if best.1 < (compareKeys win r q).1 then ((compareKeys win r q).1, q) else best).1 := by
      split
      · exact Nat.le_refl _
      · omega
    split
    · omega
    · next h18 =>
      split
      · next hlt =>
        have hrq : keyLt win r q := by
          rcases hf' with h | ⟨-, -, ⟨-, h⟩ | ⟨h, -⟩⟩
          · omega
          · exact h
          · rw [hlt] at h; cases h
        rcases hz with hz | hz
        · exact iha ha (fun y hy => hw y (.inl hy)) hz
        · have : keysAgree win n r q := by
            rcases hz with rfl | hz
            · exact hag
            · exact agree_of_between hrq (hq z hz) hag
          exact ((atq hn this).trans hbest).trans (SearchTree.bestMatch_ge (fun y hy => hw y (.inl hy)))
      · next hlt =>
        have hrq : keyLt win q r := by
          rcases hf' with h | ⟨-, -, ⟨h, -⟩ | ⟨-, h⟩⟩
          · omega
          · exact absurd h hlt
          · exact h
        rcases hz with hz | hz | hz
        · have : keysAgree win n r q := agree_of_between_right (hab z hz q (.inl rfl)) hrq hag
          exact ((atq hn this).trans hbest).trans (SearchTree.bestMatch_ge (fun y hy => hw y (.inr (.inr hy))))
        · subst hz
          exact ((atq hn hag).trans hbest).trans (SearchTree.bestMatch_ge (fun y hy => hw y (.inr (.inr hy))))
        · exact ihb hb (fun y hy => hw y (.inr (.inr hy))) hz

/-- INSERT takes out exactly the node whose whole key is `r`'s, and the record then names it (R145). -/
theorem SearchTree.inserted_evicts {win : Memory} {r : WinPos} {t : SearchTree} {best : Nat × WinPos} (hb : best.1 < 18)
    (hn : t.nodes.Nodup) (hr : r ∉ t.nodes) (hw : ∀ q ∈ t.nodes, win.byteT q = win.byteT r) {z : WinPos}
    (hz : z ∈ t.nodes) :
    z ∈ (t.inserted win r).nodes ↔ ¬ ((t.bestMatch win r best).1 = 18 ∧ z = (t.bestMatch win r best).2) := by
  induction t generalizing best with
  | nil => cases hz
  | node a q b iha ihb =>
    simp only [SearchTree.nodes, List.nodup_append, List.nodup_cons, List.mem_append, List.mem_cons] at hn hw hz hr
    obtain ⟨hna, ⟨hqb, hnb⟩, hab⟩ := hn
    obtain ⟨-, -, hf'⟩ := compareKeys_found (win := win) (r := r) (p := q) (hw q (by simp)).symm
    rw [SearchTree.inserted, SearchTree.bestMatch]
    by_cases h18 : 18 ≤ (compareKeys win r q).1
    · have e18 : (compareKeys win r q).1 = 18 := by omega
      rw [if_pos h18, if_pos h18, if_pos (by omega)]
      simp only [SearchTree.nodes, List.mem_append, List.mem_cons, e18, true_and]
      constructor
      · rintro (h | rfl | h) rfl
        · exact hab z h z (.inl rfl) rfl
        · tauto
        · exact hqb h
      · intro h
        tauto
    · rw [if_neg h18, if_neg h18]
      have hb' : (if best.1 < (compareKeys win r q).1 then ((compareKeys win r q).1, q) else best).1 < 18 := by
        split
        · simp only; omega
        · exact hb
      generalize hbd : (if best.1 < (compareKeys win r q).1 then ((compareKeys win r q).1, q) else best) = best' at hb' ⊢
      split
      · have hout : z = q ∨ z ∈ b.nodes → ¬ ((a.bestMatch win r best').1 = 18 ∧ z = (a.bestMatch win r best').2) := by
          rintro h ⟨h1, rfl⟩
          rcases SearchTree.bestMatch_mem (t := a) (best := best') (fun y hy => hw y (.inl hy)) with e | ⟨e, -⟩
          · rw [e] at h1; omega
          · exact hab _ e _ h rfl
        simp only [SearchTree.nodes, List.mem_append, List.mem_cons]
        rcases hz with hz | hz
        · rw [← iha hb' hna (by tauto) (fun y hy => hw y (.inl hy)) hz]
          refine ⟨fun h => h.elim id (fun h => absurd rfl (hab z hz z h)), .inl⟩
        · exact iff_of_true (.inr hz) (hout hz)
      · have hout : z ∈ a.nodes ∨ z = q → ¬ ((b.bestMatch win r best').1 = 18 ∧ z = (b.bestMatch win r best').2) := by
          rintro h ⟨h1, rfl⟩
          rcases SearchTree.bestMatch_mem (t := b) (best := best') (fun y hy => hw y (.inr (.inr hy))) with e | ⟨e, -⟩
          · rw [e] at h1; omega
          · rcases h with h | h
            · exact hab _ h _ (.inr e) rfl
            · exact hqb (h ▸ e)
        simp only [SearchTree.nodes, List.mem_append, List.mem_cons]
        rcases hz with hz | hz | hz
        · exact iff_of_true (.inl hz) (hout (.inl hz))
        · exact iff_of_true (.inr (.inl hz)) (hout (.inr hz))
        · rw [← ihb hb' hnb (by tauto) (fun y hy => hw y (.inr (.inr hy))) hz]
          refine ⟨fun h => ?_, fun h => .inr (.inr h)⟩
          rcases h with h | h | h
          · exact absurd rfl (hab z h z (.inr hz))
          · exact absurd hz (h ▸ hqb)
          · exact h

/-! ### DELETE: the in-order predecessor (R147) -/

/-- A tree is the tree without its last node, and that node after it. -/
theorem SearchTree.splitLast_nodes (l : SearchTree) (p : WinPos) (r : SearchTree) :
    (SearchTree.splitLast l p r).1.nodes ++ [(SearchTree.splitLast l p r).2] = l.nodes ++ p :: r.nodes := by
  induction r generalizing l p with
  | nil => simp [SearchTree.splitLast, SearchTree.nodes]
  | node l' p' r' _ ih => simp [SearchTree.splitLast, SearchTree.nodes, ih]

/-- The subtrees of a node, joined, are its tree without it, in the same order (R147). -/
theorem SearchTree.join_nodes (l r : SearchTree) : (l.join r).nodes = l.nodes ++ r.nodes := by
  cases r with
  | nil => simp [SearchTree.join, SearchTree.nodes]
  | node a q b =>
    cases l with
    | nil => simp [SearchTree.join, SearchTree.nodes]
    | node l' p r' =>
      rw [SearchTree.join]
      · have h := SearchTree.splitLast_nodes l' p r'
        simp only [SearchTree.nodes]
        rw [← List.singleton_append, ← List.append_assoc, h]
      · simp

/-- Unlinking the last node of a drawn tree whose top node has a right child: the walk down right children finds it, the links
that then change draw the rest of the tree, and its own left link leads to nothing that stays elsewhere (R147). -/
theorem SearchTree.splitLast_drawn {m : MatchFinder} {l r : SearchTree} {p : WinPos} {parent : TreeIndex} {fuel : Nat}
    (h : (SearchTree.node l p r).drawn m parent (nodeOf p)) (hn : (SearchTree.node l p r).nodes.Nodup) (hr : r ≠ .nil)
    (hfuel : r.nodes.length < fuel) :
    let q := (SearchTree.splitLast l p r).2
    m.rightmost fuel (nodeOf p) = some (nodeOf q)
    ∧ ∃ z ∈ (SearchTree.splitLast l p r).1.nodes, ramRead m.dad q.toNat = nodeOf z
      ∧ (ramRead m.lson q.toNat = Config.NIL
        ∨ ∃ y ∈ (SearchTree.splitLast l p r).1.nodes, y ≠ z ∧ y ≠ p ∧ ramRead m.lson q.toNat = nodeOf y)
      ∧ ∀ n : MatchFinder,
        ramRead n.rson z.toNat = ramRead m.lson q.toNat →
        (∀ y ∈ (SearchTree.splitLast l p r).1.nodes, y ≠ z → ramRead n.rson y.toNat = ramRead m.rson y.toNat) →
        (∀ y ∈ (SearchTree.splitLast l p r).1.nodes, ramRead n.lson y.toNat = ramRead m.lson y.toNat) →
        (∀ y ∈ (SearchTree.splitLast l p r).1.nodes, nodeOf y = ramRead m.lson q.toNat → ramRead n.dad y.toNat = nodeOf z) →
        (∀ y ∈ (SearchTree.splitLast l p r).1.nodes, y ≠ p → nodeOf y ≠ ramRead m.lson q.toNat →
          ramRead n.dad y.toNat = ramRead m.dad y.toNat) →
        (SearchTree.splitLast l p r).1.drawn n (ramRead n.dad p.toNat) (nodeOf p) := by
  induction r generalizing l p parent fuel with
  | nil => exact absurd rfl hr
  | node l' p' r' _ ih =>
    obtain ⟨fuel, rfl⟩ : ∃ k, fuel = k + 1 := ⟨fuel - 1, by omega⟩
    have hpl := p.isLt
    have hpl' := p'.isLt
    obtain ⟨-, hd, hdl, hx, hd', hdl', hdr'⟩ := h
    have hnode := hn
    simp only [SearchTree.nodes, List.nodup_append, List.nodup_cons, List.mem_append, List.mem_cons] at hn
    obtain ⟨n1, ⟨n2, n3, ⟨n4, n5⟩, n6⟩, n7⟩ := hn
    have hwalk : m.rightmost (fuel + 1) (nodeOf p) = m.rightmost fuel (nodeOf p') := by
      rw [MatchFinder.rightmost, MatchFinder.right_eq (by rw [nodeOf_toNat]; omega), nodeOf_toNat, hx]
      simp only
      rw [if_neg (nodeOf_ne_nil p')]
    by_cases hr' : r' = .nil
    · subst hr'
      have hx' : ramRead m.rson p'.toNat = Config.NIL := hdr'
      obtain ⟨fuel, rfl⟩ : ∃ k, fuel = k + 1 := ⟨fuel - 1, by simp [SearchTree.nodes] at hfuel; omega⟩
      simp only [SearchTree.splitLast, SearchTree.nodes, List.mem_append, List.mem_cons]
      refine ⟨?_, p, by simp, hd', ?_, ?_⟩
      · rw [hwalk, MatchFinder.rightmost, MatchFinder.right_eq (by rw [nodeOf_toNat]; omega), nodeOf_toNat, hx']
        simp
      · rcases SearchTree.drawn_link hdl' with ⟨-, e⟩ | ⟨y, hy, e⟩
        · exact .inl e
        · have : y ≠ p := fun e => n2 (.inl (e ▸ hy))
          exact .inr ⟨y, by simp [hy], this, this, e⟩
      · intro n h0 h1 h2 h3 h4
        refine ⟨rfl, rfl, ?_, ?_⟩
        · rw [h2 p (by simp)]
          refine SearchTree.drawn_frame hdl (fun y hy => h4 y (by simp [hy]) (n7 y hy p (by simp)) (fun e => ?_))
            (fun y hy => h2 y (by simp [hy])) (fun y hy => h1 y (by simp [hy]) (n7 y hy p (by simp)))
          rcases SearchTree.drawn_link hdl' with ⟨-, e'⟩ | ⟨z, hz, e'⟩
          · exact nodeOf_ne_nil y (e.trans e')
          · exact n7 y hy z (by simp [hz]) (nodeOf_inj.1 (e.trans e'))
        · rw [h0]
          refine SearchTree.drawn_reparent hdl' n3 (fun y hy he => h4 y (by simp [hy]) (fun e => n2 (.inl (e ▸ hy))) he)
            (fun hne => ?_) (fun y hy => h2 y (by simp [hy])) (fun y hy => h1 y (by simp [hy]) (fun e => n2 (.inl (e ▸ hy))))
          rcases SearchTree.drawn_link hdl' with ⟨-, e'⟩ | ⟨z, hz, e'⟩
          · exact absurd e' hne
          · have := h3 z (by simp [hz]) e'.symm
            rwa [e', nodeOf_toNat]
    · obtain ⟨hw, z, hz, hdz, hlq, hdraw⟩ := ih (l := l') (p := p') (parent := nodeOf p) (fuel := fuel)
        ⟨rfl, hd', hdl', hdr'⟩ (by
          simp only [SearchTree.nodes, List.nodup_append, List.nodup_cons, List.mem_cons]
          exact ⟨n3, ⟨n4, n5⟩, n6⟩) hr'
        (by simp [SearchTree.nodes] at hfuel; omega)
      have hmem : ∀ y, y ∈ (SearchTree.splitLast l' p' r').1.nodes → y ∈ l'.nodes ∨ y = p' ∨ y ∈ r'.nodes := by
        intro y hy
        have := congrArg (y ∈ ·) (SearchTree.splitLast_nodes l' p' r')
        simp only [List.mem_append, List.mem_cons, eq_iff_iff] at this
        exact this.1 (.inl hy)
      have hp' : p' ∈ (SearchTree.splitLast l' p' r').1.nodes := by
        cases r' with
        | nil => exact absurd rfl hr'
        | node => simp [SearchTree.splitLast, SearchTree.nodes]
      have hneP : ∀ y, y ∈ (SearchTree.splitLast l' p' r').1.nodes → y ≠ p := by
        rintro y hy rfl
        exact n2 (hmem y hy)
      have hneL : ∀ y ∈ l.nodes, ∀ w ∈ (SearchTree.splitLast l' p' r').1.nodes, y ≠ w :=
        fun y hy w hw => n7 y hy w (.inr (hmem w hw))
      simp only [SearchTree.splitLast, SearchTree.nodes, List.mem_append, List.mem_cons]
      refine ⟨hwalk.trans hw, z, by simp [hz], hdz, ?_, ?_⟩
      · refine hlq.imp id ?_
        rintro ⟨y, hy, h1, h2, h3⟩
        exact ⟨y, by simp [hy], h1, hneP y hy, h3⟩
      · intro n h0 h1 h2 h3 h4
        have hlqne : ∀ y, (∀ w ∈ (SearchTree.splitLast l' p' r').1.nodes, y ≠ w) →
            nodeOf y ≠ ramRead m.lson (SearchTree.splitLast l' p' r').2.toNat := by
          intro y hy e
          rcases hlq with e' | ⟨w, hw, -, -, e'⟩
          · exact nodeOf_ne_nil y (e.trans e')
          · exact hy w hw (nodeOf_inj.1 (e.trans e'))
        refine ⟨rfl, rfl, ?_, ?_⟩
        · rw [h2 p (by simp)]
          exact SearchTree.drawn_frame hdl
            (fun y hy => h4 y (by simp [hy]) (n7 y hy p (by simp)) (hlqne y (hneL y hy)))
            (fun y hy => h2 y (by simp [hy])) (fun y hy => h1 y (by simp [hy]) (hneL y hy z hz))
        · rw [h1 p (by simp) (Ne.symm (hneP z hz)), hx]
          have hdp' : ramRead n.dad p'.toNat = nodeOf p := by
            rw [h4 p' (by simp [hp']) (hneP p' hp') ?_, hd']
            intro e
            rcases hlq with e' | ⟨w, hw, -, h5, e'⟩
            · exact nodeOf_ne_nil p' (e.trans e')
            · exact h5 (nodeOf_inj.1 (e.trans e')).symm
          rw [← hdp']
          exact hdraw n h0 (fun y hy => h1 y (by simp [hy])) (fun y hy => h2 y (by simp [hy]))
            (fun y hy => h3 y (by simp [hy])) (fun y hy _ => h4 y (by simp [hy]) (hneP y hy))
/-- DELETE's two-children case on a drawn tree (R147): the in-order predecessor `q`, the last node of the left subtree, ends up
over the joined subtrees, whatever its parent link then is; no link outside the two subtrees changes. -/
theorem MatchFinder.adopt_drawn {m : MatchFinder} {a b : SearchTree} {p : WinPos} {d : TreeIndex}
    (h : (SearchTree.node a p b).drawn m d (nodeOf p)) (hn : (SearchTree.node a p b).nodes.Nodup) (ha : a ≠ .nil)
    (hb : b ≠ .nil) :
    ∃ m' q, m.adopt (nodeOf p) (ramRead m.lson p.toNat) (ramRead m.rson p.toNat) = some (m', nodeOf q) ∧ q ∈ a.nodes
      ∧ m'.matchPosition = m.matchPosition ∧ m'.matchLength = m.matchLength
      ∧ (∀ x : Nat, (∀ y ∈ a.nodes ++ b.nodes, x ≠ y.toNat) →
          (x ≠ 4096 → ramRead m'.dad x = ramRead m.dad x) ∧ ramRead m'.lson x = ramRead m.lson x
            ∧ ramRead m'.rson x = ramRead m.rson x)
      ∧ ∀ n : MatchFinder,
        (∀ y ∈ a.nodes ++ b.nodes, y ≠ q → ramRead n.dad y.toNat = ramRead m'.dad y.toNat) →
        (∀ y ∈ a.nodes ++ b.nodes, ramRead n.lson y.toNat = ramRead m'.lson y.toNat) →
        (∀ y ∈ a.nodes ++ b.nodes, ramRead n.rson y.toNat = ramRead m'.rson y.toNat) →
        (a.join b).drawn n (ramRead n.dad q.toNat) (nodeOf q) := by
  obtain ⟨-, -, hda, hdb⟩ := h
  have pos_ne : ∀ {a b : WinPos}, a ≠ b → a.toNat ≠ b.toNat := fun h e => h (BitVec.eq_of_toNat_eq e)
  have lt : ∀ z : WinPos, z.toNat < 4096 := fun z => z.isLt
  have hpl := lt p
  cases a with
  | nil => exact absurd rfl ha
  | node l r0 r =>
  cases b with
  | nil => exact absurd rfl hb
  | node bl b0 br =>
  have hb' := hb
  obtain ⟨hl, hd0, hdl, hdr⟩ := hda
  have hbx : ramRead m.rson p.toNat = nodeOf b0 := hdb.1
  rw [hl]
  generalize hB : SearchTree.node bl b0 br = B at *
  have hb0 : b0 ∈ B.nodes := by rw [← hB]; simp [SearchTree.nodes]
  rw [SearchTree.nodes] at hn
  rw [List.nodup_append, List.nodup_cons] at hn
  obtain ⟨hna, ⟨hpB, hnB⟩, hab⟩ := hn
  have hdisj : ∀ y ∈ (SearchTree.node l r0 r).nodes, ∀ z ∈ B.nodes, y ≠ z := fun y hy z hz => hab y hy z (by simp [hz])
  have hpA : p ∉ (SearchTree.node l r0 r).nodes := fun h => hab p h p (by simp) rfl
  have hr0l := lt r0
  have hb0l := lt b0
  by_cases hr : r = .nil
  · subst hr
    have hx : ramRead m.rson r0.toNat = Config.NIL := hdr
    have hr0b0 : r0 ≠ b0 := hdisj r0 (by simp [SearchTree.nodes]) b0 hb0
    refine ⟨{ m with rson := ramWrite m.rson r0.toNat (nodeOf b0), dad := ramWrite m.dad b0.toNat (nodeOf r0) }, r0, ?_,
      by simp [SearchTree.nodes], rfl, rfl, ?_, ?_⟩
    · simp only [MatchFinder.adopt, MatchFinder.right, MatchFinder.setRight, MatchFinder.setParent, nodeOf_toNat,
        Option.bind_eq_bind]
      rw [if_pos (by omega)]
      simp only [Option.bind_some]
      rw [if_pos hx, hbx]
      simp only [show r0.toNat ≤ 4352 by omega, if_true, Option.bind_some, nodeOf_toNat, show b0.toNat ≤ 4096 by omega]
      rfl
    · intro x hxn
      have h1 := hxn r0 (by simp [SearchTree.nodes])
      have h2 := hxn b0 (by simp [hb0])
      simp only [ramRead_ramWrite, if_neg h1, if_neg h2, implies_true, and_self]
    · intro n h1 h2 h3
      have ej : (SearchTree.node l r0 SearchTree.nil).join B = .node l r0 B := by
        rw [← hB]; rfl
      rw [ej]
      have hr0m : r0 ∈ (SearchTree.node l r0 SearchTree.nil).nodes := by simp [SearchTree.nodes]
      have hlm : ∀ y ∈ l.nodes, y ∈ (SearchTree.node l r0 SearchTree.nil).nodes := fun y hy => by simp [SearchTree.nodes, hy]
      simp only [SearchTree.nodes, List.nodup_append, List.nodup_cons, List.mem_cons] at hna
      have hlr : ∀ y ∈ l.nodes, y ≠ r0 := fun y hy => hna.2.2 y hy r0 (.inl rfl)
      refine ⟨rfl, rfl, ?_, ?_⟩
      · rw [h2 r0 (by simp [hr0m])]
        refine SearchTree.drawn_frame hdl (fun y hy => ?_) (fun y hy => h2 y (by simp [hlm y hy])) (fun y hy => ?_)
        · rw [h1 y (by simp [hlm y hy]) (hlr y hy)]
          simp only [ramRead_ramWrite, if_neg (pos_ne (hdisj y (hlm y hy) b0 hb0))]
        · rw [h3 y (by simp [hlm y hy])]
          simp only [ramRead_ramWrite, if_neg (pos_ne (hlr y hy))]
      · rw [h3 r0 (by simp [hr0m])]
        simp only [ramRead_ramWrite, if_true]
        rw [← hbx]
        refine SearchTree.drawn_reparent hdb hnB (fun y hy he => ?_) (fun _ => ?_) (fun y hy => h2 y (by simp [hy]))
          (fun y hy => ?_)
        · rw [h1 y (by simp [hy]) (Ne.symm (hdisj r0 hr0m y hy))]
          rw [hbx] at he
          simp only [ramRead_ramWrite, if_neg (pos_ne (fun e => he (nodeOf_inj.2 e)))]
        · rw [hbx, nodeOf_toNat, h1 b0 (by simp [hb0]) (Ne.symm hr0b0)]
          simp only [ramRead_ramWrite, if_true]
        · rw [h3 y (by simp [hy])]
          simp only [ramRead_ramWrite, if_neg (pos_ne (Ne.symm (hdisj r0 hr0m y hy)))]
  · obtain ⟨hw, z, hz, hdz, hlq, hdraw⟩ := SearchTree.splitLast_drawn (parent := nodeOf p) (fuel := 4096 + 1)
      ⟨rfl, hd0, hdl, hdr⟩ hna hr
      (by have := nodes_length_le hna; simp [SearchTree.nodes] at this; omega)
    have hsp := SearchTree.splitLast_nodes l r0 r
    generalize hrest : (SearchTree.splitLast l r0 r).1 = R at *
    generalize hq : (SearchTree.splitLast l r0 r).2 = q at *
    have hAR : ∀ y, y ∈ (SearchTree.node l r0 r).nodes ↔ y ∈ R.nodes ∨ y = q := fun y => by
      rw [SearchTree.nodes, ← hsp]; simp
    rw [SearchTree.nodes, ← hsp, List.nodup_append] at hna
    obtain ⟨hnR, -, hRq⟩ := hna
    have hRq : ∀ y ∈ R.nodes, y ≠ q := fun y hy => hRq y hy q (by simp)
    have hqA : q ∈ (SearchTree.node l r0 r).nodes := (hAR q).2 (.inr rfl)
    have hRA : ∀ y ∈ R.nodes, y ∈ (SearchTree.node l r0 r).nodes := fun y hy => (hAR y).2 (.inl hy)
    have hr0R : r0 ∈ R.nodes := by
      rw [← hrest]
      cases r with
      | nil => exact absurd rfl hr
      | node => simp [SearchTree.splitLast, SearchTree.nodes]
    have hx : ramRead m.rson r0.toNat ≠ Config.NIL := by
      rcases SearchTree.drawn_link hdr with ⟨e, -⟩ | ⟨y, -, e⟩
      · exact absurd e hr
      · rw [e]; exact nodeOf_ne_nil y
    have hzl := lt z
    have hql := lt q
    have hlqle : (ramRead m.lson q.toNat).toNat ≤ 4096 := by
      rcases hlq with e | ⟨y, -, -, -, e⟩
      · rw [e]; simp
      · rw [e, nodeOf_toNat]; have := lt y; omega
    have hzq : z.toNat ≠ q.toNat := pos_ne (hRq z hz)
    have hlpq : p.toNat ≠ q.toNat := pos_ne (fun e => hpA (e ▸ hqA))
    let m' : MatchFinder := { m with
      rson := ramWrite (ramWrite m.rson z.toNat (ramRead m.lson q.toNat)) q.toNat (nodeOf b0)
      lson := ramWrite m.lson q.toNat (nodeOf r0)
      dad :=
        ramWrite (ramWrite (ramWrite m.dad (ramRead m.lson q.toNat).toNat (nodeOf z)) r0.toNat (nodeOf q)) b0.toNat (nodeOf q) }
    refine ⟨m', q, ?_, hqA, rfl, rfl, ?_, ?_⟩
    · simp only [MatchFinder.adopt, MatchFinder.right, MatchFinder.left, MatchFinder.parent, MatchFinder.setRight,
        MatchFinder.setLeft, MatchFinder.setParent, nodeOf_toNat, Option.bind_eq_bind, show r0.toNat ≤ 4352 by omega, if_true, Option.bind_some]
      rw [if_neg hx]
      have hw' : m.rightmost (Config.N + 1) (nodeOf r0) = some (nodeOf q) := hw
      rw [hw', Option.bind_some, nodeOf_toNat, if_pos (by omega), Option.bind_some, if_pos (by omega), Option.bind_some, hdz,
        nodeOf_toNat, if_pos (by omega), Option.bind_some, if_pos hlqle, Option.bind_some]
      simp only [show p.toNat ≤ 4096 by omega, show q.toNat ≤ 4096 by omega, show q.toNat ≤ 4352 by omega,
        show r0.toNat ≤ 4096 by omega, show b0.toNat ≤ 4096 by omega, if_true, Option.bind_some, hl, hbx, nodeOf_toNat]
      rfl
    · intro x hxn
      have hxA : ∀ y ∈ (SearchTree.node l r0 r).nodes, x ≠ y.toNat := fun y hy => hxn y (by simp [hy])
      have h1 := hxA q hqA
      have h2 := hxn b0 (by simp [hb0])
      have h3 := hxA z (hRA z hz)
      have h4 := hxA r0 (hRA r0 hr0R)
      refine ⟨fun hx' => ?_, ?_, ?_⟩
      · simp only [m', ramRead_ramWrite, if_neg h2, if_neg h4]
        rw [if_neg]
        rcases hlq with e | ⟨y, hy, -, -, e⟩
        · rw [e]; exact hx'
        · rw [e, nodeOf_toNat]; exact hxA y (hRA y hy)
      · simp only [m', ramRead_ramWrite, if_neg h1]
      · simp only [m', ramRead_ramWrite, if_neg h1, if_neg h3]
    · intro n h1 h2 h3
      have ej : (SearchTree.node l r0 r).join B = .node R q B := by
        rw [← hB, ← hrest, ← hq]; rfl
      rw [ej]
      have hRB : ∀ y ∈ R.nodes, y.toNat ≠ b0.toNat := fun y hy => pos_ne (hdisj y (hRA y hy) b0 hb0)
      refine ⟨rfl, rfl, ?_, ?_⟩
      · rw [h2 q (by simp [hqA])]
        simp only [m', ramRead_ramWrite, if_true]
        have e0 : ramRead n.dad r0.toNat = nodeOf q := by
          rw [h1 r0 (by simp [hRA r0 hr0R]) (hRq r0 hr0R)]
          simp only [m', ramRead_ramWrite, if_neg (hRB r0 hr0R), if_true]
        rw [← e0]
        refine hdraw n ?_ (fun y hy hyz => ?_) (fun y hy => ?_) (fun y hy e => ?_) (fun y hy hyr e => ?_)
        · rw [h3 z (by simp [hRA z hz])]
          simp only [m', ramRead_ramWrite, if_neg hzq, if_true]
        · rw [h3 y (by simp [hRA y hy])]
          simp only [m', ramRead_ramWrite, if_neg (pos_ne (hRq y hy)), if_neg (pos_ne hyz)]
        · rw [h2 y (by simp [hRA y hy])]
          simp only [m', ramRead_ramWrite, if_neg (pos_ne (hRq y hy))]
        · rw [h1 y (by simp [hRA y hy]) (hRq y hy)]
          have hyr : y ≠ r0 := by
            rintro rfl
            rcases hlq with e' | ⟨w, -, -, h5, e'⟩
            · exact nodeOf_ne_nil _ (e.trans e')
            · exact h5 (nodeOf_inj.1 (e.trans e')).symm
          simp only [m', ramRead_ramWrite, if_neg (hRB y hy), if_neg (pos_ne hyr)]
          rw [if_pos (by rw [← e, nodeOf_toNat])]
        · rw [h1 y (by simp [hRA y hy]) (hRq y hy)]
          simp only [m', ramRead_ramWrite, if_neg (hRB y hy), if_neg (pos_ne hyr)]
          rw [if_neg (fun e' => e (BitVec.eq_of_toNat_eq (by rw [nodeOf_toNat]; exact e')))]
      · rw [h3 q (by simp [hqA])]
        simp only [m', ramRead_ramWrite, if_true]
        rw [← hbx]
        have hBq : ∀ y ∈ B.nodes, y ≠ q := fun y hy => Ne.symm (hdisj q hqA y hy)
        have hlB : ∀ y ∈ B.nodes, y.toNat ≠ (ramRead m.lson q.toNat).toNat := by
          intro y hy e
          rcases hlq with e' | ⟨w, hw, -, -, e'⟩
          · rw [e'] at e; have := lt y; simp at e; omega
          · rw [e', nodeOf_toNat] at e; exact pos_ne (Ne.symm (hdisj w (hRA w hw) y hy)) e
        refine SearchTree.drawn_reparent hdb hnB (fun y hy he => ?_) (fun _ => ?_) (fun y hy => ?_) (fun y hy => ?_)
        · rw [h1 y (by simp [hy]) (hBq y hy)]
          rw [hbx] at he
          simp only [m', ramRead_ramWrite, if_neg (pos_ne (fun e => he (nodeOf_inj.2 e))),
            if_neg (pos_ne (Ne.symm (hdisj r0 (hRA r0 hr0R) y hy))), if_neg (hlB y hy)]
        · rw [hbx, nodeOf_toNat, h1 b0 (by simp [hb0]) (hBq b0 hb0)]
          simp only [m', ramRead_ramWrite, if_true]
        · rw [h2 y (by simp [hy])]
          simp only [m', ramRead_ramWrite, if_neg (pos_ne (hBq y hy))]
        · rw [h3 y (by simp [hy])]
          simp only [m', ramRead_ramWrite, if_neg (pos_ne (hBq y hy)), if_neg (pos_ne (Ne.symm (hdisj z (hRA z hz) y hy)))]
end Sys2Proof.Machine
end

