-- ==== Sys2Proof/Tests/Slice0.lean ====
section
/-! SUPPORT. Tests, each with its source in spec/95_vectors.md or the rule it is worked from by hand, and the witnesses of the
statements' hypotheses (Sys2Proof/Certificates/Slice0/Obligations.lean). -/

namespace Sys2Proof.Tests

open Sys2Proof Sys2Proof.Machine

/-! ### Helpers -/

/-- The default Configuration in another dialect. -/
def dialect (l : Layout) (e : Endian) : Configuration :=
  { Configuration.default with matchFieldLayout := l, matchFieldEndianness := e }

/-- The default Configuration with the terminator. -/
def withEos : Configuration := { Configuration.default with eosMode := .nullref }

/-- The default Configuration with no prefill. -/
def unfilled : Configuration := { Configuration.default with prefillMode := .none }

/-- The state that a step goes on with. -/
def after (o : Host.Outcome State Fault Refusal) : Option State :=
  match o with
  | .next t => some t
  | .fault _ => none
  | .refused _ => none

/-- A DECODE at its start, on a window of spaces, with room for `cap` bytes. -/
def started (cfg : Configuration) (input : List Byte) (cap : Nat) : State :=
  { State.reset with
    cfg := cfg, mode := .decoding, win := { base := .constant 0x20, cells := [] }, inBuf := input, outCap := cap
    dec := decoderStart cfg }

/-- The same with one flag bit left, a literal's or a reference's: in both bit orders the step takes it and runs the symbol. -/
def atSymbol (cfg : Configuration) (flag : Bool) (input : List Byte) (cap : Nat) : State :=
  { started cfg input cap with dec := { decoderStart cfg with ctrl := if flag then 0xFF else 0x00, bitsLeft := 1 } }

/-- The same before a reference, after one byte `b` was produced. -/
def afterByte (cfg : Configuration) (b : Byte) (input : List Byte) (cap : Nat) : State :=
  let s := (atSymbol cfg true [b] cap).produce b
  { s with inBuf := input, dec := { s.dec with ctrl := 0x00 } }

/-- An ENCODE in its run, on a window of spaces: all `n` bytes of lookahead loaded, `codeLen` bytes pending. -/
def coding (cfg : Configuration) (len codeLen : BitVec 5) (cap : Nat) : State :=
  { State.reset with
    cfg := cfg, mode := .encoding, win := { base := .constant 0x20, cells := [] }, outCap := cap
    inBuf := List.replicate len.toNat 0x20
    enc := { encoderStart cfg with ip := len.toNat, len := len, codeLen := codeLen } }

/-- An idle instance of a Configuration with the host's requests pending. -/
def idle (cfg : Configuration) (requests : List Request) : State :=
  { State.reset with
    toInstance := { Instance.blank with cfg := cfg, mode := .idle }
    sel := 0, nextHandle := 2, requests := requests
    parked := [(1, { Instance.blank with cfg := unfilled, mode := .idle })] }

/-- `OUT` from index 0 on. -/
def outBytes (n : Nat) (s : State) : List Byte := (List.range n).map s.out.read

/-! ### Well-formedness: an ill-formed symbol for each check -/

theorem test_wf_layout : (Instr.refHHLE 0xABC 5).wf Configuration.default = false := by decide
theorem test_wf_endian : (Instr.refHLBE 0xABC 5).wf Configuration.default = false := by decide
theorem test_wf_terminator_is_no_reference : (Instr.refHLLE 0 0).wf withEos = false := by decide
theorem test_wf_no_terminator : Instr.eos.wf Configuration.default = false := by decide
theorem test_wf_accepts : (Instr.refHLLE 0 1).wf withEos = true ∧ (Instr.refHLLE 0 0).wf Configuration.default = true := by
  decide

/-! ### Encodings written out (30_encoding.md; V1 to V5) -/

/-- V2, V3 in HH. -/
theorem test_decode_hh :
    decode (dialect .hh .le) .reference [0x01, 0xF0] = .symbol (.refHHLE 1 15) []
    ∧ decode (dialect .hh .be) .reference [0xF0, 0x01] = .symbol (.refHHBE 1 15) []
    ∧ decode (dialect .hh .le) .reference [0xFF, 0x0F] = .symbol (.refHHLE 0xFFF 0) []
    ∧ decode (dialect .hh .be) .reference [0x0F, 0xFF] = .symbol (.refHHBE 0xFFF 0) [] := by decide

/-- V2, V3 in HL. -/
theorem test_decode_hl :
    decode (dialect .hl .le) .reference [0x01, 0x0F] = .symbol (.refHLLE 1 15) []
    ∧ decode (dialect .hl .be) .reference [0x0F, 0x01] = .symbol (.refHLBE 1 15) []
    ∧ decode (dialect .hl .le) .reference [0xFF, 0xF0] = .symbol (.refHLLE 0xFFF 0) []
    ∧ decode (dialect .hl .be) .reference [0xF0, 0xFF] = .symbol (.refHLBE 0xFFF 0) [] := by decide

/-- V2, V3 in LH. -/
theorem test_decode_lh :
    decode (dialect .lh .le) .reference [0xF1, 0x00] = .symbol (.refLHLE 1 15) []
    ∧ decode (dialect .lh .be) .reference [0x00, 0xF1] = .symbol (.refLHBE 1 15) []
    ∧ decode (dialect .lh .le) .reference [0x0F, 0xFF] = .symbol (.refLHLE 0xFFF 0) []
    ∧ decode (dialect .lh .be) .reference [0xFF, 0x0F] = .symbol (.refLHBE 0xFFF 0) [] := by decide

/-- V2, V3 in LL. -/
theorem test_decode_ll :
    decode (dialect .ll .le) .reference [0x1F, 0x00] = .symbol (.refLLLE 1 15) []
    ∧ decode (dialect .ll .be) .reference [0x00, 0x1F] = .symbol (.refLLBE 1 15) []
    ∧ decode (dialect .ll .le) .reference [0xF0, 0xFF] = .symbol (.refLLLE 0xFFF 0) []
    ∧ decode (dialect .ll .be) .reference [0xFF, 0xF0] = .symbol (.refLLBE 0xFFF 0) [] := by decide

/-- R91, R93, V4: a control byte, a literal, the terminator with bytes after it; too few bytes. -/
theorem test_decode_others :
    decode withEos .control [0x05, 0x41] = .symbol (.ctrl 0x05) [0x41]
    ∧ decode withEos .literal [0x41] = .symbol (.lit 0x41) []
    ∧ decode withEos .reference [0x00, 0x00, 0x99] = .symbol .eos [0x99]
    ∧ decode withEos .reference [0x00] = .rejected .truncated := by decide

/-- V1: the encoder's bytes. -/
theorem test_encode :
    encode (.refHHLE 0xABC 5) = [0xBC, 0x5A] ∧ encode (.refHHBE 0xABC 5) = [0x5A, 0xBC]
    ∧ encode (.refHLLE 0xABC 5) = [0xBC, 0xA5] ∧ encode (.refHLBE 0xABC 5) = [0xA5, 0xBC]
    ∧ encode (.refLHLE 0xABC 5) = [0x5C, 0xAB] ∧ encode (.refLHBE 0xABC 5) = [0xAB, 0x5C]
    ∧ encode (.refLLLE 0xABC 5) = [0xC5, 0xAB] ∧ encode (.refLLBE 0xABC 5) = [0xAB, 0xC5]
    ∧ encode .eos = [0x00, 0x00] ∧ encode (.ctrl 0x7F) = [0x7F] ∧ encode (.lit 0x41) = [0x41] := by decide

/-- The group of V22 and V20 as listings (R106, R107). -/
theorem test_assemble :
    assemble (group .msb [.lit 0x41, .refHHBE 1 15, .lit 0x41, listingEos]) = [0xA0, 0x41, 0xF0, 0x01, 0x41, 0x00, 0x00]
    ∧ assemble (group .lsb (rep Configuration.default 0x41 19 ++ [.lit 0x41])) = [0x05, 0x41, 0x01, 0x0F, 0x41] := by decide

/-- Words of the opcode table: 8 bits a control byte, 16 bits a reference slot (log 10). -/
theorem test_table_words :
    decodeTableWord 8 0x05 = some (.ctrl 0x05) ∧ decodeTableWord 16 0xBCA5 = some (.refHLLE 0xABC 5)
    ∧ decodeTableWord 16 0 = some .eos ∧ decodeTableWord 24 0 = none := by decide

/-- A placed word is the first thing a machine after reset runs: a control byte, after which `IN` ends; a reference (`OUT_CAP` is
0); a terminator. -/
theorem test_placed_words :
    (after (step (State.reset.withFetchWord 8 0xA5))).map (fun t => (t.dec.ctrl, t.dec.flag, t.dec.bitsLeft, t.dec.ip, t.status))
      = some (0x52, true, 7, 1, .truncatedInput)
    ∧ (after (step (State.reset.withFetchWord 16 0xBCA5))).map (fun t => (t.dec.ofs, t.dec.lenField, t.status, t.dec.ip))
      = some (0xABC, 5, .outputExhausted, 2)
    ∧ (after (step (State.reset.withFetchWord 16 0))).map (fun t => (t.mode, t.status, t.dec.ip)) = some (.idle, .ok, 2) := by
  decide

/-! ### The symbols, one step each -/

/-- V5: `05`, LSB first, and V5c: `A0`, MSB first: slot 0 is a literal's. R194, R12: the control byte, the flag and the literal
`41` are one step. -/
theorem test_ctrl_lsb :
    let o := after (step (started Configuration.default [0x05, 0x41, 0x01, 0x0F, 0x41] 20))
    o.map (fun t => (t.dec.flag, t.dec.ctrl, t.dec.bitsLeft, t.dec.ip)) = some (true, 0x02, 7, 2)
    ∧ o.map (fun t => (t.dec.dstate, t.dec.op, outBytes 1 t)) = some (.readControlBit, 1, [0x41]) := by
  decide

theorem test_ctrl_msb :
    (after (step (started { Configuration.default with controlBitOrder := .msb } [0xA0, 0x41] 9))).map
      (fun t => (t.dec.flag, t.dec.ctrl, t.dec.bitsLeft, t.dec.ip)) = some (true, 0x40, 7, 2) := by
  decide

/-- P2, V48: `LIT 58` at the last window position, and the cursor wraps. -/
theorem test_lit_wraps :
    (after (step (atSymbol { Configuration.default with writeStart := 4095 } true [0x58] 6))).map
      (fun t => (t.win.byteT 4095, t.dec.cur, outBytes 1 t, t.dec.dstate)) = some (0x58, 0, [0x58], .readControlBit) := by
  decide

/-- V43c: a literal with no room is not taken. -/
theorem test_lit_exhausted :
    (after (step (atSymbol Configuration.default true [0x41] 0))).map
      (fun t => (t.status, t.bytesWritten, t.dec.cur, t.dec.ip, t.mode)) = some (.outputExhausted, 0, 4078, 0, .idle) := by
  decide

/-- V44: a reference into the prefill. -/
theorem test_ref_prefill :
    (after (step (atSymbol Configuration.default false [0x01, 0x00] 3))).map
      (fun t => (outBytes 3 t, t.dec.cur, t.dec.op, t.dec.ip)) = some ([0x20, 0x20, 0x20], 4081, 3, 2) := by
  decide

/-- V50: offset 0 is distance `N`; V50c: which is out of bounds with no prefill. -/
theorem test_ref_distance_n :
    (after (step (atSymbol Configuration.default false [0x00, 0x00] 3))).map (fun t => (outBytes 3 t, t.mode))
      = some ([0x20, 0x20, 0x20], .decoding)
    ∧ (after (step (atSymbol unfilled false [0x00, 0x00] 3))).map (fun t => (t.status, t.bytesWritten, t.dec.ip))
      = some (.badBackReference, 0, 2) := by
  decide

/-- The second symbol of V42, V2 in every dialect: `ofs = 1`, 18 bytes, each copied from the one before. -/
theorem test_ref_overlaps :
    ∀ d ∈ [((Layout.hh, Endian.le), ([0x01, 0xF0] : List Byte)), ((.hh, .be), [0xF0, 0x01]), ((.hl, .le), [0x01, 0x0F]),
        ((.hl, .be), [0x0F, 0x01]), ((.lh, .le), [0xF1, 0x00]), ((.lh, .be), [0x00, 0xF1]), ((.ll, .le), [0x1F, 0x00]),
        ((.ll, .be), [0x00, 0x1F])],
      (after (step (afterByte (dialect d.1.1 d.1.2) 0x41 d.2 19))).map (fun t => (outBytes 19 t, t.dec.cur))
        = some (List.replicate 19 0x41, 1) := by
  decide

/-- P4: the second byte of the copy reads the byte before it, the third the copy's own first. -/
theorem test_ref_reads_its_own :
    (after (step (afterByte Configuration.default 0x41 [0x02, 0x00] 9))).map (outBytes 4) = some [0x41, 0x20, 0x41, 0x20] := by
  decide

/-- V43: the output fills in the middle of the copy. -/
theorem test_ref_exhausted :
    (after (step (afterByte Configuration.default 0x41 [0x01, 0x0F] 10))).map
      (fun t => (outBytes 10 t, t.status, t.bytesWritten, t.dec.cur, t.dec.remaining))
      = some (List.replicate 10 0x41, .outputExhausted, 10, 4088, 9) := by
  decide

/-- V45b: `dist = 2 > op = 1` with no prefill; V45: `dist = 1` is in bounds. -/
theorem test_ref_bounds :
    (after (step (afterByte unfilled 0x41 [0x02, 0x00] 9))).map (fun t => (t.status, t.bytesWritten, t.dec.cur))
      = some (.badBackReference, 1, 4079)
    ∧ (after (step (afterByte unfilled 0x41 [0x01, 0x00] 9))).map (outBytes 4) = some [0x41, 0x41, 0x41, 0x41] := by
  decide

/-- V46: the terminator, with garbage after it; V50d: it is tested before the bounds; V55: `ofs = 0`, `len = 1` is none. -/
theorem test_eos :
    (after (step (afterByte withEos 0x41 [0x00, 0x00, 0x99, 0x99] 9))).map (fun t => (t.status, t.bytesWritten, t.dec.ip, t.mode))
      = some (.ok, 1, 2, .idle)
    ∧ (after (step (atSymbol { withEos with prefillMode := .none } false [0x00, 0x00] 9))).map (fun t => t.status) = some .ok
    ∧ (after (step (atSymbol withEos false [0x00, 0x01] 9))).map (outBytes 4) = some [0x20, 0x20, 0x20, 0x20] := by
  decide

/-- V40, V47, V47b: the end of input at a boundary, inside a reference, right after a control byte. -/
theorem test_input_ends :
    (after (step (started Configuration.default [] 0))).map (fun t => (t.status, t.bytesWritten)) = some (.ok, 0)
    ∧ (after (step (atSymbol Configuration.default false [0x01] 9))).map (fun t => (t.status, t.dec.ip)) = some (.truncatedInput, 0)
    ∧ (after (step (started Configuration.default [0x01] 9))).map (fun t => (t.status, t.dec.ip, t.dec.bitsLeft))
      = some (.truncatedInput, 1, 7) := by
  decide

/-! ### The match finder (V29 to V37) -/

/-- The window of V29: spaces, and seven strings. -/
def vWindow : Memory :=
  [(100, [0x4D, 0x4D]), (200, [0x4D, 0x46]), (300, [0x4D, 0x54]), (400, [0x4D, 0x43]), (500, [0x4D, 0x48]),
    (600, [0x4D, 0x47]), (700, [0x4D, 0x46]), (800, [0x4D, 0x46, 0x41])].foldl
    (fun m (e : WinPos × List Byte) => loadBytes m e.1 e.2) { base := .constant 0x20, cells := [] }

/-- V29's tree, as the table gives it: nodes 100 to 600. -/
def vTree : MatchFinder where
  lson := [(100, 200), (200, 400), (500, 600)]
  rson := [(100, 300), (200, 500), (4174, 100)]
  dad := [(100, 4174), (200, 100), (300, 100), (400, 200), (500, 200), (600, 500)]
  matchPosition := 100
  matchLength := 1

/-- V30's tree: 100 is gone and 500 in its place. -/
def vTree30 : MatchFinder :=
  { vTree with
    lson := [(200, 400), (500, 200)]
    rson := [(200, 600), (500, 300), (4174, 500)]
    dad := [(200, 500), (300, 500), (400, 200), (500, 4174), (600, 200)] }

/-- V32's tree: 700 has replaced 200, 800 stands under 600. -/
def vTree32 : MatchFinder where
  lson := [(500, 700), (600, 800), (700, 400)]
  rson := [(500, 300), (700, 600), (4174, 500)]
  dad := [(300, 500), (400, 700), (500, 4174), (600, 700), (700, 500), (800, 600)]
  matchPosition := 200
  matchLength := 18

/-- What the vectors list of a match finder: the links of the root slots and of the nodes in a tree; not the scratch cell
`dad[NIL]` (R152), not what an unattached node's child links still hold. -/
def attached (m : MatchFinder) : MatchFinder :=
  let inTree := fun (e : Nat × TreeIndex) => decide (4096 < e.1 ∨ e.1 ≠ 4096 ∧ ramRead m.dad e.1 ≠ 4096)
  { m with lson := m.lson.filter inTree, rson := m.rson.filter inTree, dad := m.dad.filter inTree }

/-- V29's first insertion, and its last. -/
theorem test_insert_first :
    ({ vTree with lson := [], rson := [], dad := [] } : MatchFinder).insert vWindow 100
      = some { lson := [], rson := [(4174, 100)], dad := [(100, 4174)], matchPosition := 100, matchLength := 0 } := by
  decide

theorem test_insert_attaches :
    ({ vTree with lson := [(100, 200), (200, 400)]
                  dad := [(100, 4174), (200, 100), (300, 100), (400, 200), (500, 200)] } : MatchFinder).insert vWindow 600
      = some vTree := by
  decide

/-- V30: two children, the predecessor has a left child. -/
theorem test_delete_two_children : (vTree.delete 100).map attached = some vTree30 := by decide

/-- V31: a longer match further down the walk. -/
theorem test_insert_longer :
    (vTree30.insert vWindow 800).map (fun m => (m.matchLength, m.matchPosition, ramRead m.lson 600, ramRead m.dad 800))
      = some (2, 200, 800, 600) := by
  decide

/-- V32: a saturated match replaces the old node. -/
theorem test_insert_replaces :
    (({ vTree30 with
        lson := [(200, 400), (500, 200), (600, 800)]
        dad := [(200, 500), (300, 500), (400, 200), (500, 4174), (600, 200), (800, 600)] } : MatchFinder).insert vWindow
      700).map attached = some vTree32 := by
  decide

/-- V33: an unattached position; V34: a leaf. -/
theorem test_delete_leaf :
    vTree32.delete 200 = some vTree32
    ∧ (vTree32.delete 400).map (fun m => (m.lson, ramRead m.dad 400)) = some ([(500, 700), (600, 800)], 4096) := by
  decide

/-- V35, after V34: one child. -/
theorem test_delete_one_child :
    (({ vTree32 with
        lson := [(500, 700), (600, 800)]
        dad := [(300, 500), (500, 4174), (600, 700), (700, 500), (800, 600)] } : MatchFinder).delete 700).map attached
      = some { vTree32 with
          lson := [(500, 600), (600, 800)]
          rson := [(500, 300), (4174, 500)]
          dad := [(300, 500), (500, 4174), (600, 500), (800, 600)] } := by
  decide

/-! ### The encoder -/

/-- V11's beginning: the seeds of `20 20 20` collapse, and node 4060 is left as an 18-byte match. -/
theorem test_encode_begins :
    (after (step (idle Configuration.default [.encode 0 [0x20, 0x20, 0x20] []]))).map
      (fun t => (t.mode, t.mf.matchLength, t.mf.matchPosition, t.enc.len, t.enc.ip)) = some (.encoding, 18, 4060, 3, 3) := by
  decide

/-- V11's codeword: `m = min(18, 3)`, `REF ofs=18, length=3`. -/
theorem test_emit_ref :
    let s := { coding Configuration.default 3 1 9 with mf := { vTree with matchLength := 18, matchPosition := 4060 } }
    (s.encodeStep.enc.codeBuf.read 0, s.encodeStep.enc.codeBuf.read 1, s.encodeStep.enc.codeBuf.read 2, s.encodeStep.enc.codeLen,
      s.encodeStep.enc.lastMatchLength) = (0x00, 0x12, 0x00, 3, 3) := by
  decide

/-- V10's first codeword: a match of length 2 is a literal. -/
theorem test_emit_lit :
    let s := { coding Configuration.default 2 1 9 with mf := { vTree with matchLength := 18, matchPosition := 4060 } }
    (s.encodeStep.enc.codeBuf.read 0, s.encodeStep.enc.codeBuf.read 1, s.encodeStep.enc.codeLen, s.encodeStep.enc.slot)
      = (0x01, 0x20, 2, 1) := by
  decide

/-- V9's end: the pending group `01 41` is flushed and the call ends `OK`; V26: with no room it is `OutputExhausted`. -/
theorem test_encode_closes :
    let s := fun cap => (coding Configuration.default 0 1 cap).setSlotFlag.appendCode 0x41
    (after (step (s 2))).map (fun t => (outBytes 2 t, t.status, t.bytesWritten)) = some ([0x01, 0x41], .ok, 2)
    ∧ (after (step (s 1))).map (fun t => (outBytes 1 t, t.status, t.bytesWritten)) = some ([0x01], .outputExhausted, 1) := by
  decide

/-- V21's end: the last group was flushed, the terminator opens a new one. -/
theorem test_encode_appends_eos :
    (after (step (coding withEos 0 1 9))).map (fun t => (outBytes 3 t, t.bytesWritten)) = some ([0x00, 0x00, 0x00], 3) := by
  decide

/-! ### The header codec (V70 to V77) -/

/-- V70b's header. -/
def vFields : List HeaderField := [.str 0x4C [0x5A, 0x53], .byte 0x1A, .size .comp .two .le, .size .orig .four .le]

theorem test_header_read :
    readHeader vFields [0x4C, 0x5A, 0x53, 0x1A, 0xFA, 0x00, 0xE8, 0x03, 0x00, 0x00, 0x05, 0x41] = .found (some 1000) (some 250) 10 := by
  decide

/-- V71, V72: big-endian; the widest field counts. -/
theorem test_header_widest :
    writeHeader [.size .orig .four .be] 1000 0 = [0x00, 0x00, 0x03, 0xE8]
    ∧ writeHeader [.size .comp .two .be, .size .orig .two .le, .size .orig .four .le] 70000 0x1234
      = [0x12, 0x34, 0x70, 0x11, 0x70, 0x11, 0x01, 0x00]
    ∧ readHeader [.size .comp .two .be, .size .orig .two .le, .size .orig .four .le]
        [0x12, 0x34, 0x70, 0x11, 0x70, 0x11, 0x01, 0x00] = .found (some 70000) (some 0x1234) 8 := by
  decide

/-- V74, V74b, V75, V75b. -/
theorem test_header_failures :
    readHeader [.ignore 0x00, .byte 0x1A] [0xFF, 0x1A, 0x99] = .found none none 2
    ∧ readHeader [.ignore 0x00, .byte 0x1A] [0xFF, 0x1B, 0x99] = .failed .headerMismatch
    ∧ readHeader [.str 0x41 [0x42]] [0x41] = .failed .truncatedInput
    ∧ readHeader [.str 0x41 [0x42]] [0x41, 0x43] = .failed .headerMismatch := by
  decide

/-- V73, V76, V77: `n`; `o3L`; `x12`, nothing, `n,b1A`, `b1`. -/
theorem test_header_specs :
    parseSpec [0x6E] = some [] ∧ parseSpec [0x6F, 0x33, 0x4C] = none ∧ parseSpec [0x78, 0x31, 0x32] = none
    ∧ parseSpec [] = none ∧ parseSpec [0x6E, 0x2C, 0x62, 0x31, 0x41] = none ∧ parseSpec [0x62, 0x31] = none := by
  decide

/-! ### Commands (V80 to V85) -/

/-- V80 as values, V81, V81b, V81c. -/
theorem test_create_checks :
    checkConfiguration defaultConfiguration = some Configuration.default
    ∧ checkConfiguration { defaultConfiguration with writeStart := 4096 } = none
    ∧ checkConfiguration { defaultConfiguration with prefillMode := 1 } = none
    ∧ checkConfiguration { defaultConfiguration with dupShortcut := 1 } = none := by
  decide

/-- V83's second call: PREFILL runs again, whatever the window held. -/
theorem test_decode_prefills :
    (after (step { idle Configuration.default [.decode 0 [0x00, 0x01, 0x00] []] with
        win := { base := .constant 0x20, cells := [(4077, 0x41)] } })).map (fun t => (t.win.byteT 4077, t.dec.cur, t.mode))
      = some (0x20, 4078, .decoding) := by
  decide

/-! ### The statements' hypotheses are met, each at a boundary of its range

One theorem for each statement with hypotheses, under the statement's name. -/

/-- The two elements of a list, one at a time. -/
theorem both {α : Type} {P : α → Prop} {a b : α} (ha : P a) (hb : P b) : ∀ x ∈ [a, b], P x := by
  simp [ha, hb]

/-- A step that answers a next state. -/
theorem goes_on {o : Host.Outcome State Fault Refusal} (h : (after o).isSome = true) : ∃ t, o = .next t := by
  cases o with
  | next t => exact ⟨t, rfl⟩
  | fault _ => cases h
  | refused _ => cases h

/-- A step that answers a next state in a known mode. -/
theorem goes_on_with {o : Host.Outcome State Fault Refusal} {m : Mode} (h : (after o).map (fun t => t.mode) = some m) :
    ∃ t, o = .next t ∧ t.mode = m := by
  cases o with
  | next t => exact ⟨t, rfl, Option.some.inj h⟩
  | fault _ => cases h
  | refused _ => cases h

theorem test_witness_DecodeEncodeRoundTrip :
    (Instr.refHLLE 0xFFF 15).wf Configuration.default = true ∧ Instr.eos.wf withEos = true
    ∧ decode Configuration.default .reference [0xFF, 0xFF, 0x41] = .symbol (.refHLLE 0xFFF 15) [0x41] := by
  decide

theorem test_witness_SlotFlagIsItsControlBit : 0 < 8 ∧ 7 < 8 := by decide

theorem test_witness_GroupFlagsMarkLiterals : (List.replicate 8 (Instr.lit 0x41)).length ≤ 8 ∧ 7 < 8 := by decide

theorem test_witness_LiteralProducesItsByte :
    (atSymbol Configuration.default true [0x41] 1).dec.op < (atSymbol Configuration.default true [0x41] 1).outCap := by
  decide

theorem test_witness_LiteralStopsOnFullOutput :
    let s := afterByte Configuration.default 0x41 [0x42] 1
    s.mode = .decoding ∧ s.dec.op = s.outCap := by
  decide

theorem test_witness_ReferenceCopies :
    let s := afterByte unfilled 0x41 [0x01, 0x0F] 19
    (s.cfg.prefillMode = .none → distance 1 ≤ s.dec.op) ∧ s.dec.op + ((15 : LenField).toNat + 3) ≤ s.outCap := by
  decide

theorem test_witness_ReferenceStopsAtCapacity :
    let s := fun cap => afterByte unfilled 0x41 [0x01, 0x0F] cap
    ∀ cap ∈ [1, 18], (s cap).mode = .decoding ∧ ((s cap).cfg.prefillMode = .none → distance 1 ≤ (s cap).dec.op)
      ∧ (s cap).dec.op ≤ (s cap).outCap ∧ (s cap).outCap < (s cap).dec.op + ((15 : LenField).toNat + 3) := by
  decide

theorem test_witness_BackReferenceBeforeStartFails :
    let s := afterByte unfilled 0x41 [0x02, 0x00] 9
    s.mode = .decoding ∧ s.cfg.prefillMode = .none ∧ s.dec.op < distance 2 ∧ s.dec.op < distance 0 := by
  decide

theorem test_witness_TerminatorEndsTheCall : (atSymbol withEos false [0x00, 0x00] 0).mode = .decoding := by decide

theorem test_witness_EverySymbolCompletesInItsFrame :
    let s := atSymbol Configuration.default true [0x41] 1
    ∃ t, exec (.lit 0x41) s = .next t ∧ (∀ f, Instr.lit 0x41 ≠ .ctrl f) ∧ s.mode = .decoding ∧ t.mode = .decoding :=
  ⟨_, rfl, fun _ => Instr.noConfusion, rfl, rfl⟩

theorem test_witness_FinishEndsACall :
    (started Configuration.default [] 0).mode = .decoding ∧ (coding Configuration.default 3 1 9).mode = .encoding := by decide

/-- After a flag that was left, after a control byte, and from `ProcessSymbol`; a control byte before its flag. -/
theorem test_witness_StepRunsTheDecodedSymbol :
    (let s := afterByte Configuration.default 0x41 [0x01, 0x0F] 19;
      s.reachesSymbol s.takeFlag ∧ (∃ t, exec (.refHLLE 1 15) s.takeFlag = .next t)
      ∧ decode s.cfg (if s.takeFlag.dec.flag then .literal else .reference) (s.inBuf.drop s.takeFlag.dec.ip)
        = .symbol (.refHLLE 1 15) [])
    ∧ (let s := started Configuration.default [0x05, 0x41] 9;
      let u := (s.loadCtrl 0x05).takeFlag;
      s.reachesSymbol u ∧ (∃ t, exec (.lit 0x41) u = .next t)
      ∧ decode u.cfg (if u.dec.flag then .literal else .reference) (u.inBuf.drop u.dec.ip) = .symbol (.lit 0x41) [])
    ∧ (let s := (atSymbol withEos false [0x00, 0x00] 0).takeFlag;
      s.reachesSymbol s ∧ (∃ t, exec .eos s = .next t)
      ∧ decode s.cfg (if s.dec.flag then .literal else .reference) (s.inBuf.drop s.dec.ip) = .symbol .eos [])
    ∧ (let s := started Configuration.default [0x05] 9;
      s.mode = .decoding ∧ s.dec.dstate = .readControlBit ∧ s.dec.bitsLeft = 0
      ∧ decode s.cfg .control (s.inBuf.drop s.dec.ip) = .symbol (.ctrl 0x05) [] ∧ ∃ t, exec (.ctrl 0x05) s = .next t) :=
  ⟨⟨⟨rfl, .inl ⟨rfl, by decide, by decide, rfl⟩⟩, ⟨_, rfl⟩, by decide⟩,
    ⟨⟨rfl, .inr (.inl ⟨0x05, rfl, rfl, rfl, rfl⟩)⟩, ⟨_, rfl⟩, by decide⟩,
    ⟨⟨rfl, .inr (.inr ⟨rfl, rfl⟩)⟩, ⟨_, rfl⟩, by decide⟩, ⟨rfl, rfl, rfl, by decide, ⟨_, rfl⟩⟩⟩

theorem test_witness_BoundaryBeforeNextFlag :
    (let s := started Configuration.default [] 9;
      s.mode = .decoding ∧ s.dec.dstate = .readControlBit ∧ s.dec.ip = s.inBuf.length)
    ∧ (let s := atSymbol Configuration.default true [0x41] 9;
      s.mode = .decoding ∧ s.dec.dstate = .readControlBit ∧ s.dec.ip < s.inBuf.length ∧ s.dec.bitsLeft ≠ 0)
    ∧ (let s := started Configuration.default [0x05] 9;
      s.mode = .decoding ∧ s.dec.dstate = .readControlBit ∧ s.inBuf[s.dec.ip]? = some 0x05 ∧ s.dec.bitsLeft = 0) := by
  decide

/-- No byte left for a literal and for a reference, right after a control byte; one left for a reference. -/
theorem test_witness_MissingBytesTruncate :
    (∀ f ∈ [(0x01 : Byte), 0x00],
      let s := started Configuration.default [f] 9
      let u := (s.loadCtrl f).takeFlag
      s.reachesSymbol u ∧ u.inBuf.length - u.dec.ip < (if u.dec.flag then 1 else 2))
    ∧ (let s := atSymbol Configuration.default false [0x01] 9;
      s.reachesSymbol s.takeFlag ∧ s.takeFlag.inBuf.length - s.takeFlag.dec.ip < (if s.takeFlag.dec.flag then 1 else 2)) :=
  ⟨both ⟨⟨rfl, .inr (.inl ⟨_, rfl, rfl, rfl, rfl⟩)⟩, by decide⟩ ⟨⟨rfl, .inr (.inl ⟨_, rfl, rfl, rfl, rfl⟩)⟩, by decide⟩,
    ⟨rfl, .inl ⟨rfl, by decide, by decide, rfl⟩⟩, by decide⟩

theorem test_witness_LiteralPath :
    (let s := started Configuration.default [0x01] 0;
      let u := (s.loadCtrl 0x01).takeFlag;
      s.reachesSymbol u ∧ u.dec.flag = true ∧ u.dec.ip ≤ u.inBuf.length ∧ u.dec.op ≤ u.outCap ∧ u.inBuf.length = u.dec.ip)
    ∧ ∀ cap ∈ [0, 1],
      let s := atSymbol Configuration.default true [0x41] cap
      let u := s.takeFlag
      s.reachesSymbol u ∧ u.dec.flag = true ∧ u.dec.ip ≤ u.inBuf.length ∧ u.dec.op ≤ u.outCap
      ∧ u.inBuf[u.dec.ip]? = some 0x41 ∧ (cap = 0 → u.dec.op = u.outCap) ∧ (cap = 1 → u.dec.op < u.outCap) :=
  ⟨⟨⟨rfl, .inr (.inl ⟨_, rfl, rfl, rfl, rfl⟩)⟩, by decide⟩,
    both ⟨⟨rfl, .inl ⟨rfl, by decide, by decide, rfl⟩⟩, by decide⟩ ⟨⟨rfl, .inl ⟨rfl, by decide, by decide, rfl⟩⟩, by decide⟩⟩

theorem test_witness_DecodeTerminates : (started Configuration.default [0xFF] 9).mode = .decoding := by decide

theorem test_witness_StepKeepsMemoriesCanonical :
    let s := atSymbol Configuration.default true [0x41] 1
    s.canonical ∧ ∃ t, step s = .next t := by
  refine ⟨⟨?_, ?_, ?_⟩, goes_on (by decide)⟩ <;> decide

theorem test_witness_StepKeepsDecoderInRange :
    let s := afterByte Configuration.default 0x41 [0x01, 0x0F] 19
    s.decoderInRange ∧ ∃ t, step s = .next t ∧ t.mode = .decoding := by
  exact ⟨fun _ => by decide, goes_on_with (by decide)⟩

theorem test_witness_StepKeepsWindowHoldingOutput :
    let s := afterByte Configuration.default 0x41 [0x01, 0x0F] 19
    s.decoderInRange ∧ s.windowHoldsOutput ∧ ∃ t, step s = .next t := by
  refine ⟨fun _ => by decide, fun _ => ⟨fun j h1 h2 _ => ?_, 0, rfl, fun j h1 h2 => ?_⟩, goes_on (by decide)⟩
  · obtain rfl : j = 1 := le_antisymm h2 h1
    decide
  · have h1 : 1 ≤ j := h1
    change Memory.byteT (Memory.write ⟨.constant 0x20, []⟩ (4078 : WinPos).toNat 0x41) (4078 + BitVec.ofNat 12 j) = 0x20
    rw [Memory.byteT_write, if_neg]
    · rfl
    · intro e
      have e := congrArg BitVec.toNat e
      simp [BitVec.toNat_add, BitVec.toNat_ofNat] at e
      omega

theorem test_witness_StepKeepsEncoderInRange :
    let s := coding Configuration.default 18 1 9
    s.encoderInRange ∧ ∃ t, step s = .next t :=
  ⟨fun _ => by decide, goes_on (by decide)⟩

theorem test_witness_StepKeepsWindowHoldingInput :
    let s := coding Configuration.default 18 1 9
    s.encoderInRange ∧ s.windowHoldsInput ∧ ∃ t, step s = .next t :=
  ⟨fun _ => by decide, fun _ k hk _ => by
    have hk : k < 18 := hk
    change (List.replicate 18 (0x20 : Byte))[k]? = some 0x20
    exact List.getElem?_replicate_of_lt hk, goes_on (by decide)⟩

theorem test_witness_StepKeepsConfiguration :
    (∃ t, step (idle Configuration.default [.destroy 1]) = .next t) ∧ (idle Configuration.default [.destroy 1]).configured
    ∧ (∃ t, step (started Configuration.default [] 0) = .next t) ∧ (started Configuration.default [] 0).mode = .decoding :=
  ⟨⟨_, rfl⟩, ⟨fun _ => by decide, by decide⟩, ⟨_, rfl⟩, rfl⟩

theorem test_witness_StepKeepsHostOrdered :
    let s := idle Configuration.default [.create defaultConfiguration]
    s.hostOrdered ∧ ∃ t, step s = .next t :=
  ⟨⟨fun _ => by decide, by decide, by decide⟩, ⟨_, rfl⟩⟩

theorem test_witness_DecoderNeverReadsW0 :
    let s := afterByte unfilled 0x41 [0x01, 0x0F] 19
    let t := { s with win := { base := .constant 0x99, cells := [(4078, 0x41)] } }
    s.mode = .decoding ∧ s.cfg.prefillMode = .none ∧ agreeButForW0 s t ∧ s.win.byteT 0 ≠ t.win.byteT 0
      ∧ ∃ s', step s = .next s' := by
  refine ⟨rfl, rfl, ⟨rfl, fun j h1 h2 _ => ?_⟩, by decide, goes_on (by decide)⟩
  obtain rfl : j = 1 := le_antisymm h2 h1
  decide

theorem test_witness_CallsShareNothing :
    (let s := started Configuration.default [] 0;
      let t := { s with status := .headerMismatch, bytesWritten := 7, sel := 3, enc := { s.enc with r := 5 } };
      s.mode = .decoding ∧ sameCall s t ∧ s ≠ t ∧ ∃ s', step s = .next s' ∧ s'.mode = .idle)
    ∧ (let s := coding Configuration.default 0 1 0;
      let t := { s with status := .headerMismatch, bytesWritten := 7, sel := 3, dec := { s.dec with cur := 5 } };
      s.mode = .encoding ∧ sameCall s t ∧ s ≠ t ∧ ∃ s', step s = .next s' ∧ s'.mode = .idle) :=
  ⟨⟨rfl, by unfold sameCall; decide, by decide, _, rfl, rfl⟩, ⟨rfl, by unfold sameCall; decide, by decide, _, rfl, rfl⟩⟩

theorem test_witness_InstancesAreIsolated :
    let s := idle Configuration.default [.decode 1 [0x00] []]
    ∃ t, step s = .next t ∧ 7 ≠ s.sel ∧ 7 ≠ t.sel ∧ s.mode ≠ .absent ∧ t.sel ≠ s.sel :=
  ⟨_, rfl, by decide, by decide, by decide, by decide⟩

theorem test_witness_DefaultConfigurationIsConstant :
    ((idle unfilled [.getDefaultConfig]).mode = .idle ∧ (idle unfilled [.getDefaultConfig]).requests = .getDefaultConfig :: [])
    ∧ (let s := { State.reset with requests := [.getDefaultConfig] };
      s.mode = .absent ∧ s.requests = .getDefaultConfig :: []) := by
  decide

/-- Every code at the ends of its range, and the layouts between. -/
theorem test_witness_CreateChecksItsOperand :
    ∀ c ∈ [{ defaultConfiguration with matchFieldLayout := 0, writeStart := 0 }, { defaultConfiguration with matchFieldLayout := 1 },
        defaultConfiguration,
        { controlBitOrder := 1, matchFieldLayout := 3, matchFieldEndianness := 1, prefillMode := 1, prefillValue := 0xFF,
          prefillFn := some (Vector.replicate 4096 7), writeStart := 4095, eosMode := 1, dupShortcut := 0 },
        { defaultConfiguration with prefillMode := 2 }],
      ∃ cfg, checkConfiguration c = some cfg := by
  simp only [List.forall_mem_cons]
  exact ⟨⟨_, rfl⟩, ⟨_, rfl⟩, ⟨_, rfl⟩, ⟨_, rfl⟩, ⟨_, rfl⟩, fun _ h => nomatch h⟩

theorem test_witness_CreateMakesAnInstance :
    ∀ c ∈ [defaultConfiguration, { defaultConfiguration with writeStart := 4095 }, { defaultConfiguration with writeStart := 4096 }],
      let s := { State.reset with requests := [.create c] }
      s.mode = .absent ∧ s.requests = .create c :: []
        ∧ (checkConfiguration c = none ↔ c.writeStart = 4096) := by
  decide

theorem test_witness_DestroyedInstanceRefusesCommands :
    (let s := idle unfilled [.destroy 0];
      s.addresses 0 s.toInstance ∧ s.requests = .destroy 0 :: [] ∧ 0 = s.sel ∧ 1 ≠ s.sel)
    ∧ (let s := idle Configuration.default [.destroy 1];
      s.addresses 1 { Instance.blank with cfg := unfilled, mode := .idle } ∧ s.requests = .destroy 1 :: [] ∧ 1 ≠ s.sel
        ∧ s.mode = .idle ∧ 7 ≠ s.sel)
    ∧ (let s := { idle Configuration.default [.destroy 1] with mode := .absent };
      s.addresses 1 { Instance.blank with cfg := unfilled, mode := .idle } ∧ s.requests = .destroy 1 :: []
        ∧ (0 = s.sel → s.mode = .absent))
    ∧ (∀ q ∈ [Request.destroy 0, .encode 0 [] [], .decode 0 [] []],
      let s := { State.reset with requests := [q] }
      s.mode = .absent ∧ s.requests = q :: [])
    ∧ (∀ q ∈ [Request.destroy 2, .encode 2 [] [], .decode 2 [] []],
      let s := idle unfilled [q]
      s.mode = .idle ∧ 2 ≠ s.sel ∧ findInstance s.parked 2 = none ∧ s.requests = q :: []) :=
  ⟨⟨.inl ⟨rfl, rfl, rfl⟩, rfl, rfl, by decide⟩, ⟨.inr ⟨by decide, .inl rfl, rfl, rfl⟩, rfl, by decide, rfl, by decide⟩,
    ⟨.inr ⟨by decide, .inr rfl, rfl, rfl⟩, rfl, fun _ => rfl⟩, by decide, by decide⟩

theorem test_witness_DecodeStartsFromReset :
    (let s := idle Configuration.default [.decode 0 [0x00] [0x99]];
      s.addresses 0 s.toInstance ∧ s.cfg.prefillMode = .constant)
    ∧ (let s := idle { Configuration.default with prefillMode := .custom, prefillFn := some (Vector.replicate 4096 7) }
          [.decode 0 [0x00] [0x99]];
      s.addresses 0 s.toInstance ∧ s.cfg.prefillMode = .custom ∧ s.cfg.prefillFn = some (Vector.replicate 4096 7))
    ∧ (idle Configuration.default [.decode 1 [0x00] [0x99]]).addresses 1 { Instance.blank with cfg := unfilled, mode := .idle } :=
  ⟨⟨.inl ⟨rfl, rfl, rfl⟩, rfl⟩, ⟨.inl ⟨rfl, rfl, rfl⟩, rfl, rfl⟩, .inr ⟨by decide, .inl rfl, rfl, rfl⟩⟩

/-- The selected instance in each prefill mode, and a parked one; inputs of one byte and of more than `F`. -/
theorem test_witness_EncodeBeginsSeeded :
    (let s := idle unfilled [.encode 0 [0x41] []];
      s.addresses 0 s.toInstance ∧ s.cfg.prefillMode = .none ∧ ([0x41] : List Byte) ≠ []
        ∧ s.requests = .encode 0 [0x41] [] :: [])
    ∧ (let s := idle Configuration.default [.encode 0 (List.replicate 19 0x20) []];
      s.addresses 0 s.toInstance ∧ s.cfg.prefillMode = .constant ∧ (List.replicate 19 (0x20 : Byte)) ≠ []
        ∧ s.requests = .encode 0 (List.replicate 19 0x20) [] :: [])
    ∧ (let s := idle { Configuration.default with prefillMode := .custom, prefillFn := some (Vector.replicate 4096 7) }
          [.encode 0 [0x41] []];
      s.addresses 0 s.toInstance ∧ s.cfg.prefillMode = .custom ∧ s.cfg.prefillFn = some (Vector.replicate 4096 7)
        ∧ s.requests = .encode 0 [0x41] [] :: [])
    ∧ (idle Configuration.default [.encode 1 [0x41] []]).addresses 1 { Instance.blank with cfg := unfilled, mode := .idle } :=
  ⟨⟨.inl ⟨rfl, rfl, rfl⟩, rfl, by decide, rfl⟩, ⟨.inl ⟨rfl, rfl, rfl⟩, rfl, by decide, rfl⟩,
    ⟨.inl ⟨rfl, rfl, rfl⟩, rfl, rfl, rfl⟩, .inr ⟨by decide, .inl rfl, rfl, rfl⟩⟩

theorem test_witness_EmptyInputEncodesToNothing :
    let s := idle withEos [.encode 0 [] [0x99]]
    s.addresses 0 s.toInstance ∧ s.requests = .encode 0 [] [0x99] :: [] ∧ ([0x99] : List Byte)[0]? = some 0x99 :=
  ⟨.inl ⟨rfl, rfl, rfl⟩, rfl, rfl⟩

theorem test_witness_CallsEndWithTheirStatuses :
    (let s := afterByte unfilled 0x41 [0x02, 0x00] 1;
      ∃ t, step s = .next t ∧ t.mode = .idle ∧ s.mode = .decoding ∧ s.dec.op ≤ s.outCap)
    ∧ (let s := coding Configuration.default 0 1 0;
      ∃ t, step s = .next t ∧ t.mode = .idle ∧ s.mode = .encoding ∧ s.enc.outCount ≤ s.outCap) :=
  ⟨⟨_, rfl, rfl, rfl, by decide⟩, ⟨_, rfl, rfl, rfl, by decide⟩⟩

theorem test_witness_OutputGrowsInOrder :
    (let s := afterByte Configuration.default 0x41 [0x01, 0x0F] 10;
      (∃ t, step s = .next t) ∧ s.mode = .decoding ∧ s.dec.op ≤ s.outCap)
    ∧ (let s := (coding Configuration.default 0 1 1).appendCode 0x41;
      (∃ t, step s = .next t) ∧ s.mode = .encoding ∧ s.enc.outCount ≤ s.outCap) :=
  ⟨⟨goes_on (by decide), by decide, by decide⟩, ⟨goes_on (by decide), by decide, by decide⟩⟩

theorem test_witness_InsertIntoEmptyTree :
    ramRead ({ vTree with rson := [] } : MatchFinder).rson (4097 + (vWindow.byteT 100).toNat) = 4096
    ∧ ramRead vTree.rson (4097 + (vWindow.byteT 0).toNat) = 4096 := by
  decide

/-- V29's tree as a shape. -/
def vShape : SearchTree :=
  .node (.node (.node .nil 400 .nil) 200 (.node (.node .nil 600 .nil) 500 .nil)) 100 (.node .nil 300 .nil)

theorem vShape_drawn : vShape.drawn vTree (rootSlot 0x4D) (nodeOf 100) := by
  simp only [vShape, SearchTree.drawn]
  decide

theorem vShape_bytes {p : WinPos} (hp : p ∈ vShape.nodes) : vWindow.byteT p = 0x4D :=
  have h : vShape.nodes.map vWindow.byteT = List.replicate 6 0x4D := by decide
  List.eq_of_mem_replicate (h ▸ List.mem_map_of_mem hp)

theorem vTree_attached {p : WinPos} (hp : vTree.attached p) : p ∈ vShape.nodes := by
  by_contra hn
  apply hp
  have h : ∀ n : Nat, BitVec.ofNat 12 n ∈ vShape.nodes → n ≠ p.toNat := by
    rintro n hm rfl
    exact hn (by simpa using hm)
  change (cellsFind vTree.dad p.toNat).getD Config.NIL = Config.NIL
  simp only [vTree, cellsFind, if_neg (h 100 (by decide)), if_neg (h 200 (by decide)), if_neg (h 300 (by decide)),
    if_neg (h 400 (by decide)), if_neg (h 500 (by decide)), if_neg (h 600 (by decide)), Option.getD_none]

/-- V29's trees keep R47. -/
theorem vTree_ok : vTree.treesOk vWindow := by
  have hk : vShape.nodes.map (fun p => (vWindow.byteT p, vWindow.byteT (p + 1)))
      = [(0x4D, 0x43), (0x4D, 0x46), (0x4D, 0x47), (0x4D, 0x48), (0x4D, 0x4D), (0x4D, 0x54)] := by decide
  have hs : (vShape.nodes.map (fun p => (vWindow.byteT p, vWindow.byteT (p + 1)))).Pairwise
      (fun x y => x.1 = y.1 ∧ x.2.toNat < y.2.toNat) := by rw [hk]; decide
  replace hs := List.pairwise_map.1 hs
  refine ⟨fun c => if c = 0x4D then vShape else .nil, fun c => ?_, fun p hp => ?_⟩
  · by_cases hc : c = 0x4D
    · subst hc
      refine ⟨vShape_drawn, by decide, fun p => vShape_bytes, hs.imp fun h => .inr ⟨1, by decide, fun k hk => ?_, h.2⟩⟩
      obtain rfl : k = 0 := by omega
      simpa using h.1
    · simp only [if_neg hc]
      refine ⟨?_, by simp [SearchTree.nodes], by simp [SearchTree.nodes], by simp [SearchTree.nodes]⟩
      have h : c.toNat ≠ 77 := fun e => hc (BitVec.eq_of_toNat_eq e)
      change (cellsFind vTree.rson (rootSlot c).toNat).getD Config.NIL = Config.NIL
      rw [rootSlot_toNat]
      simp only [vTree, cellsFind, if_neg (show ¬ 100 = 4097 + c.toNat by omega),
        if_neg (show ¬ 200 = 4097 + c.toNat by omega), if_neg (show ¬ 4174 = 4097 + c.toNat by omega), Option.getD_none]
  · have hm := vTree_attached hp
    rw [vShape_bytes hm]
    exact hm

/-- A longer match, a saturated one, a match of one byte, and a first byte with no tree; a node in the tree and its prefix. -/
theorem test_witness_InsertFindsTheLongestMatch :
    (∃ m', vTree30.insert vWindow 800 = some m' ∧ 1 < m'.matchLength.toNat)
    ∧ (vTree.treesOk vWindow ∧ ¬ vTree.attached 0 ∧ ¬ vTree.attached 700 ∧ ¬ vTree.attached 4095)
    ∧ (∃ m', vTree.insert vWindow 700 = some m' ∧ m'.matchLength = 18 ∧ m'.matchPosition = 200)
    ∧ (vTree.attached 200 ∧ vWindow.byteT 200 = vWindow.byteT 700 ∧ keysAgree vWindow 18 700 200)
    ∧ (∀ p, vTree.attached p → vWindow.byteT p ≠ vWindow.byteT 0) := by
  refine ⟨?_, ⟨vTree_ok, by unfold MatchFinder.attached; decide⟩, ?_, ⟨by unfold MatchFinder.attached; decide, by decide,
    ?_⟩,
    fun p hp => by rw [vShape_bytes (vTree_attached hp)]; decide⟩
  case refine_3 =>
    have h : compareKeys vWindow 700 200 = (18, .eq) := by decide
    have := (compareKeys_found (win := vWindow) (r := 700) (p := 200) (by decide)).1
    rwa [h] at this
  case refine_2 =>
    have h : (vTree.insert vWindow 700).map (fun m => (m.matchLength, m.matchPosition)) = some (18, 200) := by decide
    obtain ⟨m', e, h⟩ := Option.map_eq_some_iff.1 h
    exact ⟨m', e, congrArg Prod.fst h, congrArg Prod.snd h⟩
  exact   Option.isSome_iff_exists.1 (by decide : (vTree30.insert vWindow 800).isSome = true) |>.imp fun m' h => ⟨h, by
    have := test_insert_longer
    rw [h] at this
    simp only [Option.map_some, Option.some.injEq, Prod.mk.injEq] at this
    rw [this.1]
    decide⟩

/-- The hypotheses of ReplaceTakesOverLinks. -/
abbrev replaceable (m : MatchFinder) (p r d l c : TreeIndex) : Prop :=
  (p.toNat < 4096 ∧ r.toNat < 4096 ∧ p ≠ r ∧ d.toNat ≤ 4352 ∧ d ≠ 4096 ∧ d ≠ p ∧ d ≠ r)
    ∧ (l.toNat ≤ 4096 ∧ c.toNat ≤ 4096 ∧ l ≠ p ∧ l ≠ r ∧ c ≠ p ∧ c ≠ r)
    ∧ (ramRead m.dad p.toNat = d ∧ ramRead m.lson p.toNat = l ∧ ramRead m.rson p.toNat = c)
    ∧ (ramRead m.rson d.toNat = p ∨ (ramRead m.rson d.toNat ≠ p ∧ d.toNat < 4096))

/-- A left child, and a root's child. -/
theorem test_witness_ReplaceTakesOverLinks :
    replaceable vTree30 200 700 500 400 600 ∧ replaceable vTree30 500 700 4174 200 300 :=
  ⟨⟨by decide, by decide, by decide, by decide⟩, ⟨by decide, by decide, by decide, by decide⟩⟩

theorem test_witness_DeleteOfUnattachedIsNothing :
    (700 : TreeIndex).toNat < 4096 ∧ ramRead vTree.dad (700 : TreeIndex).toNat = 4096 := by
  decide

/-- The hypotheses of DeleteSplicesReplacement on a node with at most one child. -/
abbrev spliceable (m : MatchFinder) (p d q : TreeIndex) : Prop :=
  (p.toNat < 4096 ∧ d.toNat ≤ 4352 ∧ d ≠ 4096 ∧ d ≠ p ∧ q.toNat ≤ 4096 ∧ q ≠ p)
    ∧ ramRead m.dad p.toNat = d
    ∧ (ramRead m.rson p.toNat = 4096 ∧ ramRead m.lson p.toNat = q
      ∨ ramRead m.rson p.toNat = q ∧ ramRead m.lson p.toNat = 4096)
    ∧ (ramRead m.rson d.toNat = p ∨ (ramRead m.rson d.toNat ≠ p ∧ d.toNat < 4096))

/-- Leaves on either side, and nodes with one child, on the left and on the right. -/
theorem test_witness_DeleteSplicesReplacement_one_child :
    spliceable vTree 300 100 4096 ∧ spliceable vTree 400 200 4096 ∧ spliceable vTree 500 200 600
      ∧ spliceable { vTree with lson := [(100, 200), (200, 400)], rson := [(100, 300), (200, 500), (500, 600)] } 500 200 600 :=
  ⟨⟨by decide, by decide, by decide, by decide⟩, ⟨by decide, by decide, by decide, by decide⟩,
    ⟨by decide, by decide, by decide, by decide⟩, ⟨by decide, by decide, by decide, by decide⟩⟩

/-- The hypotheses of DeleteSplicesReplacement on a node of a drawn tree. -/
abbrev joinable (m : MatchFinder) (p : WinPos) (d : TreeIndex) (a b : SearchTree) : Prop :=
  (SearchTree.node a p b).drawn m d (nodeOf p) ∧ (SearchTree.node a p b).nodes.Nodup
    ∧ (∀ q ∈ (SearchTree.node a p b).nodes, d ≠ nodeOf q) ∧ d ≠ 4096 ∧ d.toNat ≤ 4352
    ∧ (ramRead m.rson d.toNat = nodeOf p ∨ (ramRead m.rson d.toNat ≠ nodeOf p ∧ d.toNat < 4096))

/-- V30's node, its predecessor two levels down; a left child, its predecessor its own left child; a right child; a leaf. -/
theorem test_witness_DeleteSplicesReplacement :
    joinable vTree 100 4174 (.node (.node .nil 400 .nil) 200 (.node (.node .nil 600 .nil) 500 .nil)) (.node .nil 300 .nil)
    ∧ joinable vTree 200 100 (.node .nil 400 .nil) (.node (.node .nil 600 .nil) 500 .nil)
    ∧ joinable vTree 500 200 (.node .nil 600 .nil) .nil
    ∧ joinable vTree 600 500 .nil .nil := by
  have outside : ∀ {t : SearchTree} {d : TreeIndex}, d ∉ t.nodes.map nodeOf → ∀ q ∈ t.nodes, d ≠ nodeOf q :=
    fun h _ hq e => h (e ▸ List.mem_map_of_mem hq)
  refine ⟨⟨?_, by decide, outside (by decide), by decide, by decide, by decide⟩,
    ⟨?_, by decide, outside (by decide), by decide, by decide, by decide⟩,
    ⟨?_, by decide, outside (by decide), by decide, by decide, by decide⟩,
    ⟨?_, by decide, outside (by decide), by decide, by decide, by decide⟩⟩
  all_goals
    simp only [SearchTree.drawn]
    decide

/-- V30's predecessor, from the left subtree: 500, its left child 600 in its place. -/
theorem test_join_takes_the_predecessor :
    SearchTree.join (.node (.node .nil 400 .nil) 200 (.node (.node .nil 600 .nil) 500 .nil)) (.node .nil 300 .nil)
      = .node (.node (.node .nil 400 .nil) 200 (.node .nil 600 .nil)) 500 (.node .nil 300 .nil) := by
  decide

theorem test_witness_DeleteKeepsTheTrees :
    (∃ m', vTree.delete 100 = some m') ∧ vTree.treesOk vWindow ∧ vTree.attached 100 ∧ ¬ vTree.attached 4095 :=
  ⟨Option.isSome_iff_exists.1 (by decide), vTree_ok, by unfold MatchFinder.attached; decide,
    by unfold MatchFinder.attached; decide⟩

theorem test_witness_ShortMatchEmitsLiteral :
    ∀ codeLen ∈ [(1 : BitVec 5), 16],
      let s := { coding Configuration.default 2 codeLen 9 with mf := { vTree with matchLength := 18 } }
      min s.mf.matchLength.toNat s.enc.len.toNat ≤ 2 ∧ 1 ≤ s.enc.codeLen.toNat ∧ s.enc.codeLen.toNat ≤ 16 := by
  decide

theorem test_witness_LongMatchEmitsReference :
    ∀ len ∈ [(3 : BitVec 5), 18],
      let s := { coding Configuration.default len 15 9 with mf := { vTree with matchLength := 18 } }
      len.toNat = min s.mf.matchLength.toNat s.enc.len.toNat ∧ 3 ≤ len.toNat ∧ len.toNat ≤ 18 ∧ s.enc.codeLen.toNat + 2 ≤ 17 := by
  decide

theorem test_witness_FlushAppendsTheGroup :
    let s := coding Configuration.default 0 17 17
    s.mode = .encoding ∧ s.enc.outCount + s.enc.codeLen.toNat ≤ s.outCap := by
  decide

theorem test_witness_FlushStopsAtCapacity :
    ∀ cap ∈ [0, 16],
      let s := coding Configuration.default 0 17 cap
      s.mode = .encoding ∧ s.enc.outCount ≤ s.outCap ∧ s.outCap < s.enc.outCount + s.enc.codeLen.toNat := by
  decide

/-- `coding`, on its way to fill slot 8. -/
def atLastSlot (len codeLen : BitVec 5) (cap : Nat) : State :=
  let s := coding Configuration.default len codeLen cap
  { s with enc := { s.enc with slot := 7 } }

/-- The code buffer at the ends of its range; a turn with the first slot free, with the last one, where the group fits exactly and
where it misses by one byte; the closing of a lone control byte, of a pending group, and with the terminator, at both capacities. -/
theorem test_witness_EncoderRunsItsLoop :
    (∀ codeLen ∈ [(1 : BitVec 5), 15],
      let s := coding withEos 0 codeLen 9
      1 ≤ s.enc.codeLen.toNat ∧ s.enc.codeLen.toNat + 2 ≤ 17)
    ∧ (let s := coding Configuration.default 1 1 0;
      s.mode = .encoding ∧ s.enc.len ≠ 0 ∧ s.enc.codeLen.toNat + 2 ≤ 17 ∧ s.enc.outCount ≤ s.outCap ∧ s.enc.slot ≠ 7
        ∧ ∃ v, (fun o : Option State => o.bind State.slideByte)^[s.encodeStep.enc.lastMatchLength.toNat]
          (some { s.encodeStep with enc := { s.encodeStep.enc with i := 0 } }) = some v)
    ∧ (let s := atLastSlot 1 15 16;
      s.mode = .encoding ∧ s.enc.len ≠ 0 ∧ s.enc.codeLen.toNat + 2 ≤ 17 ∧ s.enc.outCount ≤ s.outCap ∧ s.enc.slot = 7
        ∧ s.enc.outCount + s.encodeStep.enc.codeLen.toNat ≤ s.outCap
        ∧ ∃ v, (fun o : Option State => o.bind State.slideByte)^[s.encodeStep.enc.lastMatchLength.toNat]
          (some { s.encodeStep.flush with enc := { s.encodeStep.flush.enc with i := 0 } }) = some v)
    ∧ (let s := atLastSlot 1 15 15;
      s.mode = .encoding ∧ s.enc.len ≠ 0 ∧ s.enc.codeLen.toNat + 2 ≤ 17 ∧ s.enc.outCount ≤ s.outCap ∧ s.enc.slot = 7
        ∧ s.outCap < s.enc.outCount + s.encodeStep.enc.codeLen.toNat)
    ∧ (let s := coding Configuration.default 0 1 0;
      s.mode = .encoding ∧ s.enc.len = 0 ∧ 1 ≤ s.enc.codeLen.toNat ∧ s.enc.codeLen.toNat + 2 ≤ 17 ∧ s.enc.outCount ≤ s.outCap
        ∧ s.cfg.eosMode = .none ∧ s.enc.codeLen = 1)
    ∧ (∀ cap ∈ [1, 2],
      let s := coding Configuration.default 0 2 cap
      s.mode = .encoding ∧ s.enc.len = 0 ∧ 1 ≤ s.enc.codeLen.toNat ∧ s.enc.codeLen.toNat + 2 ≤ 17 ∧ s.enc.outCount ≤ s.outCap
        ∧ s.cfg.eosMode = .none ∧ s.enc.codeLen ≠ 1
        ∧ (s.enc.outCount + s.enc.codeLen.toNat ≤ s.outCap ↔ cap = 2))
    ∧ (∀ cap ∈ [16, 17],
      let s := coding withEos 0 15 cap
      s.mode = .encoding ∧ s.enc.len = 0 ∧ 1 ≤ s.enc.codeLen.toNat ∧ s.enc.codeLen.toNat + 2 ≤ 17 ∧ s.enc.outCount ≤ s.outCap
        ∧ s.cfg.eosMode = .nullref
        ∧ (s.enc.outCount + s.appendEos.enc.codeLen.toNat ≤ s.outCap ↔ cap = 17)) := by
  refine ⟨both (by decide) (by decide), ⟨rfl, by decide, by decide, by decide, by decide, Option.isSome_iff_exists.1 (by decide)⟩,
    ⟨rfl, by decide, by decide, by decide, by decide, by decide, Option.isSome_iff_exists.1 (by decide)⟩, by decide, by decide,
    both (by decide) (by decide), both (by decide) (by decide)⟩

/-- The turn that fills slot 8 flushes; the one before does not (R161). -/
theorem test_turn_flushes_at_slot_8 :
    (after (step (atLastSlot 1 15 16))).map (fun t => (t.enc.outCount, t.enc.codeLen, t.enc.slot)) = some (16, 1, 0)
    ∧ (after (step (coding Configuration.default 1 1 16))).map (fun t => (t.enc.outCount, t.enc.codeLen, t.enc.slot))
      = some (0, 2, 1) := by
  decide

/-- A lone control byte is not flushed (R170). -/
theorem test_close_of_a_lone_control_byte :
    (after (step (coding Configuration.default 0 1 9))).map (fun t => (t.bytesWritten, t.status, t.mode)) = some (0, .ok, .idle) := by
  decide

/-- A byte of input left; none left with a lookahead of two, and of one. -/
theorem test_witness_SlideMovesOneByte :
    let s := coding Configuration.default 2 1 9
    let t := { s with enc := { s.enc with ip := 1 } }
    let u := { s with enc := { s.enc with len := 1 } }
    (∃ m, t.mf.delete (t.enc.s.setWidth 13) = some m ∧ t.inBuf[t.enc.ip]? = some 0x20
      ∧ ∃ m', m.insert (t.win.write t.enc.s.toNat 0x20) (t.enc.r + 1) = some m')
    ∧ (∃ m, s.mf.delete (s.enc.s.setWidth 13) = some m ∧ s.inBuf.length ≤ s.enc.ip
      ∧ ∃ m', (if s.enc.len - 1 = 0 then some m else m.insert s.win (s.enc.r + 1)) = some m')
    ∧ (∃ m, u.mf.delete (u.enc.s.setWidth 13) = some m ∧ u.inBuf.length ≤ u.enc.ip
      ∧ ∃ m', (if u.enc.len - 1 = 0 then some m else m.insert u.win (u.enc.r + 1)) = some m') := by
  refine ⟨⟨Instance.blank.mf, by decide, by decide, Option.isSome_iff_exists.1 (by decide)⟩,
    ⟨Instance.blank.mf, by decide, by decide, Option.isSome_iff_exists.1 (by decide)⟩,
    ⟨Instance.blank.mf, by decide, by decide, Option.isSome_iff_exists.1 (by decide)⟩⟩

/-- An ENCODE in its run over V29's window and trees, `n` bytes of lookahead loaded. -/
def codingOnTrees (len : BitVec 5) (cap : Nat) : State :=
  { coding Configuration.default len 1 cap with win := vWindow, mf := vTree }

theorem codingOnTrees_ok (len : BitVec 5) (cap : Nat) : (codingOnTrees len cap).treesInOrder := by
  refine fun _ => ⟨vTree_ok, ?_⟩
  have h : ∀ k, k < 18 → 1 ≤ k → ¬ vTree.attached (4078 + BitVec.ofNat 12 k) := by unfold MatchFinder.attached; decide
  exact fun k h1 h2 => h k h2 h1

theorem test_witness_EncodeTerminates :
    (coding Configuration.default 18 1 0).mode = .encoding
    ∧ (let s := codingOnTrees 18 0;
      s.mode = .encoding ∧ s.encoderInRange ∧ s.treesInOrder) :=
  ⟨rfl, rfl, fun _ => by decide, codingOnTrees_ok 18 0⟩

theorem test_witness_StepKeepsTrees :
    let s := codingOnTrees 18 9
    s.encoderInRange ∧ s.treesInOrder ∧ ∃ t, step s = .next t ∧ t.mode = .encoding := by
  exact ⟨fun _ => by decide, codingOnTrees_ok 18 9, goes_on_with (by decide)⟩

theorem test_witness_HeaderFoundOnlyWhole : readHeader vFields (writeHeader vFields 1000 250) = .found (some 1000) (some 250) 10 := by
  decide

end Sys2Proof.Tests
end

/-! PROOFS. Statements of 00_scope.md: the turn of a running DECODE (StepRunsTheDecodedSymbol, BoundaryBeforeNextFlag,
DecodeTerminates, StepKeepsDecoderInRange) and the loop of a running ENCODE (EncoderRunsItsLoop). -/

namespace Sys2Proof.Machine

/-! ### The control-bit read (43_decoder.md R181 to R183) -/

theorem nextFlag_eq (order : BitOrder) (c : Byte) : nextFlag order c = c.getLsbD (if order = .lsb then 0 else 7) := by
  cases order <;> rfl

theorem shiftCtrl_eq (order : BitOrder) (c : Byte) : shiftCtrl order c = if order = .lsb then c >>> 1 else c <<< 1 := by
  cases order <;> rfl

theorem State.symbolSelector_eq (s : State) : s.symbolSelector = if s.dec.flag then .literal else .reference := rfl

/-- The end of a DECODE's call (R230). -/
theorem State.finish_decoding {s : State} (hm : s.mode = .decoding) (st : Status) :
    s.finish st = { s with status := st, bytesWritten := s.dec.op, mode := .idle } := by
  simp only [State.finish, State.bytesOut, hm]

/-- In `ReadControlBit` the end of input ends the call (R182). -/
theorem step_of_inputEnd {s : State} (hm : s.mode = .decoding) (hd : s.dec.dstate = .readControlBit)
    (hi : s.inBuf.length ≤ s.dec.ip) : step s = .next (s.finish .ok) := by
  simp only [step, hm, State.decodeStep, hd, State.decodeTurn, if_pos hi]

/-- The step from `s` is the step from the state it reaches for its symbol, where that state has a flag taken. -/
theorem step_eq_step_of_reachesSymbol {s u : State} (h : s.reachesSymbol u) (hm : u.mode = .decoding)
    (hd : u.dec.dstate = .processSymbol) : step s = step u := by
  have hu : u.reachesSymbol u := ⟨hm, .inr (.inr ⟨hd, rfl⟩)⟩
  rw [step_of_reachesSymbol h, step_of_reachesSymbol hu]

/-- Settles O16: the symbol that the flag selects is what `processSymbol` runs, and a control byte's run is `loadCtrl`. -/
theorem stepRunsTheDecodedSymbol : Obligations.StepRunsTheDecodedSymbol := by
  refine ⟨fun s u t i rest hr hdec hexec => ?_, fun s t i rest hm hd hb hdec hexec => ?_⟩
  · rw [step_of_reachesSymbol hr, State.processSymbol, State.symbolSelector_eq, State.runSymbol_of_decode hdec hexec]
    rfl
  · obtain ⟨f, -, rfl, hf⟩ | ⟨_, hsel, -⟩ | ⟨_, _, hsel, -⟩ := decode_symbol hdec
    · cases hexec
      exact ⟨hm, .inr (.inl ⟨f, hd, hb, by rw [← List.head?_drop, hf]; rfl, rfl⟩)⟩
    · cases hsel
    · cases hsel

/-- Settles O17: the end-of-input test comes first; then the state reached is the one with its flag taken. -/
theorem boundaryBeforeNextFlag : Obligations.BoundaryBeforeNextFlag := by
  refine fun s hm hd => ⟨fun hi => ?_, fun hi hb => ?_, fun f hf hb => ?_⟩
  · rw [step_of_inputEnd hm hd hi.ge, State.finish_decoding hm]
  · rw [← nextFlag_eq, ← shiftCtrl_eq]
    exact step_eq_step_of_reachesSymbol (u := s.takeFlag) ⟨hm, .inl ⟨hd, hi, hb, rfl⟩⟩ hm rfl
  · rw [← nextFlag_eq, ← shiftCtrl_eq, show (7 : BitVec 4) = 8 - 1 from rfl]
    exact step_eq_step_of_reachesSymbol (u := (s.loadCtrl f).takeFlag) ⟨hm, .inr (.inl ⟨f, hd, hb, hf, rfl⟩)⟩ hm rfl

/-! ### What a copy leaves alone (43_decoder.md R188) -/

@[simp] theorem State.copy_cfg (n : Nat) (s : State) : (s.copy n).cfg = s.cfg := by
  obtain ⟨_, _, _, _, _, _, _, _, h⟩ := State.copy_frame n s
  rw [h]

@[simp] theorem State.copy_inBuf (n : Nat) (s : State) : (s.copy n).inBuf = s.inBuf := by
  obtain ⟨_, _, _, _, _, _, _, _, h⟩ := State.copy_frame n s
  rw [h]

@[simp] theorem State.copy_outCap (n : Nat) (s : State) : (s.copy n).outCap = s.outCap := by
  obtain ⟨_, _, _, _, _, _, _, _, h⟩ := State.copy_frame n s
  rw [h]

@[simp] theorem State.copy_dec_ip (n : Nat) (s : State) : (s.copy n).dec.ip = s.dec.ip := by
  obtain ⟨_, _, _, _, _, _, _, _, h⟩ := State.copy_frame n s
  rw [h]

@[simp] theorem State.copy_dec_bitsLeft (n : Nat) (s : State) : (s.copy n).dec.bitsLeft = s.dec.bitsLeft := by
  obtain ⟨_, _, _, _, _, _, _, _, h⟩ := State.copy_frame n s
  rw [h]

/-- A copy goes on in its call or ends it. -/
theorem State.copy_mode (n : Nat) (s : State) : (s.copy n).mode = .idle ∨ (s.copy n).mode = s.mode := by
  induction n generalizing s with
  | zero => exact .inr rfl
  | succ n ih =>
    rw [State.copy]
    split
    · exact ih s.copyByte
    · exact .inl rfl

/-! ### The output count and the window cursor (10_state.md R40, R41; 43_decoder.md R192) -/

/-- The output count is within `OUT`, and the window cursor stands at `writeStart + op`. -/
def State.cursorInRange (s : State) : Prop :=
  s.dec.op ≤ s.outCap ∧ s.dec.cur = s.cfg.writeStart + BitVec.ofNat 12 s.dec.op

/-- Producing a byte where there is room for it moves the count and the cursor together. -/
theorem State.cursorInRange_produce {s : State} (hroom : s.dec.op < s.outCap) (h : s.cursorInRange) (b : Byte) :
    (s.produce b).cursorInRange := by
  refine ⟨hroom, ?_⟩
  rw [State.produce_dec_cur, State.produce_dec_op, State.produce_cfg, h.2, BitVec.ofNat_add, BitVec.add_assoc]
  rfl

theorem State.cursorInRange_literal {s : State} (h : s.cursorInRange) (b : Byte) : (s.literal b).cursorInRange := by
  unfold State.literal
  split
  · next hroom => exact State.cursorInRange_produce (s := s.skip 1) hroom h b
  · exact h

theorem State.cursorInRange_copy {n : Nat} {s : State} (h : s.cursorInRange) : (s.copy n).cursorInRange := by
  induction n generalizing s with
  | zero => exact h
  | succ n ih =>
    rw [State.copy]
    split
    · next hroom => exact ih (s := s.copyByte) (State.cursorInRange_produce hroom h (s.win.byteT (sourcePos s.dec.cur s.dec.ofs)))
    · exact h

/-! ### What a turn of a running DECODE does (43_decoder.md R181, R192, R262) -/

/-- What any turn, or rest of a turn, from `s` to `t` does: the Configuration and the buffers stay, the registers' ranges are
kept, and the call ends or has taken input. -/
structure State.Turn (s t : State) : Prop where
  cfg : t.cfg = s.cfg
  inBuf : t.inBuf = s.inBuf
  outCap : t.outCap = s.outCap
  cursor : s.cursorInRange → t.cursorInRange
  bitsLeft : s.dec.bitsLeft.toNat ≤ 7 → t.dec.bitsLeft.toNat ≤ 7
  ends_or_takesInput : t.mode = .idle ∨ t.mode = .decoding ∧ s.dec.ip < t.dec.ip ∧ t.dec.ip ≤ s.inBuf.length

theorem State.turn_finish (s : State) (st : Status) : s.Turn (s.finish st) :=
  ⟨rfl, rfl, rfl, id, id, .inl rfl⟩

theorem State.turn_literal {s : State} (hm : s.mode = .decoding) (hi : s.dec.ip < s.inBuf.length) (b : Byte) :
    s.Turn (s.literal b) := by
  by_cases hroom : s.dec.op < s.outCap
  · have hl : s.literal b = (s.skip 1).produce b := if_pos hroom
    exact ⟨by rw [hl]; rfl, by rw [hl]; rfl, by rw [hl]; rfl, (State.cursorInRange_literal · b), by rw [hl]; exact id,
      .inr (by rw [hl]; exact ⟨hm, Nat.lt_succ_self _, hi⟩)⟩
  · have hl : s.literal b = s.finish .outputExhausted := if_neg hroom
    rw [hl]
    exact State.turn_finish s _

theorem State.turn_reference {s : State} (hm : s.mode = .decoding) (hi : s.dec.ip + 2 ≤ s.inBuf.length) (ofs : WinPos)
    (len : LenField) : s.Turn (s.reference ofs len) := by
  rw [State.reference_eq]
  split
  · exact ⟨rfl, rfl, rfl, id, id, .inl rfl⟩
  · refine ⟨by simp, by simp, by simp, fun h => State.cursorInRange_copy h, by simp, ?_⟩
    refine (State.copy_mode _ _).imp id fun hgo => ⟨hgo.trans hm, ?_⟩
    rw [State.copy_dec_ip]
    exact ⟨by simp, hi⟩

theorem State.Turn.symbolDone {s t : State} (h : s.Turn t) : s.Turn t.symbolDone := by
  obtain ⟨hcfg, hin, hcap, hcur, hbits, hend⟩ := h
  exact ⟨by simpa, by simpa, by simpa, by simpa [State.cursorInRange] using hcur, by simpa, by simpa⟩

/-- A symbol's end leaves a running call in `ReadControlBit` (R42). -/
theorem State.symbolDone_dstate {s : State} (h : s.symbolDone.mode = .decoding) :
    s.symbolDone.dec.dstate = .readControlBit := by
  rw [State.symbolDone_mode] at h
  rw [State.symbolDone, if_pos h]

/-- Processing a symbol is the rest of a turn, and leaves a running call in `ReadControlBit`. -/
theorem State.processSymbol_turn {s : State} (hm : s.mode = .decoding) :
    ∃ t, s.processSymbol = .next t ∧ s.Turn t ∧ (t.mode = .decoding → t.dec.dstate = .readControlBit) := by
  have hlen : (s.inBuf.drop s.dec.ip).length = s.inBuf.length - s.dec.ip := List.length_drop
  obtain ⟨-, he⟩ | ⟨b, rest, -, hb, he⟩ | ⟨first, second, rest, -, hb, ⟨-, -, -, he⟩ | ⟨-, he⟩⟩ := s.processSymbol_cases
  · exact ⟨_, he, s.turn_finish _, nofun⟩
  · rw [hb, List.length_cons] at hlen
    exact ⟨_, he, (State.turn_literal hm (by omega) b).symbolDone, State.symbolDone_dstate⟩
  · exact ⟨_, he, State.Turn.symbolDone ⟨rfl, rfl, rfl, id, id, .inl rfl⟩, State.symbolDone_dstate⟩
  · rw [hb, List.length_cons, List.length_cons] at hlen
    exact ⟨_, he, (State.turn_reference hm (by omega) _ _).symbolDone, State.symbolDone_dstate⟩

/-- A control-bit read takes no input back, and leaves `OUT`'s count, the cursor, and at most 7 flag bits. -/
theorem State.reachesSymbol_frame {s u : State} (h : s.reachesSymbol u) :
    u = { s with dec := { s.dec with
        ip := u.dec.ip, ctrl := u.dec.ctrl, bitsLeft := u.dec.bitsLeft, flag := u.dec.flag, dstate := u.dec.dstate } }
      ∧ s.dec.ip ≤ u.dec.ip ∧ (s.dec.bitsLeft.toNat ≤ 7 → u.dec.bitsLeft.toNat ≤ 7) := by
  obtain ⟨-, ⟨-, -, hb, rfl⟩ | ⟨f, -, -, -, rfl⟩ | ⟨-, rfl⟩⟩ := h
  · refine ⟨rfl, le_rfl, fun h7 => ?_⟩
    rw [State.takeFlag_dec_bitsLeft]
    bv_omega
  · exact ⟨rfl, Nat.le_succ _, fun _ => by simp⟩
  · exact ⟨rfl, le_rfl, id⟩

/-- A control-bit read and the rest of the turn are a turn. -/
theorem State.Turn.of_reachesSymbol {s u t : State} (hr : s.reachesSymbol u) (ht : u.Turn t) : s.Turn t := by
  obtain ⟨hframe, hip, hbits⟩ := State.reachesSymbol_frame hr
  obtain ⟨hcfg, hin, hcap, hcur, hbits', hend⟩ := ht
  have hucfg : u.cfg = s.cfg := by rw [hframe]
  have huin : u.inBuf = s.inBuf := by rw [hframe]
  have hucap : u.outCap = s.outCap := by rw [hframe]
  have hucur : u.cursorInRange = s.cursorInRange := by rw [hframe]; rfl
  exact ⟨hcfg.trans hucfg, hin.trans huin, hcap.trans hucap, hucur ▸ hcur, hbits' ∘ hbits,
    hend.imp id fun ⟨hm, hlt, hle⟩ => ⟨hm, hip.trans_lt hlt, huin ▸ hle⟩⟩

/-- Every step of a running DECODE is a turn, and leaves a running call in `ReadControlBit`. -/
theorem step_decoding_turn {s : State} (hm : s.mode = .decoding) :
    ∃ t, step s = .next t ∧ s.Turn t ∧ (t.mode = .decoding → t.dec.dstate = .readControlBit) := by
  obtain ⟨-, -, he⟩ | ⟨u, hr, he⟩ := step_decoding_cases hm
  · exact ⟨_, he, s.turn_finish _, nofun⟩
  · have hum : u.mode = .decoding := by rw [(State.reachesSymbol_frame hr).1]; exact hm
    obtain ⟨t, hnext, ht, hd⟩ := State.processSymbol_turn hum
    exact ⟨t, he.trans hnext, ht.of_reachesSymbol hr, hd⟩

/-- A turn that does not end the call leaves less input. -/
theorem State.Turn.decodeMeasure_lt {s t : State} (h : s.Turn t) (hm : t.mode ≠ .idle) :
    t.decodeMeasure < s.decodeMeasure := by
  obtain ⟨-, hlt, hle⟩ := h.ends_or_takesInput.resolve_left hm
  rw [State.decodeMeasure, State.decodeMeasure, h.inBuf]
  omega

theorem run_succ_of_step {s t : State} (h : step s = .next t) (k : Nat) :
    Host.Core.run core (k + 1) s = Host.Core.run core k t := by
  have hcore : core.step s = .next t := h
  simp only [Host.Core.run, hcore]

/-- Settles O20, by induction on a bound on the input left: a turn ends the call or takes some of it. -/
theorem decodeTerminates : Obligations.DecodeTerminates := by
  intro s hm
  induction hn : s.decodeMeasure using Nat.strong_induction_on generalizing s with
  | _ n ih =>
    obtain ⟨u, hstep, hturn, -⟩ := step_decoding_turn hm
    obtain hidle | ⟨hu, -⟩ := hturn.ends_or_takesInput
    · exact ⟨1, u, by omega, run_succ_of_step hstep 0, hidle⟩
    · have hlt := hturn.decodeMeasure_lt (by simp [hu])
      obtain ⟨k, t, hk, hrun, ht⟩ := ih _ (hn ▸ hlt) u hu rfl
      exact ⟨k + 1, t, by omega, (run_succ_of_step hstep k).trans hrun, ht⟩

/-! ### A step of a running ENCODE (42_encoder.md R161) -/

/-- What a codeword turn has done before its SLIDE: STEP, and FLUSH where 8 slots are filled. -/
def State.coded (s : State) : State :=
  if s.encodeStep.enc.slot = 8 then s.encodeStep.flush else s.encodeStep

/-- What the closing flushes: the pending group, with the terminator where the Configuration has one (R171). -/
def State.closing (s : State) : State :=
  if s.cfg.eosMode = .nullref then s.appendEos else s

/-- The closing up to its `finish`: the last FLUSH, of a group with at least one codeword (R170). -/
def State.closed (s : State) : State :=
  if 1 < s.closing.enc.codeLen.toNat then s.closing.flush else s.closing

theorem State.closing_of_nullref {s : State} (h : s.cfg.eosMode = .nullref) : s.closing = s.appendEos := if_pos h

theorem State.closing_of_none {s : State} (h : s.cfg.eosMode = .none) : s.closing = s := if_neg (by simp [h])

/-- The closing's terminator is in the encoder's registers alone. -/
theorem State.closing_frame (s : State) : s.closing = { s with enc := s.closing.enc } := by
  rw [State.closing]
  split <;> rfl

theorem State.closing_mode (s : State) : s.closing.mode = s.mode := by rw [s.closing_frame]

theorem State.closing_outCap (s : State) : s.closing.outCap = s.outCap := by rw [s.closing_frame]

theorem State.closing_outCount (s : State) : s.closing.enc.outCount = s.enc.outCount := by
  rw [State.closing]
  split <;> rfl

theorem State.codeRoom_eq_true {s : State} (h : s.enc.codeLen.toNat + 2 ≤ 17) : s.codeRoom = true := decide_eq_true h

/-- A codeword turn whose call goes on after STEP and FLUSH is those and SLIDE. -/
theorem State.encodeTurn_of_slide {s v : State} (hroom : s.codeRoom = true) (hgo : s.coded.mode = .encoding)
    (hv : s.coded.slide = some v) : s.encodeTurn = .next v := by
  simp only [State.encodeTurn, if_pos hroom, ← State.coded.eq_1, if_pos hgo, hv]

/-- A codeword turn whose FLUSH ends the call ends there. -/
theorem State.encodeTurn_of_ends {s : State} (hroom : s.codeRoom = true) (hend : s.coded.mode ≠ .encoding) :
    s.encodeTurn = .next s.coded := by
  simp only [State.encodeTurn, if_pos hroom, ← State.coded.eq_1, if_neg hend]

/-- A codeword turn that answers is one of these two. -/
theorem State.encodeTurn_next {s t : State} (h : s.encodeTurn = .next t) :
    (s.coded.mode = .encoding ∧ s.coded.slide = some t) ∨ (s.coded.mode ≠ .encoding ∧ t = s.coded) := by
  by_cases hroom : s.codeRoom = true
  · by_cases hgo : s.coded.mode = .encoding
    · cases hv : s.coded.slide with
      | some v =>
        rw [State.encodeTurn_of_slide hroom hgo hv] at h
        cases h
        exact .inl ⟨hgo, rfl⟩
      | none =>
        simp only [State.encodeTurn, if_pos hroom, ← State.coded.eq_1, if_pos hgo, hv] at h
        cases h
    · rw [State.encodeTurn_of_ends hroom hgo] at h
      cases h
      exact .inr ⟨hgo, rfl⟩
  · rw [State.encodeTurn, if_neg hroom] at h
    cases h

/-- The closing is the terminator, the last FLUSH, and the end of the call where the FLUSH has not ended it. -/
theorem State.encodeClose_of_codeRoom {s : State} (hroom : s.codeRoom = true) :
    s.encodeClose = .next (if s.closed.mode = .encoding then s.closed.finish .ok else s.closed) := by
  rw [State.encodeClose, if_pos hroom]
  simp only [← State.closing.eq_1, ← State.closed.eq_1]
  split <;> rfl

theorem step_of_encodeTurn {s : State} (hm : s.mode = .encoding) (hl : s.enc.len ≠ 0) : step s = s.encodeTurn := by
  simp only [step, hm, State.encodeStepOnce, if_neg hl]

theorem step_of_encodeClose {s : State} (hm : s.mode = .encoding) (hl : s.enc.len = 0) : step s = s.encodeClose := by
  simp only [step, hm, State.encodeStepOnce, if_pos hl]

/-! ### Where a step leaves `MODE` when no DECODE runs (10_state.md R36) -/

/-- FLUSH's copy goes on in its call or ends it. -/
theorem State.flushFrom_mode (n k : Nat) (s : State) : (s.flushFrom n k).mode = .idle ∨ (s.flushFrom n k).mode = s.mode := by
  induction n generalizing k s with
  | zero => exact .inr rfl
  | succ n ih =>
    rw [State.flushFrom]
    split
    · exact ih (k + 1) (s.emitByte (s.enc.codeBuf.read k))
    · exact .inl rfl

theorem State.flush_mode (s : State) : s.flush.mode = .idle ∨ s.flush.mode = s.mode := by
  have hcopy := State.flushFrom_mode s.enc.codeLen.toNat 0 s
  rw [State.flush]
  split
  · exact hcopy
  · exact hcopy

@[simp] theorem State.encodeStep_mode (s : State) : s.encodeStep.mode = s.mode := by
  obtain ⟨-, h⟩ | ⟨-, _, _, -, h⟩ := s.encodeStep_cases <;> rw [h]

theorem State.slide_mode {s t : State} (h : s.slide = some t) : t.mode = s.mode := by
  rw [(State.slideFrom_frame h).1]

/-- FLUSH starts no DECODE. -/
theorem State.flush_mode_ne_decoding {s : State} (hm : s.mode = .encoding) : s.flush.mode ≠ .decoding := by
  obtain h | h := s.flush_mode <;> simp [h, hm]

theorem State.coded_mode_ne_decoding {s : State} (hm : s.mode = .encoding) : s.coded.mode ≠ .decoding := by
  have hstep : s.encodeStep.mode = .encoding := s.encodeStep_mode.trans hm
  rw [State.coded]
  split
  · exact State.flush_mode_ne_decoding hstep
  · rw [hstep]; decide

theorem State.closed_mode_ne_decoding {s : State} (hm : s.mode = .encoding) : s.closed.mode ≠ .decoding := by
  have hclosing : s.closing.mode = .encoding := s.closing_mode.trans hm
  rw [State.closed]
  split
  · exact State.flush_mode_ne_decoding hclosing
  · rw [hclosing]; decide

theorem State.encodeTurn_mode {s t : State} (hm : s.mode = .encoding) (h : s.encodeTurn = .next t) : t.mode ≠ .decoding := by
  obtain ⟨-, hslide⟩ | ⟨-, rfl⟩ := State.encodeTurn_next h
  · rw [State.slide_mode hslide]
    exact State.coded_mode_ne_decoding hm
  · exact State.coded_mode_ne_decoding hm

theorem State.encodeClose_mode {s t : State} (hm : s.mode = .encoding) (h : s.encodeClose = .next t) : t.mode ≠ .decoding := by
  by_cases hroom : s.codeRoom = true
  · rw [State.encodeClose_of_codeRoom hroom] at h
    cases h
    split
    · rw [State.finish_mode]; decide
    · exact State.closed_mode_ne_decoding hm
  · rw [State.encodeClose, if_neg hroom] at h
    cases h

theorem State.encodeStepOnce_mode {s t : State} (hm : s.mode = .encoding) (h : s.encodeStepOnce = .next t) :
    t.mode ≠ .decoding := by
  unfold State.encodeStepOnce at h
  split at h
  · exact State.encodeClose_mode hm h
  · exact State.encodeTurn_mode hm h

theorem State.encodeHead_mode {s t : State} (hm : s.mode = .encoding) (h : s.encodeHead = .next t) : t.mode ≠ .decoding := by
  unfold State.encodeHead at h
  dsimp only at h
  split at h
  · cases h; simp
  · split at h
    · cases h; simp [hm]
    · cases h

/-- A DECODE that a request starts is at its call's start (R37). -/
theorem State.perform_starts_decode {q : Request} {s t : State} (hm : s.mode ≠ .decoding) (h : s.perform q = .next t)
    (ht : t.mode = .decoding) : t.dec = decoderStart t.cfg := by
  cases q with
  | getDefaultConfig => cases h; exact absurd ht hm
  | create c =>
    rw [State.perform, requestCreate] at h
    split at h
    · cases h; exact absurd ht hm
    · cases h; cases ht
  | destroy handle =>
    rw [State.perform, requestDestroy] at h
    split at h <;> cases h
    cases ht
  | encode handle input output =>
    rw [State.perform, requestEncode] at h
    split at h
    · exact absurd ht (State.encodeHead_mode rfl h)
    · cases h
    · cases h
  | decode handle input output =>
    rw [State.perform, requestDecode] at h
    split at h <;> cases h
    rfl
  | parseSpec spec =>
    rw [State.perform, requestParse] at h
    split at h
    · cases h; exact absurd ht hm
    · cases h; exact absurd ht hm
  | writeHeader fields origSize compSize => cases h; exact absurd ht hm
  | readHeader fields input => cases h; exact absurd ht hm

theorem State.serve_starts_decode {s t : State} (hm : s.mode ≠ .decoding) (h : s.serve = .next t) (ht : t.mode = .decoding) :
    t.dec = decoderStart t.cfg := by
  unfold State.serve at h
  split at h
  · cases h; exact absurd ht hm
  · exact State.perform_starts_decode (by exact hm) h ht

/-- Where no DECODE runs, a step after which one does has just started it. -/
theorem step_starts_decode {s t : State} (hm : s.mode ≠ .decoding) (h : step s = .next t) (ht : t.mode = .decoding) :
    t.dec = decoderStart t.cfg := by
  cases hs : s.mode with
  | decoding => exact absurd hs hm
  | encoding => exact absurd ht (State.encodeStepOnce_mode hs (by simpa only [step, hs] using h))
  | idle => exact State.serve_starts_decode hm (by simpa only [step, hs] using h) ht
  | absent => exact State.serve_starts_decode hm (by simpa only [step, hs] using h) ht

theorem State.decoderInRange_of_decoderStart {s : State} (h : s.dec = decoderStart s.cfg) : s.decoderInRange := by
  intro
  rw [h]
  simp [decoderStart]

/-- A turn keeps the decoder's ranges (R192). -/
theorem State.Turn.decoderInRange {s t : State} (hm : s.mode = .decoding) (h : s.Turn t) (hs : s.decoderInRange) :
    t.decoderInRange := by
  intro ht
  obtain ⟨-, hop, hcur, hbits⟩ := hs hm
  obtain ⟨hop', hcur'⟩ := h.cursor ⟨hop, hcur⟩
  obtain ⟨-, -, hip⟩ := h.ends_or_takesInput.resolve_left (by simp [ht])
  exact ⟨h.inBuf ▸ hip, hop', hcur', h.bitsLeft hbits⟩

/-- Settles O22: a step from a running DECODE is a turn; from any other state, a DECODE that runs after it is at its start. -/
theorem stepKeepsDecoderInRange : Obligations.StepKeepsDecoderInRange := by
  intro s t hstep
  by_cases hm : s.mode = .decoding
  · obtain ⟨u, hnext, hturn, hd⟩ := step_decoding_turn hm
    obtain rfl : u = t := by simpa [hnext] using hstep
    exact ⟨hturn.decoderInRange hm, hd⟩
  · have hstart := step_starts_decode hm hstep
    exact ⟨fun _ ht => State.decoderInRange_of_decoderStart (hstart ht) ht, fun ht => by rw [hstart ht]; rfl⟩

/-! ### The terminator, FLUSH and SLIDE (42_encoder.md R168 to R172) -/

/-- APPEND_EOS puts two zero bytes at the end of the pending codewords and counts a codeword (R171). -/
theorem State.appendEos_eq (s : State) :
    s.appendEos = { s with enc := { s.enc with
      codeBuf := (s.enc.codeBuf.write s.enc.codeLen.toNat 0).write (s.enc.codeLen + 1).toNat 0
      codeLen := s.enc.codeLen + 1 + 1
      slot := s.enc.slot + 1 } } := rfl

/-- FLUSH of a group that fits (R169). -/
theorem State.flush_of_fits {s : State} (hm : s.mode = .encoding) (h : s.enc.outCount + s.enc.codeLen.toNat ≤ s.outCap) :
    s.flush = (s.flushFrom s.enc.codeLen.toNat 0).clearCode := by
  refine if_pos ?_
  rw [State.flushFrom_fits h]
  exact hm

theorem State.flush_mode_of_fits {s : State} (hm : s.mode = .encoding)
    (h : s.enc.outCount + s.enc.codeLen.toNat ≤ s.outCap) : s.flush.mode = .encoding := by
  rw [State.flush_of_fits hm h, State.clearCode_mode, State.flushFrom_fits h]
  exact hm

theorem State.flush_outCount_of_fits {s : State} (hm : s.mode = .encoding)
    (h : s.enc.outCount + s.enc.codeLen.toNat ≤ s.outCap) :
    s.flush.enc.outCount = s.enc.outCount + s.enc.codeLen.toNat := by
  rw [State.flush_of_fits hm h, State.clearCode_enc_outCount, State.flushFrom_fits h]

theorem State.flush_lastMatchLength (s : State) : s.flush.enc.lastMatchLength = s.enc.lastMatchLength := by
  rw [State.flush, State.flushFrom_frame]
  split
  · rfl
  · rfl

/-- FLUSH of a group that does not fit ends the call (R172). -/
theorem State.flush_mode_of_exhausted {s : State} (h0 : s.enc.outCount ≤ s.outCap)
    (h : s.outCap < s.enc.outCount + s.enc.codeLen.toNat) : s.flush.mode = .idle := by
  have he := State.flushFrom_exhausted (k := 0) h0 h
  rw [State.flush, he]
  rfl

/-- SLIDE's loop is its byte, iterated (R168). -/
theorem State.slideFrom_eq_iterate (n : Nat) (s : State) :
    s.slideFrom n = (fun o : Option State => o.bind State.slideByte)^[n] (some s) := by
  induction n generalizing s with
  | zero => rfl
  | succ n ih =>
    rw [Function.iterate_succ_apply, Option.bind_some, State.slideFrom]
    cases s.slideByte with
    | none => exact (Function.iterate_fixed rfl n).symm
    | some t => exact ih t

/-- The end of an ENCODE's call (R230). -/
theorem State.finish_encoding {s : State} (hm : s.mode = .encoding) (st : Status) :
    s.finish st = { s with status := st, bytesWritten := s.enc.outCount, mode := .idle } := by
  simp only [State.finish, State.bytesOut, hm]

/-! ### The encoder's loop (42_encoder.md R161) -/

theorem State.encodeStep_slot_eq_eight (s : State) : s.encodeStep.enc.slot = 8 ↔ s.enc.slot = 7 := by
  have hslot : s.encodeStep.enc.slot = s.enc.slot + 1 := by
    obtain ⟨-, h⟩ | ⟨-, _, _, -, h⟩ := s.encodeStep_cases <;> rw [h]
  rw [hslot]
  bv_omega

theorem State.encodeStep_outCount (s : State) : s.encodeStep.enc.outCount = s.enc.outCount := by
  obtain ⟨-, h⟩ | ⟨-, _, _, -, h⟩ := s.encodeStep_cases <;> rw [h]

theorem State.encodeStep_outCap (s : State) : s.encodeStep.outCap = s.outCap := by
  obtain ⟨-, h⟩ | ⟨-, _, _, -, h⟩ := s.encodeStep_cases <;> rw [h]

/-- STEP alone, where the slot was not the last. -/
theorem State.coded_of_slot_ne {s : State} (h : s.enc.slot ≠ 7) : s.coded = s.encodeStep :=
  if_neg (mt s.encodeStep_slot_eq_eight.1 h)

theorem State.coded_of_slot_eq {s : State} (h : s.enc.slot = 7) : s.coded = s.encodeStep.flush :=
  if_pos (s.encodeStep_slot_eq_eight.2 h)

/-- APPEND_EOS's effect and frame (R171). -/
theorem State.appendEos_frame {s : State} (hroom : s.enc.codeLen.toNat + 2 ≤ 17) :
    ∃ e : EncoderRegs, s.appendEos = { s with enc := e }
      ∧ e = { s.enc with codeBuf := e.codeBuf, codeLen := s.enc.codeLen + 2, slot := s.enc.slot + 1 }
      ∧ e.codeBuf.read s.enc.codeLen.toNat = 0 ∧ e.codeBuf.read (s.enc.codeLen.toNat + 1) = 0
      ∧ ∀ a, a ≠ s.enc.codeLen.toNat → a ≠ s.enc.codeLen.toNat + 1 → e.codeBuf.read a = s.enc.codeBuf.read a := by
  have hnext : (s.enc.codeLen + 1).toNat = s.enc.codeLen.toNat + 1 := by bv_omega
  have hbuf : s.appendEos.enc.codeBuf
      = (s.enc.codeBuf.write s.enc.codeLen.toNat 0).write (s.enc.codeLen.toNat + 1) 0 := by
    rw [State.appendEos_eq, hnext]
  refine ⟨s.appendEos.enc, rfl, ?_, ?_, ?_, fun a h0 h1 => ?_⟩
  · conv_lhs => rw [State.appendEos_eq, BitVec.add_assoc]
    rfl
  · rw [hbuf, Memory.read_write_other _ _ (by omega), Memory.read_write_same]
  · rw [hbuf, Memory.read_write_same]
  · rw [hbuf, Memory.read_write_other _ _ h1, Memory.read_write_other _ _ h0]

/-- A codeword turn (R161): the slot that STEP fills says whether FLUSH comes, and the room in `OUT` whether SLIDE follows. -/
theorem State.encodeTurn_by_slot {s : State} (hm : s.mode = .encoding) (hroom : s.codeRoom = true)
    (hout : s.enc.outCount ≤ s.outCap) :
    (s.enc.slot ≠ 7 → ∀ v, s.encodeStep.slide = some v → s.encodeTurn = .next v)
    ∧ (s.enc.slot = 7 → s.enc.outCount + s.encodeStep.enc.codeLen.toNat ≤ s.outCap →
        ∀ v, s.encodeStep.flush.slide = some v → s.encodeTurn = .next v)
    ∧ (s.enc.slot = 7 → s.outCap < s.enc.outCount + s.encodeStep.enc.codeLen.toNat →
        s.encodeTurn = .next s.encodeStep.flush) := by
  have hstep : s.encodeStep.mode = .encoding := s.encodeStep_mode.trans hm
  rw [← s.encodeStep_outCount, ← s.encodeStep_outCap] at hout ⊢
  refine ⟨fun h7 v hv => ?_, fun h7 hfit v hv => ?_, fun h7 hfull => ?_⟩
  · rw [← State.coded_of_slot_ne h7] at hstep hv
    exact State.encodeTurn_of_slide hroom hstep hv
  · have hgo := State.flush_mode_of_fits hstep hfit
    rw [← State.coded_of_slot_eq h7] at hgo hv
    exact State.encodeTurn_of_slide hroom hgo hv
  · have hend := State.flush_mode_of_exhausted hout hfull
    rw [← State.coded_of_slot_eq h7] at hend ⊢
    exact State.encodeTurn_of_ends hroom (by rw [hend]; decide)

/-- With no codeword pending, the closing is the end of the call (R170). -/
theorem State.encodeClose_of_empty {s : State} (hm : s.mode = .encoding) (hroom : s.codeRoom = true)
    (heos : s.cfg.eosMode = .none) (hc : s.enc.codeLen = 1) : s.encodeClose = .next (s.finish .ok) := by
  have hclosed : s.closed = s := by
    rw [State.closed, State.closing_of_none heos, hc]
    rfl
  rw [State.encodeClose_of_codeRoom hroom, hclosed, if_pos hm]

/-- The closing's last FLUSH (R161, R172): the call ends `OK` where the group fits, in FLUSH where it does not. -/
theorem State.encodeClose_of_pending {s : State} (hm : s.mode = .encoding) (hroom : s.codeRoom = true)
    (hout : s.enc.outCount ≤ s.outCap) (hc : 1 < s.closing.enc.codeLen.toNat) :
    (s.enc.outCount + s.closing.enc.codeLen.toNat ≤ s.outCap →
      s.encodeClose = .next { s.closing.flush with
        status := .ok, bytesWritten := s.enc.outCount + s.closing.enc.codeLen.toNat, mode := .idle })
    ∧ (s.outCap < s.enc.outCount + s.closing.enc.codeLen.toNat → s.encodeClose = .next s.closing.flush) := by
  have hclosed : s.closed = s.closing.flush := if_pos hc
  have hmode : s.closing.mode = .encoding := s.closing_mode.trans hm
  rw [State.encodeClose_of_codeRoom hroom, hclosed]
  rw [← s.closing_outCount, ← s.closing_outCap] at hout ⊢
  refine ⟨fun hfit => ?_, fun hfull => ?_⟩
  · have hgo := State.flush_mode_of_fits hmode hfit
    rw [if_pos hgo, State.finish_encoding hgo, State.flush_outCount_of_fits hmode hfit]
  · rw [if_neg (by rw [State.flush_mode_of_exhausted hout hfull]; decide)]

/-- Settles O54: the terminator's frame, the codeword turn, and the closing with and without a codeword pending. -/
theorem encoderRunsItsLoop : Obligations.EncoderRunsItsLoop := by
  refine ⟨fun s _ hcap => State.appendEos_frame hcap, fun s hm hl hcap hout => ?_,
    fun s hm hl h1 hcap hout => ⟨fun heos hlen => ?_, ?_⟩⟩
  · obtain ⟨hgo, hfits, hfull⟩ := State.encodeTurn_by_slot hm (State.codeRoom_eq_true hcap) hout
    rw [step_of_encodeTurn hm hl]
    refine ⟨fun h7 v hv => hgo h7 v ?_, fun h7 hfit v hv => hfits h7 hfit v ?_, hfull⟩
    · rw [State.slide, State.slideFrom_eq_iterate]
      exact hv
    · rw [State.slide, State.slideFrom_eq_iterate, State.flush_lastMatchLength]
      exact hv
  · rw [step_of_encodeClose hm hl, State.encodeClose_of_empty hm (State.codeRoom_eq_true hcap) heos hlen,
      State.finish_encoding hm]
  · intro t ht
    obtain ⟨hclosing, hpending⟩ : s.closing = t ∧ 1 < t.enc.codeLen.toNat := by
      obtain ⟨heos, rfl⟩ | ⟨heos, hlen, rfl⟩ := ht
      · refine ⟨State.closing_of_nullref heos, ?_⟩
        rw [State.appendEos_eq]
        bv_omega
      · exact ⟨State.closing_of_none heos, by bv_omega⟩
    rw [step_of_encodeClose hm hl]
    subst hclosing
    exact State.encodeClose_of_pending hm (State.codeRoom_eq_true hcap) hout hpending

end Sys2Proof.Machine

/-! PROOFS. Statements of 10_state.md: what every step keeps of the window, the encoder's registers, the trees and the
Configuration, and the two call-start resets. -/

namespace Sys2Proof.Machine

/-! ### What a step does between calls (45_command_interface.md R215, R223) -/

/-- Everything a request can do that answers: hand something back, make a new coder, end one, start an ENCODE, start a
DECODE. -/
theorem State.perform_cases {q : Request} {s t : State} (h : s.perform q = .next t) :
    (t.toInstance = s.toInstance ∧ t.parked = s.parked)
    ∨ (∃ c cfg, checkConfiguration c = some cfg ∧ t.toInstance = newInstance cfg s.draws ∧ t.parked = s.park)
    ∨ (∃ handle u, s.select handle = .next u ∧ t.toInstance = Instance.blank ∧ t.parked = u.parked)
    ∨ (∃ handle input output u, s.select handle = .next u ∧ (u.encodeStart input output).encodeHead = .next t)
    ∨ (∃ handle input output u, s.select handle = .next u ∧ t = u.decodeStart input output) := by
  cases q with
  | getDefaultConfig => cases h; exact .inl ⟨rfl, rfl⟩
  | create c =>
    rw [State.perform, requestCreate] at h
    split at h
    · cases h; exact .inl ⟨rfl, rfl⟩
    · next cfg hcfg => cases h; exact .inr (.inl ⟨c, cfg, hcfg, rfl, rfl⟩)
  | destroy handle =>
    rw [State.perform, requestDestroy] at h
    split at h <;> cases h
    next u hu => exact .inr (.inr (.inl ⟨handle, u, hu, rfl, rfl⟩))
  | encode handle input output =>
    rw [State.perform, requestEncode] at h
    split at h
    · next u hu => exact .inr (.inr (.inr (.inl ⟨handle, input, output, u, hu, h⟩)))
    · cases h
    · cases h
  | decode handle input output =>
    rw [State.perform, requestDecode] at h
    split at h <;> cases h
    next u hu => exact .inr (.inr (.inr (.inr ⟨handle, input, output, u, hu, rfl⟩)))
  | parseSpec spec =>
    rw [State.perform, requestParse] at h
    split at h <;> cases h <;> exact .inl ⟨rfl, rfl⟩
  | writeHeader fields origSize compSize => cases h; exact .inl ⟨rfl, rfl⟩
  | readHeader fields input => cases h; exact .inl ⟨rfl, rfl⟩

/-- Between calls a step changes nothing, or takes the oldest request. -/
theorem step_between_calls {s t : State} (hm : s.mode = .idle ∨ s.mode = .absent) (h : step s = .next t) :
    t = s ∨ ∃ q rest, s.requests = q :: rest ∧ State.perform q { s with requests := rest } = .next t := by
  have hs : s.serve = .next t := by
    rcases hm with hm | hm <;> simpa only [step, hm] using h
  unfold State.serve at hs
  split at hs
  · cases hs; exact .inl rfl
  · next q rest hq => exact .inr ⟨q, rest, hq, hs⟩

/-- A DECODE starts only from a request for it, which makes its call-start reset. -/
theorem State.perform_decoding {q : Request} {s t : State} (h : s.perform q = .next t) (hs : s.mode ≠ .decoding)
    (ht : t.mode = .decoding) : ∃ u input output, t = State.decodeStart input output u := by
  obtain ⟨e, -⟩ | ⟨c, cfg, -, e, -⟩ | ⟨_, u, -, e, -⟩ | ⟨_, input, output, u, -, e⟩ | ⟨_, input, output, u, -, e⟩ :=
    State.perform_cases h
  · exact absurd (e ▸ ht) hs
  · rw [e] at ht; cases ht
  · rw [e] at ht; cases ht
  · exact absurd ht (State.encodeHead_mode rfl e)
  · exact ⟨u, input, output, e⟩

/-- The head of an ENCODE whose call goes on is LOAD, SEED and the first INSERT (R161). -/
theorem State.encodeHead_encoding {s t : State} (h : s.encodeHead = .next t) (ht : t.mode = .encoding) :
    ∃ m, (s.load.mf.seed s.load.cfg s.load.win).bind (·.insert s.load.win s.load.enc.r) = some m
      ∧ t = { s.load with mf := m } := by
  unfold State.encodeHead at h
  dsimp only at h
  split at h
  · cases h; cases ht
  · split at h
    · next m hm => cases h; exact ⟨m, hm, rfl⟩
    · cases h

/-- An ENCODE starts only from a request for it: its call-start reset, and the head of its run. -/
theorem State.perform_encoding {q : Request} {s t : State} (h : s.perform q = .next t) (hs : s.mode ≠ .encoding)
    (ht : t.mode = .encoding) : ∃ u input output, (State.encodeStart input output u).encodeHead = .next t := by
  obtain ⟨e, -⟩ | ⟨c, cfg, -, e, -⟩ | ⟨_, u, -, e, -⟩ | ⟨_, input, output, u, -, e⟩ | ⟨_, input, output, u, -, rfl⟩ :=
    State.perform_cases h
  · exact absurd (e ▸ ht) hs
  · rw [e] at ht; cases ht
  · rw [e] at ht; cases ht
  · exact ⟨u, input, output, e⟩
  · cases ht

/-- Where no DECODE runs, a step after which one does has made its call-start reset. -/
theorem step_starts_decoding {s t : State} (hs : s.mode ≠ .decoding) (h : step s = .next t) (ht : t.mode = .decoding) :
    ∃ u input output, t = State.decodeStart input output u := by
  cases hm : s.mode with
  | decoding => exact absurd hm hs
  | encoding => exact absurd ht (State.encodeStepOnce_mode hm (by simpa only [step, hm] using h))
  | idle | absent =>
    obtain rfl | ⟨q, rest, -, hq⟩ := step_between_calls (by simp [hm]) h
    · exact absurd ht hs
    · exact State.perform_decoding hq hs ht

/-- Where no ENCODE runs, a step after which one does has made its call-start reset and the head of its run. -/
theorem step_starts_encoding {s t : State} (hs : s.mode ≠ .encoding) (h : step s = .next t) (ht : t.mode = .encoding) :
    ∃ u input output, (State.encodeStart input output u).encodeHead = .next t := by
  cases hm : s.mode with
  | encoding => exact absurd hm hs
  | decoding =>
    obtain ⟨t', ht', hturn, -⟩ := step_decoding_turn hm
    obtain rfl : t' = t := by simpa [ht'] using h
    obtain e | ⟨e, -⟩ := hturn.ends_or_takesInput <;> rw [e] at ht <;> cases ht
  | idle | absent =>
    obtain rfl | ⟨q, rest, -, hq⟩ := step_between_calls (by simp [hm]) h
    · exact absurd ht hs
    · exact State.perform_encoding hq hs ht

/-! ### What every step of a running DECODE keeps (43_decoder.md R181) -/

/-- A property that the decoder's registers other than `op` and `cur`, the result registers and `MODE` have no part in, and
that producing a byte with room for it keeps. -/
structure KeptByDecoding (P : State → Prop) : Prop where
  frame : ∀ (s : State) (md : Mode) (st : Status) (bw : Nat) (d : DecoderRegs), d.op = s.dec.op → d.cur = s.dec.cur →
    P s → P { s with mode := md, status := st, bytesWritten := bw, dec := d }
  produce : ∀ (s : State) (b : Byte), s.dec.op < s.outCap → P s → P (s.produce b)

section
variable {P : State → Prop}

theorem KeptByDecoding.finish (hP : KeptByDecoding P) {s : State} (st : Status) (h : P s) : P (s.finish st) :=
  hP.frame s _ _ _ _ rfl rfl h

theorem KeptByDecoding.literal (hP : KeptByDecoding P) {s : State} (b : Byte) (h : P s) : P (s.literal b) := by
  unfold State.literal
  split
  · next hroom => exact hP.produce (s.skip 1) b hroom (hP.frame s _ _ _ _ rfl rfl h)
  · exact hP.finish _ h

theorem KeptByDecoding.copy (hP : KeptByDecoding P) {n : Nat} {s : State} (h : P s) : P (s.copy n) := by
  induction n generalizing s with
  | zero => exact h
  | succ n ih =>
    rw [State.copy]
    split
    · next hroom => exact ih (hP.frame (s.produce _) _ _ _ _ rfl rfl (hP.produce s _ hroom h))
    · exact hP.finish _ h

theorem KeptByDecoding.reference (hP : KeptByDecoding P) {s : State} (ofs : WinPos) (len : LenField) (h : P s) :
    P (s.reference ofs len) := by
  have hload : P ((s.loadRef ofs len).setRemaining (copyLength len)) := hP.frame s _ _ _ _ rfl rfl h
  rw [State.reference_eq]
  split
  · exact hP.finish _ hload
  · exact hP.copy hload

theorem KeptByDecoding.symbolDone (hP : KeptByDecoding P) {s : State} (h : P s) : P s.symbolDone := by
  unfold State.symbolDone
  split
  · exact hP.frame s _ _ _ _ rfl rfl h
  · exact h

theorem KeptByDecoding.processSymbol (hP : KeptByDecoding P) {s t : State} (h : P s) (ht : s.processSymbol = .next t) :
    P t := by
  obtain ⟨-, e⟩ | ⟨b, _, -, -, e⟩ | ⟨_, _, _, -, -, ⟨-, -, -, e⟩ | ⟨-, e⟩⟩ := s.processSymbol_cases <;> rw [e] at ht <;>
    cases ht
  · exact hP.finish _ h
  · exact hP.symbolDone (hP.literal b h)
  · exact hP.symbolDone (hP.finish _ (hP.frame s _ _ _ _ rfl rfl h))
  · exact hP.symbolDone (hP.reference _ _ h)

/-- Such a property is kept by every step of a running DECODE. -/
theorem KeptByDecoding.step (hP : KeptByDecoding P) {s t : State} (hm : s.mode = .decoding) (h : P s)
    (ht : step s = .next t) : P t := by
  obtain ⟨-, -, e⟩ | ⟨u, hr, e⟩ := step_decoding_cases hm <;> rw [e] at ht
  · cases ht; exact hP.finish _ h
  · refine hP.processSymbol ?_ ht
    rw [(State.reachesSymbol_frame hr).1]
    exact hP.frame s _ _ _ _ rfl rfl h

end

/-! ### The decoder's window (10_state.md R32) -/

/-- Positions less than `N` apart are different. -/
theorem winPos_add_ne {p : WinPos} {i j : Nat} (hij : i < j) (hj : j < i + 4096) :
    p + BitVec.ofNat 12 i ≠ p + BitVec.ofNat 12 j := by
  intro e
  have e := congrArg BitVec.toNat ((BitVec.add_right_inj p).1 e)
  simp only [BitVec.toNat_ofNat] at e
  omega

theorem winPos_add_succ (p : WinPos) (n : Nat) : p + BitVec.ofNat 12 (n + 1) = p + BitVec.ofNat 12 n + 1 := by
  rw [BitVec.ofNat_add, BitVec.add_assoc]
  rfl

theorem winPos_succ_add (p : WinPos) (n : Nat) : p + 1 + BitVec.ofNat 12 n = p + BitVec.ofNat 12 (n + 1) := by
  rw [winPos_add_succ]
  bv_omega

/-- The window of a DECODE (R32), whatever `MODE` says: the recent output behind the cursor, the prefill not yet reached. -/
def State.outputInWindow (s : State) : Prop :=
  (∀ j, 1 ≤ j → j ≤ s.dec.op → j ≤ 4096 → s.win.byteT (s.dec.cur - BitVec.ofNat 12 j) = s.out.read (s.dec.op - j))
    ∧ ∃ k, s.win.base = prefillBase s.cfg k ∧
      ∀ j, s.dec.op ≤ j → j < 4096 →
        s.win.byteT (s.cfg.writeStart + BitVec.ofNat 12 j)
          = (prefillBase s.cfg k).byteAt (s.cfg.writeStart + BitVec.ofNat 12 j).toNat

theorem State.windowHoldsOutput_iff (s : State) : s.windowHoldsOutput ↔ (s.mode = .decoding → s.outputInWindow) := Iff.rfl

theorem State.outputInWindow_produce {s : State} (hcur : s.cursorInRange) (h : s.outputInWindow) (b : Byte) :
    (s.produce b).outputInWindow := by
  obtain ⟨hrecent, k, hbase, hprefill⟩ := h
  refine ⟨fun j h1 hop hj => ?_, k, hbase, fun j hop hj => ?_⟩
  · obtain ⟨i, rfl⟩ : ∃ i, j = i + 1 := ⟨j - 1, by omega⟩
    have hback : s.dec.cur + 1 - BitVec.ofNat 12 (i + 1) = s.dec.cur - BitVec.ofNat 12 i := by bv_omega
    rw [State.produce_dec_op] at hop
    rw [State.produce_win, State.produce_out, State.produce_dec_cur, State.produce_dec_op, hback, Memory.byteT_write,
      Memory.read_write, show s.dec.op + 1 - (i + 1) = s.dec.op - i by omega]
    by_cases hi : i = 0
    · subst hi; simp
    · rw [if_neg (by bv_omega), if_neg (by omega)]
      exact hrecent i (by omega) (by omega) (by omega)
  · rw [State.produce_dec_op] at hop
    rw [State.produce_win, State.produce_cfg, Memory.byteT_write, hcur.2, if_neg (winPos_add_ne (by omega) (by omega)).symm]
    exact hprefill j (by omega) hj

theorem keptByDecoding_outputInWindow : KeptByDecoding fun s => s.cursorInRange ∧ s.outputInWindow where
  frame s _ _ _ d hop hcur h := by
    unfold State.cursorInRange State.outputInWindow
    simp only [hop, hcur]
    exact h
  produce s b hroom h := ⟨State.cursorInRange_produce hroom h.1 b, State.outputInWindow_produce h.1 h.2 b⟩

/-- DECODE's call-start reset has produced nothing and prefilled every position (R50, R121). -/
theorem State.outputInWindow_decodeStart (input output : List Byte) (s : State) :
    (s.decodeStart input output).outputInWindow :=
  ⟨fun _ h1 h0 _ => absurd (h1.trans h0) (by simp [State.decodeStart, decoderStart]), s.draws, rfl, fun _ _ _ => rfl⟩

/-- Settles O23: a produced byte goes where the cursor stands, the first position not yet reached. -/
theorem stepKeepsWindowHoldingOutput : Obligations.StepKeepsWindowHoldingOutput := by
  intro s t hrange hwin hstep
  rw [State.windowHoldsOutput_iff] at hwin ⊢
  intro ht
  by_cases hm : s.mode = .decoding
  · obtain ⟨-, hop, hcur, -⟩ := hrange hm
    exact (keptByDecoding_outputInWindow.step hm ⟨⟨hop, hcur⟩, hwin hm⟩ hstep).2
  · obtain ⟨u, input, output, rfl⟩ := step_starts_decoding hm hstep ht
    exact State.outputInWindow_decodeStart input output u

/-! ### What STEP, FLUSH and the closing touch (42_encoder.md R161 to R172) -/

theorem State.encodeStep_frame (s : State) :
    s.encodeStep = { s with enc := { s.enc with
      codeBuf := s.encodeStep.enc.codeBuf, codeLen := s.encodeStep.enc.codeLen
      lastMatchLength := s.encodeStep.enc.lastMatchLength, slot := s.encodeStep.enc.slot } } := by
  obtain ⟨-, e⟩ | ⟨-, _, _, -, e⟩ := s.encodeStep_cases <;> rw [e]

theorem State.flush_frame (s : State) :
    s.flush = { s with
      out := s.flush.out, mode := s.flush.mode, status := s.flush.status, bytesWritten := s.flush.bytesWritten
      enc := { s.enc with
        codeBuf := s.flush.enc.codeBuf, codeLen := s.flush.enc.codeLen, slot := s.flush.enc.slot
        outCount := s.flush.enc.outCount } } := by
  rw [State.flush, State.flushFrom_frame]
  split <;> rfl

/-- STEP and FLUSH touch `OUT`, the code buffer with its counters, and what the end of a call touches. -/
theorem State.coded_frame (s : State) :
    s.coded = { s with
      out := s.coded.out, mode := s.coded.mode, status := s.coded.status, bytesWritten := s.coded.bytesWritten
      enc := { s.enc with
        codeBuf := s.coded.enc.codeBuf, codeLen := s.coded.enc.codeLen, slot := s.coded.enc.slot
        lastMatchLength := s.coded.enc.lastMatchLength, outCount := s.coded.enc.outCount } } := by
  rw [State.coded]
  split
  · rw [State.flush_frame, State.encodeStep_frame]
  · rw [State.encodeStep_frame]

/-- The closing, up to its `finish`, touches `OUT`, the encoder's registers, and what the end of a call touches. -/
theorem State.closed_frame (s : State) :
    s.closed = { s with
      out := s.closed.out, mode := s.closed.mode, status := s.closed.status, bytesWritten := s.closed.bytesWritten
      enc := s.closed.enc } := by
  rw [State.closed]
  split
  · rw [State.flush_frame, State.closing_frame]
  · rw [State.closing_frame]

/-- Everything a step of a running ENCODE can do that answers: a turn with its SLIDE, a turn that FLUSH ends, the closing. -/
theorem step_encoding_cases {s t : State} (hm : s.mode = .encoding) (h : step s = .next t) :
    (s.enc.len ≠ 0 ∧ s.coded.mode = .encoding ∧ s.coded.slide = some t)
    ∨ (s.coded.mode ≠ .encoding ∧ t = s.coded)
    ∨ t = s.closed.finish .ok
    ∨ (s.closed.mode ≠ .encoding ∧ t = s.closed) := by
  by_cases hl : s.enc.len = 0
  · rw [step_of_encodeClose hm hl] at h
    by_cases hroom : s.codeRoom = true
    · rw [State.encodeClose_of_codeRoom hroom] at h
      cases h
      split
      · exact .inr (.inr (.inl rfl))
      · next hend => exact .inr (.inr (.inr ⟨hend, rfl⟩))
    · rw [State.encodeClose, if_neg hroom] at h
      cases h
  · rw [step_of_encodeTurn hm hl] at h
    obtain ⟨hgo, hslide⟩ | hend := State.encodeTurn_next h
    · exact .inl ⟨hl, hgo, hslide⟩
    · exact .inr (.inl hend)

/-- Where an ENCODE goes on, the step was a turn with its SLIDE. -/
theorem step_encoding_goes_on {s t : State} (hm : s.mode = .encoding) (h : step s = .next t) (ht : t.mode = .encoding) :
    s.enc.len ≠ 0 ∧ s.coded.mode = .encoding ∧ s.coded.slide = some t := by
  obtain h | ⟨hend, rfl⟩ | rfl | ⟨hend, rfl⟩ := step_encoding_cases hm h
  · exact h
  · exact absurd ht hend
  · cases ht
  · exact absurd ht hend

/-! ### The code buffer's counters (10_state.md R44, 42_encoder.md R169) -/

/-- The pending group fits the code buffer, and the output count is within `OUT`. -/
def State.groupInRange (s : State) : Prop :=
  s.enc.slot.toNat ≤ 7 ∧ 1 ≤ s.enc.codeLen.toNat ∧ s.enc.codeLen.toNat ≤ 1 + 2 * s.enc.slot.toNat
    ∧ s.enc.outCount ≤ s.outCap

/-- A codeword turn whose call goes on after FLUSH keeps the group in range: STEP adds at most two bytes, FLUSH leaves one. -/
theorem State.groupInRange_coded {s : State} (hm : s.mode = .encoding) (hgo : s.coded.mode = .encoding)
    (h : s.groupInRange) : s.coded.groupInRange := by
  obtain ⟨hslot, hpos, hlen, hout⟩ := h
  have hstep : s.encodeStep.mode = .encoding := s.encodeStep_mode.trans hm
  rw [← s.encodeStep_outCount, ← s.encodeStep_outCap] at hout
  by_cases h7 : s.enc.slot = 7
  · rw [State.coded_of_slot_eq h7] at hgo ⊢
    have hfits : s.encodeStep.enc.outCount + s.encodeStep.enc.codeLen.toNat ≤ s.encodeStep.outCap := by
      by_contra hfull
      rw [State.flush_mode_of_exhausted hout (by omega)] at hgo
      cases hgo
    rw [State.flush_of_fits hstep hfits, State.flushFrom_fits hfits]
    exact ⟨by simp, by simp, by simp, hfits⟩
  · rw [State.coded_of_slot_ne h7]
    obtain ⟨-, e⟩ | ⟨-, _, _, -, e⟩ := s.encodeStep_cases <;> rw [e] at hout ⊢ <;>
      refine ⟨?_, ?_, ?_, hout⟩ <;> simp only <;> bv_omega

/-! ### The lookahead (10_state.md R43, 42_encoder.md R168) -/

/-- The input index, the lookahead and the two window pointers stand to each other as R43 and R168 say. -/
def State.lookaheadInRange (s : State) : Prop :=
  s.enc.ip ≤ s.inBuf.length ∧ s.enc.len.toNat ≤ 18 ∧ s.enc.len.toNat ≤ s.enc.ip
    ∧ (s.enc.ip < s.inBuf.length → s.enc.len.toNat = 18)
    ∧ s.enc.s = s.enc.r + 18
    ∧ s.enc.r = s.cfg.writeStart + BitVec.ofNat 12 (s.enc.ip - s.enc.len.toNat)

theorem State.encoderInRange_iff (s : State) :
    s.encoderInRange ↔ (s.mode = .encoding → s.lookaheadInRange ∧ s.groupInRange) := by
  simp only [State.encoderInRange, State.lookaheadInRange, State.groupInRange, and_assoc]

/-- STEP and FLUSH leave the lookahead as it was. -/
theorem State.lookaheadInRange_coded {s : State} (h : s.lookaheadInRange) : s.coded.lookaheadInRange := by
  rw [State.coded_frame]
  exact h

/-- The codeword just emitted stands for no more bytes than the lookahead holds (R164). -/
theorem State.coded_lastMatchLength_le {s : State} (hl : s.enc.len ≠ 0) :
    s.coded.enc.lastMatchLength.toNat ≤ s.coded.enc.len.toNat := by
  have hlen : s.coded.enc.len = s.enc.len := by rw [State.coded_frame]
  have hlast : s.coded.enc.lastMatchLength = s.encodeStep.enc.lastMatchLength := by
    rw [State.coded]
    split
    · exact State.flush_lastMatchLength _
    · rfl
  rw [hlen, hlast]
  obtain ⟨-, e⟩ | ⟨-, _, _, -, e⟩ := s.encodeStep_cases <;> rw [e] <;> simp only
  · bv_omega
  · have hcap : s.cappedMatch ≤ s.enc.len.toNat := Nat.min_le_right _ _
    rw [BitVec.toNat_ofNat]
    exact (Nat.mod_le _ _).trans hcap

/-- One byte of SLIDE takes at most one byte from the lookahead. -/
theorem State.slideByte_len {s t : State} (h : s.slideByte = some t) : s.enc.len.toNat ≤ t.enc.len.toNat + 1 := by
  obtain ⟨_, -, ⟨_, _, -, -, rfl⟩ | ⟨_, -, -, rfl⟩⟩ := State.slideByte_some h
  · exact Nat.le_succ _
  · simp only
    bv_omega

/-- What every byte of SLIDE that finds a byte in the lookahead keeps, SLIDE keeps where the lookahead is long enough. -/
theorem State.slideFrom_induct_lookahead {P : State → Prop}
    (hP : ∀ s t : State, 1 ≤ s.enc.len.toNat → P s → s.slideByte = some t → P t) {n : Nat} {s t : State} (hs : P s)
    (hn : n ≤ s.enc.len.toNat) (h : s.slideFrom n = some t) : P t := by
  induction n generalizing s with
  | zero => cases h; exact hs
  | succ n ih =>
    rw [State.slideFrom] at h
    split at h
    · cases h
    · next u hu => exact ih (hP s u (by omega) hs hu) (by have := State.slideByte_len hu; omega) h

/-- The same of SLIDE whole, which sets its counter to 0 first. -/
theorem State.slide_induct_lookahead {P : State → Prop} (h0 : ∀ s : State, P s → P { s with enc := { s.enc with i := 0 } })
    (hP : ∀ s t : State, 1 ≤ s.enc.len.toNat → P s → s.slideByte = some t → P t) {s t : State} (hs : P s)
    (hn : s.enc.lastMatchLength.toNat ≤ s.enc.len.toNat) (h : s.slide = some t) : P t :=
  State.slideFrom_induct_lookahead hP (h0 s hs) hn h

/-- With input left, the byte that SLIDE loads next goes to the position of its index from `writeStart`. -/
theorem State.lookaheadInRange.loadPosition {s : State} (h : s.lookaheadInRange) (hin : s.enc.ip < s.inBuf.length) :
    s.enc.s = s.cfg.writeStart + BitVec.ofNat 12 s.enc.ip := by
  obtain ⟨-, -, hlen, hfull, hs, hr⟩ := h
  rw [hfull hin] at hr hlen
  rw [hs, hr, BitVec.add_assoc, show (18 : WinPos) = BitVec.ofNat 12 18 from rfl, ← BitVec.ofNat_add,
    Nat.sub_add_cancel hlen]

/-- The two window pointers stay `F` apart (R43). -/
theorem winPos_pointers_succ {r s : WinPos} (h : s = r + 18) : s + 1 = r + 1 + 18 := by bv_omega

theorem State.lookaheadInRange_slideByte {s t : State} (hl : 1 ≤ s.enc.len.toNat) (h : s.lookaheadInRange)
    (e : s.slideByte = some t) : t.lookaheadInRange := by
  obtain ⟨hip, hle, hlen, hfull, hs, hr⟩ := h
  obtain ⟨_, -, ⟨b, _, hb, -, rfl⟩ | ⟨_, hb, -, rfl⟩⟩ := State.slideByte_some e
  · obtain ⟨hin, -⟩ := List.getElem?_eq_some_iff.1 hb
    refine ⟨hin, hle, hlen.trans (Nat.le_succ _), fun _ => hfull hin, winPos_pointers_succ hs, ?_⟩
    simp only
    rw [hr, ← winPos_add_succ, Nat.sub_add_comm hlen]
  · have hout := List.getElem?_eq_none_iff.1 hb
    have hdec : (s.enc.len - 1).toNat = s.enc.len.toNat - 1 := by bv_omega
    refine ⟨hip, ?_, ?_, fun hin => absurd hin (by simp only; omega), winPos_pointers_succ hs, ?_⟩ <;> simp only [hdec]
    · omega
    · omega
    · rw [hr, ← winPos_add_succ, show s.enc.ip - (s.enc.len.toNat - 1) = s.enc.ip - s.enc.len.toNat + 1 by omega]

/-! ### ENCODE's start (10_state.md R43 to R45, R50; 42_encoder.md R162) -/

/-- The encoder's registers after the call-start reset and LOAD. -/
theorem State.encodeStart_load_enc (input output : List Byte) (s : State) :
    (s.encodeStart input output).load.enc =
      { ip := min 18 input.length, r := s.cfg.writeStart, s := s.cfg.writeStart + 18
        len := BitVec.ofNat 5 (min 18 input.length), lastMatchLength := 0, i := 0, slot := 0, codeLen := 1
        outCount := 0, codeBuf := { base := .constant 0, cells := [] } } := by
  rw [← List.length_take (i := 18) (l := input)]
  rfl

/-- The window after the call-start reset and LOAD: the first `F` bytes of the input stand from `writeStart` on. -/
theorem State.encodeStart_load_win {input : List Byte} (output : List Byte) (s : State) {k : Nat} (hk : k < 18) {b : Byte}
    (hb : input[k]? = some b) :
    (s.encodeStart input output).load.win.byteT (s.cfg.writeStart + BitVec.ofNat 12 k) = b := by
  refine loadBytes_byteT (bs := input.take 18) ?_ ?_
  · rw [List.length_take]; omega
  · rw [List.getElem?_take, if_pos hk, hb]

theorem State.encoderInRange_encodeStart_load (input output : List Byte) (s : State) (m : MatchFinder) :
    { (s.encodeStart input output).load with mf := m }.encoderInRange := by
  rw [State.encoderInRange_iff]
  intro
  have hlen : (BitVec.ofNat 5 (min 18 input.length)).toNat = min 18 input.length := by
    rw [BitVec.toNat_ofNat]; omega
  have hin : (s.encodeStart input output).load.inBuf = input := rfl
  unfold State.lookaheadInRange State.groupInRange
  simp only [State.encodeStart_load_enc, hlen, hin]
  refine ⟨⟨by omega, by omega, le_rfl, fun _ => by omega, trivial, ?_⟩, by simp⟩
  rw [Nat.sub_self]
  exact (BitVec.add_zero _).symm

/-- Settles O24: STEP and FLUSH keep the code buffer's counters, and each byte of SLIDE the lookahead's. -/
theorem stepKeepsEncoderInRange : Obligations.StepKeepsEncoderInRange := by
  intro s t hrange hstep
  by_cases hm : s.mode = .encoding
  · rw [State.encoderInRange_iff] at hrange ⊢
    intro ht
    obtain ⟨hlook, hgroup⟩ := hrange hm
    obtain ⟨hl, hgo, hslide⟩ := step_encoding_goes_on hm hstep ht
    refine ⟨State.slide_induct_lookahead (fun _ h => h) (fun _ _ => State.lookaheadInRange_slideByte)
      (State.lookaheadInRange_coded hlook) (State.coded_lastMatchLength_le hl) hslide, ?_⟩
    obtain ⟨hframe, hcount, hslot, hcode, -, -⟩ := State.slideFrom_frame hslide
    have hcap : t.outCap = s.coded.outCap := by rw [hframe]
    rw [State.groupInRange, hcount, hslot, hcode, hcap]
    exact State.groupInRange_coded hm hgo hgroup
  · intro ht
    obtain ⟨u, input, output, hhead⟩ := step_starts_encoding hm hstep ht
    obtain ⟨m, -, rfl⟩ := State.encodeHead_encoding hhead ht
    exact State.encoderInRange_encodeStart_load input output u m ht

/-! ### The encoder's window (10_state.md R32, 40_window_prefill.md R124) -/

/-- The window of an ENCODE, whatever `MODE` says: the last `N` loaded bytes, each at its index from `writeStart`. -/
def State.inputInWindow (s : State) : Prop :=
  ∀ k, k < s.enc.ip → s.enc.ip ≤ k + 4096 →
    s.inBuf[k]? = some (s.win.byteT (s.cfg.writeStart + BitVec.ofNat 12 k))

theorem State.windowHoldsInput_iff (s : State) : s.windowHoldsInput ↔ (s.mode = .encoding → s.inputInWindow) := Iff.rfl

theorem State.inputInWindow_slideByte {s t : State} (hrange : s.lookaheadInRange) (h : s.inputInWindow)
    (e : s.slideByte = some t) : t.inputInWindow := by
  obtain ⟨_, -, ⟨b, _, hb, -, rfl⟩ | ⟨_, -, -, rfl⟩⟩ := State.slideByte_some e
  · obtain ⟨hin, -⟩ := List.getElem?_eq_some_iff.1 hb
    intro k hk hrecent
    simp only at hk hrecent ⊢
    rw [hrange.loadPosition hin, Memory.byteT_write]
    by_cases hkip : k = s.enc.ip
    · rw [hkip, if_pos rfl, hb]
    · rw [if_neg (winPos_add_ne (by omega) (by omega))]
      exact h k (by omega) (by omega)
  · exact h

/-- Settles O25: SLIDE loads each byte at its index from `writeStart`, over the byte `N` before it. -/
theorem stepKeepsWindowHoldingInput : Obligations.StepKeepsWindowHoldingInput := by
  intro s t hrange hwin hstep
  rw [State.windowHoldsInput_iff] at hwin ⊢
  intro ht
  by_cases hm : s.mode = .encoding
  · obtain ⟨hlook, -⟩ := s.encoderInRange_iff.1 hrange hm
    obtain ⟨hl, -, hslide⟩ := step_encoding_goes_on hm hstep ht
    have hcoded : s.coded.inputInWindow := by
      rw [State.coded_frame]
      exact hwin hm
    exact (State.slide_induct_lookahead (P := fun u => u.lookaheadInRange ∧ u.inputInWindow) (fun _ h => h)
      (fun _ _ hlen h e => ⟨State.lookaheadInRange_slideByte hlen h.1 e, State.inputInWindow_slideByte h.1 h.2 e⟩)
      ⟨State.lookaheadInRange_coded hlook, hcoded⟩ (State.coded_lastMatchLength_le hl) hslide).2
  · obtain ⟨u, input, output, hhead⟩ := step_starts_encoding hm hstep ht
    obtain ⟨m, -, rfl⟩ := State.encodeHead_encoding hhead ht
    intro k hk _
    simp only [State.encodeStart_load_enc] at hk
    obtain ⟨b, hb⟩ : ∃ b, input[k]? = some b := ⟨_, List.getElem?_eq_getElem (by omega)⟩
    exact hb.trans (congrArg some (State.encodeStart_load_win output u (by omega) hb).symm)

/-! ### Links kept outside a tree (10_state.md R47) -/

theorem toNat_ne_of_not_mem {nodes : List WinPos} {p : WinPos} (h : p ∉ nodes) : ∀ q ∈ nodes, p.toNat ≠ q.toNat :=
  fun _ hq e => h (BitVec.eq_of_toNat_eq e ▸ hq)

theorem toNat_ne_of_ne_nodeOf {nodes : List WinPos} {x : TreeIndex} (h : ∀ q ∈ nodes, x ≠ nodeOf q) :
    ∀ q ∈ nodes, x.toNat ≠ q.toNat :=
  fun q hq e => h q hq (BitVec.eq_of_toNat_eq (e.trans (nodeOf_toNat q).symm))

/-- The right or the left child link of `d`. -/
def MatchFinder.childLink (m : MatchFinder) (right : Bool) (d : TreeIndex) : TreeIndex :=
  if right then ramRead m.rson d.toNat else ramRead m.lson d.toNat

/-- From `m` to `m'` no link of a place outside `nodes` changes but one child link of `d`; the scratch cell `dad[NIL]` (R152)
is free. -/
structure MatchFinder.LinksKept (m m' : MatchFinder) (nodes : List WinPos) (right : Bool) (d : TreeIndex) : Prop where
  dad : ∀ y, (∀ q ∈ nodes, y ≠ q.toNat) → y ≠ 4096 → ramRead m'.dad y = ramRead m.dad y
  lson : ∀ y, (∀ q ∈ nodes, y ≠ q.toNat) → ¬ (right = false ∧ y = d.toNat) → ramRead m'.lson y = ramRead m.lson y
  rson : ∀ y, (∀ q ∈ nodes, y ≠ q.toNat) → ¬ (right = true ∧ y = d.toNat) → ramRead m'.rson y = ramRead m.rson y

section
variable {m m' : MatchFinder} {nodes : List WinPos} {right : Bool} {d : TreeIndex}

/-- A tree outside the nodes is still drawn. -/
theorem MatchFinder.LinksKept.drawn (h : m.LinksKept m' nodes right d) {t : SearchTree} {parent x : TreeIndex}
    (ht : t.drawn m parent x) (hout : ∀ p ∈ t.nodes, p ∉ nodes) (hd : ∀ p ∈ t.nodes, d ≠ nodeOf p) :
    t.drawn m' parent x := by
  have hne : ∀ p ∈ t.nodes, p.toNat ≠ d.toNat := fun p hp => (toNat_ne_of_ne_nodeOf hd p hp).symm
  refine SearchTree.drawn_frame ht (fun p hp => h.dad _ (toNat_ne_of_not_mem (hout p hp)) (Nat.ne_of_lt p.isLt))
    (fun p hp => h.lson _ (toNat_ne_of_not_mem (hout p hp)) (fun e => hne p hp e.2))
    (fun p hp => h.rson _ (toNat_ne_of_not_mem (hout p hp)) (fun e => hne p hp e.2))

/-- A child link of a place outside the nodes is kept, where it is not the one of `d`. -/
theorem MatchFinder.LinksKept.childLink (h : m.LinksKept m' nodes right d) {right' : Bool} {d' : TreeIndex}
    (hout : ∀ q ∈ nodes, d' ≠ nodeOf q) (hd : ¬ (right = right' ∧ d' = d)) :
    m'.childLink right' d' = m.childLink right' d' := by
  have hne := toNat_ne_of_ne_nodeOf hout
  cases right' with
  | true => exact h.rson _ hne fun e => hd ⟨e.1, BitVec.eq_of_toNat_eq e.2⟩
  | false => exact h.lson _ hne fun e => hd ⟨e.1, BitVec.eq_of_toNat_eq e.2⟩

/-- Links kept outside a part of a tree, the link from its parent in the tree aside, are kept outside the tree. -/
theorem MatchFinder.LinksKept.widen {q : WinPos} (h : m.LinksKept m' nodes right (nodeOf q)) {nodes' : List WinPos}
    (hsub : nodes ⊆ nodes') (hq : q ∈ nodes') (right' : Bool) (d' : TreeIndex) : m.LinksKept m' nodes' right' d' where
  dad y hy := h.dad y fun p hp => hy p (hsub hp)
  lson y hy _ := h.lson y (fun p hp => hy p (hsub hp)) fun e => hy q hq (e.2.trans (nodeOf_toNat q))
  rson y hy _ := h.rson y (fun p hp => hy p (hsub hp)) fun e => hy q hq (e.2.trans (nodeOf_toNat q))

end

/-- The link to a drawn tree is `NIL` exactly where the tree is empty. -/
theorem SearchTree.drawn_link_eq_nil {m : MatchFinder} {t : SearchTree} {parent x : TreeIndex} (h : t.drawn m parent x) :
    x = Config.NIL ↔ t = .nil := by
  cases t with
  | nil => exact iff_of_true h rfl
  | node l p r => exact iff_of_false (h.1 ▸ nodeOf_ne_nil p) nofun

/-! ### DELETE on a drawn tree (41_match_finder.md R147) -/

/-- DELETE's last part: `q` takes the place of `p` under `d`, and `p` is unattached. -/
theorem MatchFinder.unlink_eq {m : MatchFinder} {p q d : TreeIndex} {right : Bool} (hp : p.toNat ≤ 4096)
    (hq : q.toNat ≤ 4096) (hd : d.toNat ≤ 4352) (hside : right = true ↔ ramRead m.rson d.toNat = p)
    (hleft : right = false → d.toNat ≤ 4096) :
    ∃ m', ((m.setParent q d).bind fun m => (m.relink d p q).bind (·.setParent p Config.NIL)) = some m'
      ∧ m'.matchPosition = m.matchPosition ∧ m'.matchLength = m.matchLength
      ∧ (∀ y, ramRead m'.dad y = if y = p.toNat then Config.NIL else if y = q.toNat then d else ramRead m.dad y)
      ∧ (∀ y, ramRead m'.lson y = if right = false ∧ y = d.toNat then q else ramRead m.lson y)
      ∧ (∀ y, ramRead m'.rson y = if right = true ∧ y = d.toNat then q else ramRead m.rson y) := by
  rw [MatchFinder.setParent_eq hq, Option.bind_some]
  simp only [MatchFinder.relink, MatchFinder.right_eq hd, Option.bind_eq_bind, Option.bind_some]
  cases right with
  | true =>
    rw [if_pos (hside.1 rfl), MatchFinder.setRight_eq hd, Option.bind_some, MatchFinder.setParent_eq hp]
    exact ⟨_, rfl, rfl, rfl, by simp [ramRead_ramWrite], by simp, by simp [ramRead_ramWrite]⟩
  | false =>
    rw [if_neg (fun e => absurd (hside.2 e) (by decide)), MatchFinder.setLeft_eq (hleft rfl), Option.bind_some,
      MatchFinder.setParent_eq hp]
    exact ⟨_, rfl, rfl, rfl, by simp [ramRead_ramWrite], by simp [ramRead_ramWrite], by simp⟩

/-- The node that DELETE of `p` puts in its place, with the links that then draw the joined subtrees (R147): the only child, or
the in-order predecessor over both subtrees. -/
def MatchFinder.replacement (m : MatchFinder) (p : TreeIndex) : Option (MatchFinder × TreeIndex) :=
  if ramRead m.rson p.toNat = Config.NIL then some (m, ramRead m.lson p.toNat)
  else if ramRead m.lson p.toNat = Config.NIL then some (m, ramRead m.rson p.toNat)
  else m.adopt p (ramRead m.lson p.toNat) (ramRead m.rson p.toNat)

/-- DELETE of an attached node is its replacement and the relinking. -/
theorem MatchFinder.delete_of_attached {m : MatchFinder} {p : TreeIndex} (hp : p.toNat < 4096)
    (hd : ramRead m.dad p.toNat ≠ Config.NIL) :
    m.delete p = (m.replacement p).bind fun mq =>
      (mq.1.setParent mq.2 (ramRead m.dad p.toNat)).bind fun m' =>
        (m'.relink (ramRead m.dad p.toNat) p mq.2).bind (·.setParent p Config.NIL) := by
  simp only [MatchFinder.delete, MatchFinder.replacement, MatchFinder.parent_eq (show p.toNat ≤ 4096 by omega),
    MatchFinder.right_eq (show p.toNat ≤ 4352 by omega), MatchFinder.left_eq (show p.toNat ≤ 4096 by omega),
    Option.bind_eq_bind, Option.bind_some, if_neg hd]
  split
  · rfl
  · split <;> rfl

/-- DELETE of a position in no tree does nothing (R147). -/
theorem MatchFinder.delete_of_unattached {m : MatchFinder} {p : TreeIndex} (hp : p.toNat < 4096)
    (hd : ramRead m.dad p.toNat = Config.NIL) : m.delete p = some m := by
  simp only [MatchFinder.delete, MatchFinder.parent_eq (show p.toNat ≤ 4096 by omega), Option.bind_eq_bind,
    Option.bind_some, if_pos hd]
  rfl

/-- The replacement of a drawn node: it changes no link outside the node's subtrees, and draws their join once its own parent
link is set. -/
theorem MatchFinder.replacement_drawn {m : MatchFinder} {a b : SearchTree} {p : WinPos} {d : TreeIndex}
    (h : (SearchTree.node a p b).drawn m d (nodeOf p)) (hn : (SearchTree.node a p b).nodes.Nodup) :
    ∃ m' q, m.replacement (nodeOf p) = some (m', q)
      ∧ (q = Config.NIL ∨ ∃ y ∈ a.nodes ++ b.nodes, q = nodeOf y)
      ∧ m'.matchPosition = m.matchPosition ∧ m'.matchLength = m.matchLength
      ∧ (∀ x : Nat, (∀ y ∈ a.nodes ++ b.nodes, x ≠ y.toNat) →
          (x ≠ 4096 → ramRead m'.dad x = ramRead m.dad x) ∧ ramRead m'.lson x = ramRead m.lson x
            ∧ ramRead m'.rson x = ramRead m.rson x)
      ∧ ∀ n : MatchFinder,
        (∀ y ∈ a.nodes ++ b.nodes, nodeOf y ≠ q → ramRead n.dad y.toNat = ramRead m'.dad y.toNat) →
        (∀ y ∈ a.nodes ++ b.nodes, ramRead n.lson y.toNat = ramRead m'.lson y.toNat) →
        (∀ y ∈ a.nodes ++ b.nodes, ramRead n.rson y.toNat = ramRead m'.rson y.toNat) →
        (q ≠ Config.NIL → ramRead n.dad q.toNat = d) → (a.join b).drawn n d q := by
  obtain ⟨-, -, hda, hdb⟩ := id h
  have hnodup := hn
  simp only [SearchTree.nodes, List.nodup_append, List.nodup_cons] at hnodup
  obtain ⟨hna, ⟨-, hnb⟩, -⟩ := hnodup
  rw [MatchFinder.replacement, nodeOf_toNat]
  by_cases hb : b = .nil
  · -- the left subtree, or nothing, moves up
    rw [if_pos ((SearchTree.drawn_link_eq_nil hdb).2 hb)]
    subst hb
    refine ⟨m, _, rfl, (SearchTree.drawn_link hda).imp And.right (by simp [SearchTree.nodes]), rfl, rfl, by simp, ?_⟩
    intro n hdad hl hr hq
    simp only [SearchTree.nodes, List.append_nil] at hdad hl hr
    have hj : a.join .nil = a := by cases a <;> rfl
    rw [hj]
    exact SearchTree.drawn_reparent hda hna hdad hq hl hr
  rw [if_neg (mt (SearchTree.drawn_link_eq_nil hdb).1 hb)]
  by_cases ha : a = .nil
  · -- the right subtree moves up
    rw [if_pos ((SearchTree.drawn_link_eq_nil hda).2 ha)]
    subst ha
    refine ⟨m, _, rfl, (SearchTree.drawn_link hdb).imp And.right (by simp [SearchTree.nodes]), rfl, rfl, by simp, ?_⟩
    intro n hdad hl hr hq
    simp only [SearchTree.nodes, List.nil_append] at hdad hl hr
    have hj : SearchTree.join .nil b = b := by cases b <;> rfl
    rw [hj]
    exact SearchTree.drawn_reparent hdb hnb hdad hq hl hr
  · -- the in-order predecessor adopts both subtrees
    rw [if_neg (mt (SearchTree.drawn_link_eq_nil hda).1 ha)]
    obtain ⟨m', q, hadopt, hqa, hpos, hlen, hframe, hdraw⟩ := MatchFinder.adopt_drawn h hn ha hb
    refine ⟨m', nodeOf q, hadopt, .inr ⟨q, List.mem_append_left _ hqa, rfl⟩, hpos, hlen, hframe, ?_⟩
    intro n hdad hl hr hq
    have hparent := hq (nodeOf_ne_nil q)
    rw [nodeOf_toNat] at hparent
    rw [← hparent]
    exact hdraw n (fun y hy hyq => hdad y hy (mt nodeOf_inj.1 hyq)) hl hr

/-- DELETE of the top node of a drawn tree under `d` draws the join of its subtrees in its place (R147). -/
theorem MatchFinder.delete_top_drawn {m : MatchFinder} {a b : SearchTree} {p : WinPos} {d : TreeIndex} {right : Bool}
    (h : (SearchTree.node a p b).drawn m d (nodeOf p)) (hn : (SearchTree.node a p b).nodes.Nodup)
    (hdn : ∀ q ∈ (SearchTree.node a p b).nodes, d ≠ nodeOf q) (hd0 : d ≠ Config.NIL) (hd : d.toNat ≤ 4352)
    (hside : right = true ↔ ramRead m.rson d.toNat = nodeOf p) (hleft : right = false → d.toNat < 4096) :
    ∃ m', m.delete (nodeOf p) = some m' ∧ m'.matchPosition = m.matchPosition ∧ m'.matchLength = m.matchLength
      ∧ (a.join b).drawn m' d (m'.childLink right d) ∧ ¬ m'.attached p
      ∧ m.LinksKept m' (SearchTree.node a p b).nodes right d := by
  have hdad : ramRead m.dad p.toNat = d := h.2.1
  have hdne := toNat_ne_of_ne_nodeOf hdn
  obtain ⟨m1, q, hrep, hq, hpos, hlen, hframe, hdraw⟩ := MatchFinder.replacement_drawn h hn
  have hsub : ∀ y ∈ a.nodes ++ b.nodes, y ∈ (SearchTree.node a p b).nodes := by
    simp only [SearchTree.nodes, List.mem_append, List.mem_cons]; tauto
  have hp : ∀ y ∈ a.nodes ++ b.nodes, y.toNat ≠ p.toNat := by
    simp only [SearchTree.nodes, List.nodup_append, List.nodup_cons, List.mem_cons] at hn
    obtain ⟨-, ⟨hpb, -⟩, hab⟩ := hn
    intro y hy e
    obtain rfl := BitVec.eq_of_toNat_eq e
    rcases List.mem_append.1 hy with hy | hy
    · exact hab y hy y (.inl rfl) rfl
    · exact hpb hy
  have hqle : q.toNat ≤ 4096 := by
    obtain rfl | ⟨y, -, rfl⟩ := hq
    · simp
    · rw [nodeOf_toNat]; exact y.isLt.le
  have hqp : q.toNat ≠ p.toNat := by
    obtain rfl | ⟨y, hy, rfl⟩ := hq
    · exact (Nat.ne_of_lt p.isLt).symm
    · rw [nodeOf_toNat]; exact hp y hy
  have hside1 : right = true ↔ ramRead m1.rson d.toNat = nodeOf p := by
    rw [hside, (hframe _ fun y hy => hdne y (hsub y hy)).2.2]
  obtain ⟨m', hunlink, hpos', hlen', hD, hL, hR⟩ := MatchFinder.unlink_eq (m := m1) (p := nodeOf p)
    (by rw [nodeOf_toNat]; exact p.isLt.le) hqle hd hside1 fun e => (hleft e).le
  rw [nodeOf_toNat] at hD
  have hlink : m'.childLink right d = q := by cases right <;> simp [MatchFinder.childLink, hL, hR]
  refine ⟨m', ?_, hpos'.trans hpos, hlen'.trans hlen, ?_, ?_, ?_, ?_, ?_⟩
  · rw [MatchFinder.delete_of_attached (by rw [nodeOf_toNat]; exact p.isLt) (by rw [nodeOf_toNat, hdad]; exact hd0), hrep,
      Option.bind_some, nodeOf_toNat, hdad]
    exact hunlink
  · rw [hlink]
    refine hdraw m' (fun y hy hyq => ?_) (fun y hy => ?_) (fun y hy => ?_) (fun _ => ?_)
    · rw [hD, if_neg (hp y hy), if_neg fun e => hyq (BitVec.eq_of_toNat_eq ((nodeOf_toNat y).trans e))]
    · rw [hL, if_neg fun e => hdne y (hsub y hy) e.2.symm]
    · rw [hR, if_neg fun e => hdne y (hsub y hy) e.2.symm]
    · rw [hD, if_neg hqp, if_pos rfl]
  · rw [MatchFinder.attached, hD, if_pos rfl]
    exact fun e => e rfl
  · intro y hy h4096
    have hyq : y ≠ q.toNat := by
      obtain rfl | ⟨z, hz, rfl⟩ := hq
      · exact h4096
      · rw [nodeOf_toNat]; exact hy z (hsub z hz)
    rw [hD, if_neg (hy p (by simp [SearchTree.nodes])), if_neg hyq]
    exact (hframe y fun z hz => hy z (hsub z hz)).1 h4096
  · intro y hy hyd
    rw [hL, if_neg hyd]
    exact (hframe y fun z hz => hy z (hsub z hz)).2.1
  · intro y hy hyd
    rw [hR, if_neg hyd]
    exact (hframe y fun z hz => hy z (hsub z hz)).2.2

/-- The tree without the node `p`, the join of its subtrees in its place (R147). -/
def SearchTree.removed (p : WinPos) (t : SearchTree) : SearchTree :=
  match t with
  | .nil => .nil
  | .node l q r => if q = p then l.join r else .node (l.removed p) q (r.removed p)

theorem SearchTree.removed_of_not_mem {p : WinPos} {t : SearchTree} (h : p ∉ t.nodes) : t.removed p = t := by
  induction t with
  | nil => rfl
  | node l q r ihl ihr =>
    simp only [SearchTree.nodes, List.mem_append, List.mem_cons, not_or] at h
    obtain ⟨hl, hq, hr⟩ := h
    rw [SearchTree.removed, if_neg (Ne.symm hq), ihl hl, ihr hr]

/-- The nodes that stay, in the order they had. -/
theorem SearchTree.removed_nodes {p : WinPos} {t : SearchTree} (h : t.nodes.Nodup) :
    (t.removed p).nodes = t.nodes.filter (· ≠ p) := by
  induction t with
  | nil => rfl
  | node l q r ihl ihr =>
    simp only [SearchTree.nodes, List.nodup_append, List.nodup_cons, List.mem_cons] at h
    obtain ⟨hl, ⟨hqr, hr⟩, hlr⟩ := h
    rw [SearchTree.removed]
    split
    · next e =>
      subst e
      have hql : ∀ y ∈ l.nodes, y ≠ q := fun y hy => hlr y hy q (.inl rfl)
      have hqr : ∀ y ∈ r.nodes, y ≠ q := fun y hy e => hqr (e ▸ hy)
      rw [SearchTree.join_nodes, SearchTree.nodes, List.filter_append, List.filter_cons_of_neg (by simp),
        List.filter_eq_self.2 (by simpa using hql), List.filter_eq_self.2 (by simpa using hqr)]
    · next e =>
      rw [SearchTree.nodes, SearchTree.nodes, List.filter_append, List.filter_cons_of_pos (by simpa using e), ihl hl, ihr hr]

/-- DELETE of any node of a drawn tree under `parent` draws the tree without it (R147). -/
theorem MatchFinder.delete_drawn {m : MatchFinder} {t : SearchTree} {p : WinPos} {parent x : TreeIndex} {right : Bool}
    (ht : t.drawn m parent x) (hn : t.nodes.Nodup) (hp : p ∈ t.nodes) (hpar : ∀ q ∈ t.nodes, parent ≠ nodeOf q)
    (h0 : parent ≠ Config.NIL) (hle : parent.toNat ≤ 4352) (hlink : m.childLink right parent = x)
    (hside : right = true ↔ ramRead m.rson parent.toNat = x) (hleft : right = false → parent.toNat < 4096) :
    ∃ m', m.delete (nodeOf p) = some m' ∧ m'.matchPosition = m.matchPosition ∧ m'.matchLength = m.matchLength
      ∧ (t.removed p).drawn m' parent (m'.childLink right parent) ∧ ¬ m'.attached p
      ∧ m.LinksKept m' t.nodes right parent := by
  induction t generalizing parent x right with
  | nil => cases hp
  | node l q r ihl ihr =>
    obtain ⟨rfl, hdq, hdl, hdr⟩ := id ht
    by_cases hqp : q = p
    · subst hqp
      rw [SearchTree.removed, if_pos rfl]
      exact MatchFinder.delete_top_drawn ht hn hpar h0 hle hside hleft
    have hnodup := hn
    simp only [SearchTree.nodes, List.nodup_append, List.nodup_cons, List.mem_append, List.mem_cons] at hnodup hp hpar
    obtain ⟨hnl, ⟨hqr, hnr⟩, hlr⟩ := hnodup
    have hql : q ∉ l.nodes := fun h => hlr q h q (.inl rfl) rfl
    have hqlt : (nodeOf q).toNat < 4096 := by rw [nodeOf_toNat]; exact q.isLt
    have hne : ∀ {s : SearchTree}, q ∉ s.nodes → ∀ y ∈ s.nodes, nodeOf q ≠ nodeOf y :=
      fun h y hy e => h (nodeOf_inj.1 e ▸ hy)
    rw [SearchTree.removed, if_neg hqp]
    rcases hp with hp | hp | hp
    · -- below the left link
      have hpr : p ∉ r.nodes := fun h => hlr p hp p (.inr h) rfl
      have hsides : ramRead m.rson (nodeOf q).toNat ≠ ramRead m.lson q.toNat := by
        rw [nodeOf_toNat]
        intro e
        obtain ⟨rfl, -⟩ | ⟨y, hy, ey⟩ := SearchTree.drawn_link hdl
        · cases hp
        · obtain ⟨-, ez⟩ | ⟨z, hz, ez⟩ := SearchTree.drawn_link hdr
          · exact nodeOf_ne_nil y (ey.symm.trans (e.symm.trans ez))
          · exact hlr y hy z (.inr hz) (nodeOf_inj.1 (ey.symm.trans (e.symm.trans ez)))
      obtain ⟨m', hdel, hpos, hlen, hdraw, hout, hkept⟩ := ihl (right := false) hdl hnl hp (hne hql) (nodeOf_ne_nil q)
        (by omega) (by simp [MatchFinder.childLink]) (by simpa using hsides) (fun _ => hqlt)
      refine ⟨m', hdel, hpos, hlen, ⟨?_, ?_, ?_, ?_⟩, hout,
        hkept.widen (by simp [SearchTree.nodes]) (by simp [SearchTree.nodes]) _ _⟩
      · rw [hkept.childLink (fun y hy => hpar y (.inl hy)) (fun e => hpar q (.inr (.inl rfl)) e.2), hlink]
      · rw [hkept.dad _ (toNat_ne_of_not_mem hql) (Nat.ne_of_lt q.isLt), hdq]
      · simpa [MatchFinder.childLink] using hdraw
      · rw [hkept.rson _ (toNat_ne_of_not_mem hql) (by simp), SearchTree.removed_of_not_mem hpr]
        exact hkept.drawn hdr (fun y hy h => hlr y h y (.inr hy) rfl) (hne hqr)
    · exact absurd hp.symm hqp
    · -- below the right link
      have hpl : p ∉ l.nodes := fun h => hlr p h p (.inr hp) rfl
      obtain ⟨m', hdel, hpos, hlen, hdraw, hout, hkept⟩ := ihr (right := true) hdr hnr hp (hne hqr) (nodeOf_ne_nil q)
        (by omega) (by simp [MatchFinder.childLink]) (by simp) (fun _ => hqlt)
      refine ⟨m', hdel, hpos, hlen, ⟨?_, ?_, ?_, ?_⟩, hout,
        hkept.widen (by simp [SearchTree.nodes]) (by simp [SearchTree.nodes]) _ _⟩
      · rw [hkept.childLink (fun y hy => hpar y (.inr (.inr hy))) (fun e => hpar q (.inr (.inl rfl)) e.2), hlink]
      · rw [hkept.dad _ (toNat_ne_of_not_mem hqr) (Nat.ne_of_lt q.isLt), hdq]
      · rw [hkept.lson _ (toNat_ne_of_not_mem hqr) (by simp), SearchTree.removed_of_not_mem hpl]
        exact hkept.drawn hdl (fun y hy h => hlr y hy y (.inr h) rfl) (hne hql)
      · simpa [MatchFinder.childLink] using hdraw

/-! ### The trees with their shapes (10_state.md R47) -/

/-- The trees keep R47, `tree c` being the shape of the one of first byte `c`. -/
def MatchFinder.forest (win : Memory) (m : MatchFinder) (tree : Byte → SearchTree) : Prop :=
  (∀ c, m.treeOf win c (tree c)) ∧ ∀ p, m.attached p → p ∈ (tree (win.byteT p)).nodes

theorem MatchFinder.treesOk_iff {win : Memory} {m : MatchFinder} : m.treesOk win ↔ ∃ tree, m.forest win tree := Iff.rfl

section
variable {win : Memory} {m m' : MatchFinder} {tree : Byte → SearchTree}

/-- A node of a tree is attached. -/
theorem MatchFinder.forest.attached (h : m.forest win tree) {c : Byte} {p : WinPos} (hp : p ∈ (tree c).nodes) :
    m.attached p :=
  SearchTree.drawn_attached (h.1 c).1 (rootSlot_ne_nil c) hp

/-- The attached positions are the nodes of the trees of their first bytes (R47 a, b). -/
theorem MatchFinder.forest.attached_iff (h : m.forest win tree) (p : WinPos) :
    m.attached p ↔ p ∈ (tree (win.byteT p)).nodes :=
  ⟨h.2 p, h.attached⟩

theorem rootSlot_toNat_ne (c : Byte) (p : WinPos) : (rootSlot c).toNat ≠ p.toNat := by
  have := p.isLt
  rw [rootSlot_toNat]
  omega

theorem rootSlot_inj {c d : Byte} (h : (rootSlot c).toNat = (rootSlot d).toNat) : c = d := by
  rw [rootSlot_toNat, rootSlot_toNat] at h
  exact BitVec.eq_of_toNat_eq (by omega)

/-- Where an operation changes only the links of places with first byte `c` and the root link of their tree, and draws `t`
there, R47 is kept with `t` as the tree of `c`. -/
theorem MatchFinder.forest.update (h : m.forest win tree) {c : Byte} {t : SearchTree} {touched : List WinPos}
    (hkept : m.LinksKept m' touched true (rootSlot c)) (hbyte : ∀ q ∈ touched, win.byteT q = c)
    (hsub : (tree c).nodes ⊆ touched) (ht : m'.treeOf win c t) (hatt : ∀ q ∈ touched, m'.attached q → q ∈ t.nodes) :
    m'.forest win (Function.update tree c t) := by
  refine ⟨fun c' => ?_, fun p hp => ?_⟩
  · by_cases hc : c' = c
    · rw [hc, Function.update_self]
      exact ht
    · rw [Function.update_of_ne hc]
      obtain ⟨hdrawn, hnodup, hfirst, hsorted⟩ := h.1 c'
      refine ⟨?_, hnodup, hfirst, hsorted⟩
      rw [hkept.rson _ (fun q _ => rootSlot_toNat_ne c' q) fun e => hc (rootSlot_inj e.2)]
      exact hkept.drawn hdrawn (fun p hp hpt => hc ((hfirst p hp).symm.trans (hbyte p hpt)))
        fun p _ => rootSlot_ne_nodeOf c p
  · by_cases hpt : p ∈ touched
    · rw [hbyte p hpt, Function.update_self]
      exact hatt p hpt hp
    · have hmem : p ∈ (tree (win.byteT p)).nodes := by
        refine h.2 p ?_
        rwa [MatchFinder.attached, hkept.dad _ (toNat_ne_of_not_mem hpt) (Nat.ne_of_lt p.isLt)] at hp
      have hc : win.byteT p ≠ c := fun e => hpt (hsub (by rwa [e] at hmem))
      rw [Function.update_of_ne hc]
      exact hmem

/-- What INSERT starts its walk with: `r`'s children and the match length cleared (R144). -/
def MatchFinder.cleared (m : MatchFinder) (r : WinPos) : MatchFinder :=
  { m with
    lson := ramWrite m.lson r.toNat Config.NIL
    rson := ramWrite m.rson r.toNat Config.NIL
    matchLength := 0 }

theorem MatchFinder.cleared_lson (m : MatchFinder) (r : WinPos) (y : Nat) :
    ramRead (m.cleared r).lson y = if y = r.toNat then Config.NIL else ramRead m.lson y :=
  ramRead_ramWrite m.lson r.toNat y Config.NIL

theorem MatchFinder.cleared_rson (m : MatchFinder) (r : WinPos) (y : Nat) :
    ramRead (m.cleared r).rson y = if y = r.toNat then Config.NIL else ramRead m.rson y :=
  ramRead_ramWrite m.rson r.toNat y Config.NIL

/-- INSERT of an unattached position keeps R47 (R144, R145): its tree is then the one with it inserted, and the Match Record is
the best match on the way down. -/
theorem MatchFinder.forest.insert (h : m.forest win tree) {r : WinPos} (hr : ¬ m.attached r) :
    ∃ m', m.insert win r = some m'
      ∧ (m'.matchLength.toNat, m'.matchPosition) = (tree (win.byteT r)).bestMatch win r (0, m.matchPosition)
      ∧ m'.forest win (Function.update tree (win.byteT r) ((tree (win.byteT r)).inserted win r)) := by
  obtain ⟨hdrawn, hnodup, hfirst, hsorted⟩ := h.1 (win.byteT r)
  have hrout : r ∉ (tree (win.byteT r)).nodes := fun hmem => hr (h.attached hmem)
  have hne := toNat_ne_of_not_mem hrout
  obtain ⟨fuel, hfuel, hinsert⟩ := MatchFinder.insert_eq win r m
  have hlink : (m.cleared r).right (rootSlot (win.byteT r))
      = some (ramRead (m.cleared r).rson (rootSlot (win.byteT r)).toNat) :=
    MatchFinder.right_eq (by rw [rootSlot_toNat]; omega)
  have hdrawn0 : (tree (win.byteT r)).drawn (m.cleared r) (rootSlot (win.byteT r))
      (ramRead (m.cleared r).rson (rootSlot (win.byteT r)).toNat) := by
    rw [MatchFinder.cleared_rson, if_neg (rootSlot_toNat_ne _ r)]
    exact SearchTree.drawn_frame hdrawn (fun _ _ => rfl)
      (fun q hq => by rw [MatchFinder.cleared_lson, if_neg (hne q hq).symm])
      (fun q hq => by rw [MatchFinder.cleared_rson, if_neg (hne q hq).symm])
  obtain ⟨m', hwalk, hrecord, hdraw, hdad, hlson, hrson, hevict⟩ := MatchFinder.walk_drawn (fuel := fuel + 1) (cmp := .gt)
    hlink hdrawn0 hnodup hfirst hrout (Nat.lt_succ_of_le (hfuel ▸ nodes_length_le hnodup)) (show (0 : Nat) < 18 by omega)
    (by rw [MatchFinder.cleared_lson, if_pos rfl]) (by rw [MatchFinder.cleared_rson, if_pos rfl])
    (fun q _ => (rootSlot_ne_nodeOf _ q).symm) (rootSlot_ne_nodeOf _ r).symm (rootSlot_ne_nil _) nofun
  have hkept : m.LinksKept m' (r :: (tree (win.byteT r)).nodes) true (rootSlot (win.byteT r)) := by
    constructor
    · intro y hy h4096
      rw [hdad y (fun q hq => hy q (by simp [hq])) (hy r (by simp)) h4096]
      rfl
    · intro y hy _
      rw [hlson y (fun q hq => hy q (by simp [hq])) (hy r (by simp)) (by simp), MatchFinder.cleared_lson,
        if_neg (hy r (by simp))]
    · intro y hy hroot
      rw [hrson y (fun q hq => hy q (by simp [hq])) (hy r (by simp)) (by simpa using hroot),
        MatchFinder.cleared_rson, if_neg (hy r (by simp))]
  refine ⟨m', hinsert.trans hwalk, hrecord, h.update hkept ?_ (List.subset_cons_self _ _) ⟨?_, ?_, ?_, ?_⟩ ?_⟩
  · simpa using hfirst
  · exact hdraw
  · exact SearchTree.inserted_nodup hnodup hrout
  · intro p hp
    obtain rfl | hp := SearchTree.mem_inserted hp
    · rfl
    · exact hfirst p hp
  · exact SearchTree.inserted_sorted hsorted hfirst
  · intro q hq hatt
    obtain rfl | hq := List.mem_cons.1 hq
    · exact SearchTree.self_mem_inserted win q _
    · exact (hevict q hq).resolve_right fun hout => hout hatt

/-- DELETE of any position keeps R47 (R147): its tree is then the one without it. -/
theorem MatchFinder.forest.delete (h : m.forest win tree) (p : WinPos) :
    ∃ m', m.delete (nodeOf p) = some m' ∧ m'.matchPosition = m.matchPosition ∧ m'.matchLength = m.matchLength
      ∧ m'.forest win (Function.update tree (win.byteT p) ((tree (win.byteT p)).removed p)) := by
  obtain ⟨hdrawn, hnodup, hfirst, hsorted⟩ := h.1 (win.byteT p)
  by_cases hp : p ∈ (tree (win.byteT p)).nodes
  · obtain ⟨m', hdel, hpos, hlen, hdraw, hout, hkept⟩ := MatchFinder.delete_drawn (right := true) hdrawn hnodup hp
      (fun q _ => rootSlot_ne_nodeOf _ q) (rootSlot_ne_nil _) (by rw [rootSlot_toNat]; omega) rfl (by simp) nofun
    have hnodes := SearchTree.removed_nodes (p := p) hnodup
    refine ⟨m', hdel, hpos, hlen, h.update hkept hfirst (List.Subset.refl _) ⟨hdraw, ?_, ?_, ?_⟩ ?_⟩
    · rw [hnodes]
      exact hnodup.filter _
    · rw [hnodes]
      exact fun q hq => hfirst q (List.mem_filter.1 hq).1
    · rw [hnodes]
      exact hsorted.filter _
    · intro q hq hatt
      rw [hnodes]
      exact List.mem_filter.2 ⟨hq, by simpa using fun e : q = p => hout (e ▸ hatt)⟩
  · have hdad : ramRead m.dad (nodeOf p).toNat = Config.NIL := by
      rw [nodeOf_toNat]
      exact not_not.1 (mt (h.attached_iff p).1 hp)
    refine ⟨m, MatchFinder.delete_of_unattached (by rw [nodeOf_toNat]; exact p.isLt) hdad, rfl, rfl, ?_⟩
    rw [SearchTree.removed_of_not_mem hp, Function.update_eq_self]
    exact h

/-- A window that the attached keys read alike has the same trees. -/
theorem MatchFinder.forest.of_keysKept (h : m.forest win tree) {win' : Memory}
    (hkeys : ∀ p, m.attached p → ∀ k, k < 18 → win'.byteT (p + BitVec.ofNat 12 k) = win.byteT (p + BitVec.ofNat 12 k)) :
    m.forest win' tree := by
  have hfirst : ∀ p, m.attached p → win'.byteT p = win.byteT p := fun p hp => by
    simpa using hkeys p hp 0 (by omega)
  have hagree : ∀ {a b : WinPos} {n : Nat}, m.attached a → m.attached b → n ≤ 18 → keysAgree win n a b →
      keysAgree win' n a b := fun ha hb hn e k hk => by
    rw [hkeys _ ha k (by omega), hkeys _ hb k (by omega)]
    exact e k hk
  refine ⟨fun c => ?_, fun p hp => hfirst p hp ▸ h.2 p hp⟩
  obtain ⟨hdrawn, hnodup, hbyte, hsorted⟩ := h.1 c
  refine ⟨hdrawn, hnodup, fun p hp => (hfirst p (h.attached hp)).trans (hbyte p hp), hsorted.imp_of_mem ?_⟩
  intro a b ha hb hle
  have ha := h.attached ha
  have hb := h.attached hb
  refine hle.imp (hagree ha hb le_rfl) fun ⟨i, hi, heq, hlt⟩ => ⟨i, hi, hagree ha hb (by omega) heq, ?_⟩
  rwa [hkeys a ha i hi, hkeys b hb i hi]

end

section
variable {win : Memory} {m : MatchFinder}

/-- INSERT of an unattached position answers on trees that keep R47, keeps it, and attaches that position alone. -/
theorem MatchFinder.insert_treesOk (h : m.treesOk win) {r : WinPos} (hr : ¬ m.attached r) :
    ∃ m', m.insert win r = some m' ∧ m'.treesOk win ∧ m'.attached r ∧ ∀ p, m'.attached p → p = r ∨ m.attached p := by
  obtain ⟨tree, h⟩ := MatchFinder.treesOk_iff.1 h
  obtain ⟨m', hinsert, -, hforest⟩ := h.insert hr
  refine ⟨m', hinsert, ⟨_, hforest⟩, ?_, fun p hp => ?_⟩
  · rw [hforest.attached_iff, Function.update_self]
    exact SearchTree.self_mem_inserted win r _
  · have hmem := hforest.2 p hp
    by_cases hc : win.byteT p = win.byteT r
    · rw [hc, Function.update_self] at hmem
      exact (SearchTree.mem_inserted hmem).imp id h.attached
    · rw [Function.update_of_ne hc] at hmem
      exact .inr (h.attached hmem)

/-- DELETE answers on trees that keep R47, keeps it, and takes out the position it names and no other. -/
theorem MatchFinder.delete_treesOk (h : m.treesOk win) (p : WinPos) :
    ∃ m', m.delete (nodeOf p) = some m' ∧ m'.treesOk win ∧ m'.matchPosition = m.matchPosition
      ∧ m'.matchLength = m.matchLength ∧ ∀ q, m'.attached q ↔ m.attached q ∧ q ≠ p := by
  obtain ⟨tree, h⟩ := MatchFinder.treesOk_iff.1 h
  obtain ⟨m', hdel, hpos, hlen, hforest⟩ := h.delete p
  refine ⟨m', hdel, ⟨_, hforest⟩, hpos, hlen, fun q => ?_⟩
  rw [hforest.attached_iff, h.attached_iff]
  by_cases hc : win.byteT q = win.byteT p
  · rw [hc, Function.update_self, SearchTree.removed_nodes (h.1 _).2.1, List.mem_filter, decide_eq_true_iff]
  · rw [Function.update_of_ne hc]
    exact (and_iff_left fun e => hc (congrArg win.byteT e)).symm

/-- A byte of the window may change where no attached key reads it (R256). -/
theorem MatchFinder.treesOk_write (h : m.treesOk win) {q : WinPos} (b : Byte)
    (hq : ∀ p, m.attached p → ∀ k, k < 18 → p + BitVec.ofNat 12 k ≠ q) : m.treesOk (win.write q.toNat b) := by
  obtain ⟨tree, h⟩ := MatchFinder.treesOk_iff.1 h
  refine ⟨tree, h.of_keysKept fun p hp k hk => ?_⟩
  rw [Memory.byteT_write, if_neg (hq p hp k hk)]

/-- SEED answers on trees that keep R47 and hold none of its positions, keeps R47, and attaches its positions alone (R149). -/
theorem MatchFinder.seedFrom_treesOk {n : Nat} {p : WinPos} (hn : n ≤ 4096) (h : m.treesOk win)
    (hout : ∀ i, i < n → ¬ m.attached (p - BitVec.ofNat 12 i)) :
    ∃ m', m.seedFrom win n p = some m' ∧ m'.treesOk win
      ∧ ∀ q, m'.attached q → (∃ i, i < n ∧ q = p - BitVec.ofNat 12 i) ∨ m.attached q := by
  induction n generalizing p m with
  | zero => exact ⟨m, rfl, h, fun _ => .inr⟩
  | succ n ih =>
    have hback : ∀ i, p - 1 - BitVec.ofNat 12 i = p - BitVec.ofNat 12 (i + 1) := fun i => by bv_omega
    obtain ⟨m1, hinsert, h1, -, hatt1⟩ := MatchFinder.insert_treesOk h (by simpa using hout 0 (by omega))
    obtain ⟨m', hseed, h', hatt⟩ := ih (p := p - 1) (by omega) h1 fun i hi hatt => by
      rw [hback] at hatt
      obtain e | hatt := hatt1 _ hatt
      · bv_omega
      · exact hout (i + 1) (by omega) hatt
    refine ⟨m', ?_, h', fun q hq => ?_⟩
    · rw [MatchFinder.seedFrom, hinsert]
      exact hseed
    · obtain ⟨i, hi, rfl⟩ | hq := hatt q hq
      · exact .inl ⟨i + 1, by omega, hback i⟩
      · exact (hatt1 q hq).imp (fun e => ⟨0, by omega, by simpa using e⟩) id

end

/-- With no links there are no nodes, and R47 is kept in every window (R142). -/
theorem MatchFinder.treesOk_of_empty {m : MatchFinder} (hr : m.rson = []) (hd : m.dad = []) (win : Memory) : m.treesOk win :=
  ⟨fun _ => .nil, fun _ => ⟨by rw [hr]; rfl, List.nodup_nil, nofun, .nil⟩, fun _ h => absurd (by rw [hd]; rfl) h⟩

theorem seedCount_le (mode : PrefillMode) : seedCount mode ≤ 4078 := by
  cases mode <;> decide

/-- SEED and the INSERT of the first position, made from empty trees, answer, keep R47, and attach none of the `F - 1`
positions after the first (R149). -/
theorem MatchFinder.seed_insert_clear {m : MatchFinder} (hr : m.rson = []) (hd : m.dad = []) (cfg : Configuration)
    (win : Memory) :
    ∃ m', (m.seed cfg win).bind (·.insert win cfg.writeStart) = some m' ∧ m'.treesOk win
      ∧ ∀ k, 1 ≤ k → k < 18 → ¬ m'.attached (cfg.writeStart + BitVec.ofNat 12 k) := by
  have hempty : ∀ p, ¬ m.attached p := fun p h => h (by rw [hd]; rfl)
  have hcount := seedCount_le cfg.prefillMode
  obtain ⟨m1, hseed, h1, hatt1⟩ := MatchFinder.seedFrom_treesOk (n := seedCount cfg.prefillMode) (p := cfg.writeStart - 1)
    (by omega) (MatchFinder.treesOk_of_empty hr hd win) fun i _ => hempty _
  have hseeds : ∀ k, k < 18 → ¬ m1.attached (cfg.writeStart + BitVec.ofNat 12 k) := by
    intro k hk hatt
    obtain ⟨i, hi, e⟩ | h := hatt1 _ hatt
    · bv_omega
    · exact hempty _ h
  obtain ⟨m2, hinsert, h2, -, hatt2⟩ := MatchFinder.insert_treesOk h1 (by simpa using hseeds 0 (by omega))
  refine ⟨m2, ?_, h2, fun k h1 h18 hk => ?_⟩
  · rw [MatchFinder.seed, hseed, Option.bind_some, hinsert]
  · obtain e | hk := hatt2 _ hk
    · bv_omega
    · exact hseeds k h18 hk

/-! ### The trees of a running ENCODE (10_state.md R47, 42_encoder.md R168) -/

/-- The trees of an ENCODE, whatever `MODE` says, with the two window pointers `F` apart. -/
def State.treesClear (s : State) : Prop :=
  s.enc.s = s.enc.r + 18 ∧ s.mf.treesOk s.win ∧ ∀ k, 1 ≤ k → k < 18 → ¬ s.mf.attached (s.enc.r + BitVec.ofNat 12 k)

/-- DELETE of the position that is loaded next leaves the `F` positions after `r` in no tree. -/
theorem MatchFinder.delete_clear {win : Memory} {m : MatchFinder} {r : WinPos} (h : m.treesOk win)
    (hclear : ∀ k, 1 ≤ k → k < 18 → ¬ m.attached (r + BitVec.ofNat 12 k)) :
    ∃ m', m.delete (nodeOf (r + 18)) = some m' ∧ m'.treesOk win
      ∧ ∀ k, 1 ≤ k → k < 19 → ¬ m'.attached (r + BitVec.ofNat 12 k) := by
  obtain ⟨m', hdel, h', -, -, hatt⟩ := MatchFinder.delete_treesOk h (r + 18)
  refine ⟨m', hdel, h', fun k h1 h19 hk => ?_⟩
  obtain ⟨hk, hne⟩ := (hatt _).1 hk
  by_cases h18 : k = 18
  · subst h18; exact hne rfl
  · exact hclear k h1 (by omega) hk

/-- INSERT of the first of `F` positions in no tree leaves the others so. -/
theorem MatchFinder.insert_clear {win : Memory} {m m' : MatchFinder} {r : WinPos} (h : m.treesOk win)
    (hfree : ∀ k, 1 ≤ k → k < 19 → ¬ m.attached (r + BitVec.ofNat 12 k)) (e : m.insert win (r + 1) = some m') :
    m'.treesOk win ∧ ∀ k, 1 ≤ k → k < 18 → ¬ m'.attached (r + 1 + BitVec.ofNat 12 k) := by
  obtain ⟨m2, hinsert, h2, -, hatt⟩ := MatchFinder.insert_treesOk h (hfree 1 le_rfl (by omega))
  obtain rfl : m' = m2 := Option.some.inj (e.symm.trans hinsert)
  refine ⟨h2, fun k h1 h18 hk => ?_⟩
  obtain hfirst | hk := hatt _ hk
  · bv_omega
  · rw [winPos_succ_add] at hk
    exact hfree (k + 1) (by omega) (by omega) hk

/-- One byte of SLIDE keeps the trees clear of the lookahead: once `s` is deleted, no attached key reads it (R256). -/
theorem State.treesClear_slideByte {s t : State} (h : s.treesClear) (e : s.slideByte = some t) : t.treesClear := by
  obtain ⟨hs, htrees, hclear⟩ := h
  obtain ⟨m, hdel, hcases⟩ := State.slideByte_some e
  obtain ⟨m', hdel', hm, hfree⟩ := MatchFinder.delete_clear htrees hclear
  rw [hs, hdel'] at hdel
  cases hdel
  obtain ⟨b, m1, -, hins, rfl⟩ | ⟨m1, -, hins, rfl⟩ := hcases
  · have hwrite : m.treesOk (s.win.write s.enc.s.toNat b) := by
      refine MatchFinder.treesOk_write hm b fun p hp k hk e => hfree (18 - k) (by omega) (by omega) ?_
      rw [show s.enc.r + BitVec.ofNat 12 (18 - k) = p by rw [hs] at e; bv_omega]
      exact hp
    exact ⟨winPos_pointers_succ hs, MatchFinder.insert_clear hwrite hfree hins⟩
  · split at hins
    · cases hins
      refine ⟨winPos_pointers_succ hs, hm, fun k h1 h18 hk => ?_⟩
      simp only at hk
      rw [winPos_succ_add] at hk
      exact hfree (k + 1) (by omega) (by omega) hk
    · exact ⟨winPos_pointers_succ hs, MatchFinder.insert_clear hm hfree hins⟩

theorem State.treesClear_slide {s t : State} (h : s.treesClear) (e : s.slide = some t) : t.treesClear :=
  State.slideFrom_induct (fun _ _ => State.treesClear_slideByte) (P := State.treesClear) (by exact h) e

/-- Settles O60: a byte of SLIDE deletes the position it overwrites and inserts the one that leaves the lookahead's free part;
STEP and FLUSH touch neither window nor trees; a call starts from empty trees. -/
theorem stepKeepsTrees : Obligations.StepKeepsTrees := by
  intro s t hrange htrees hstep ht
  by_cases hm : s.mode = .encoding
  · obtain ⟨⟨-, -, -, -, hs, -⟩, -⟩ := s.encoderInRange_iff.1 hrange hm
    obtain ⟨-, -, hslide⟩ := step_encoding_goes_on hm hstep ht
    have hcoded : s.coded.treesClear := by
      rw [State.coded_frame]
      exact ⟨hs, htrees hm⟩
    exact (State.treesClear_slide hcoded hslide).2
  · obtain ⟨u, input, output, hhead⟩ := step_starts_encoding hm hstep ht
    obtain ⟨m, hseed, rfl⟩ := State.encodeHead_encoding hhead ht
    obtain ⟨m', hseed', hclear⟩ := MatchFinder.seed_insert_clear (m := (u.encodeStart input output).load.mf) rfl rfl u.cfg
      (u.encodeStart input output).load.win
    obtain rfl : m = m' := Option.some.inj (hseed.symm.trans hseed')
    exact hclear

/-! ### The Configurations (10_state.md R29, R30; 45_command_interface.md R217) -/

theorem mem_of_findInstance {parked : List (Nat × Instance)} {h : Nat} {inst : Instance}
    (e : findInstance parked h = some inst) : (h, inst) ∈ parked := by
  induction parked with
  | nil => cases e
  | cons p rest ih =>
    rw [findInstance] at e
    split at e
    · next hp => cases e; exact hp ▸ List.mem_cons_self
    · exact List.mem_cons_of_mem _ (ih e)

theorem mem_of_mem_dropInstance {parked : List (Nat × Instance)} {h : Nat} {p : Nat × Instance}
    (e : p ∈ dropInstance parked h) : p ∈ parked := by
  induction parked with
  | nil => cases e
  | cons q rest ih =>
    rw [dropInstance] at e
    split at e
    · exact List.mem_cons_of_mem _ (ih e)
    · exact (List.mem_cons.1 e).elim (fun e => e ▸ List.mem_cons_self) fun e => List.mem_cons_of_mem _ (ih e)

/-- What CREATE lets through is a Configuration without the duplicate-last-byte codeword, and with a prefill function in mode
`custom` (R217). -/
theorem configAdmitted_of_checkConfiguration {c : RawConfiguration} {cfg : Configuration}
    (h : checkConfiguration c = some cfg) : configAdmitted cfg := by
  simp only [checkConfiguration, Option.bind_eq_bind, Option.bind_eq_some_iff] at h
  obtain ⟨order, -, layout, -, endian, -, mode, -, start, -, eos, -, dup, hdup, h⟩ := h
  split at h
  · cases h
  · next hcustom =>
    cases h
    refine ⟨?_, fun hmode hfn => hcustom ⟨hmode, hfn⟩⟩
    unfold dupShortcutOfCode at hdup
    split at hdup <;> cases hdup
    rfl

theorem State.configured_park {s : State} (h : s.configured) : ∀ p ∈ s.park, configAdmitted p.2.cfg := by
  intro p hp
  unfold State.park at hp
  split at hp
  · exact h.2 p hp
  · next hm =>
    obtain rfl | hp := List.mem_cons.1 hp
    · exact h.1 hm
    · exact h.2 p hp

theorem State.configured_select {s t : State} {handle : Nat} (h : s.configured) (e : s.select handle = .next t) :
    t.configured ∧ t.mode ≠ .absent := by
  obtain ⟨-, hm, rfl⟩ | ⟨-, inst, hfind, hm, rfl⟩ := State.select_next e
  · exact ⟨h, by simp [hm]⟩
  · refine ⟨⟨fun _ => h.2 _ (mem_of_findInstance hfind), fun p hp => ?_⟩, by simp [hm]⟩
    exact State.configured_park h p (mem_of_mem_dropInstance hp)

/-- The head of an ENCODE leaves the Configuration and the coders put aside as they were. -/
theorem State.encodeHead_frame {s t : State} (h : s.encodeHead = .next t) : t.cfg = s.cfg ∧ t.parked = s.parked := by
  unfold State.encodeHead at h
  dsimp only at h
  split at h
  · cases h; exact ⟨rfl, rfl⟩
  · split at h <;> cases h
    exact ⟨rfl, rfl⟩

/-- Every request that answers keeps the Configurations admitted. -/
theorem State.configured_perform {q : Request} {s t : State} (h : s.configured) (e : s.perform q = .next t) :
    t.configured := by
  obtain ⟨hsel, hparked⟩ | ⟨c, cfg, hcfg, hsel, hparked⟩ | ⟨_, u, hu, hsel, hparked⟩ | ⟨_, input, output, u, hu, hhead⟩ |
    ⟨_, input, output, u, hu, rfl⟩ := State.perform_cases e
  · rw [State.configured, hsel, hparked]
    exact h
  · rw [State.configured, hsel, hparked]
    exact ⟨fun _ => configAdmitted_of_checkConfiguration hcfg, State.configured_park h⟩
  · rw [State.configured, hsel, hparked]
    exact ⟨fun hm => absurd rfl hm, (State.configured_select h hu).1.2⟩
  · obtain ⟨⟨hcfg, hothers⟩, hm⟩ := State.configured_select h hu
    obtain ⟨hcfg', hparked⟩ := State.encodeHead_frame hhead
    rw [State.configured, hcfg', hparked]
    exact ⟨fun _ => hcfg hm, hothers⟩
  · obtain ⟨⟨hcfg, hothers⟩, hm⟩ := State.configured_select h hu
    exact ⟨fun _ => hcfg hm, hothers⟩

theorem keptByDecoding_cfg (cfg : Configuration) (parked : List (Nat × Instance)) :
    KeptByDecoding fun s => s.cfg = cfg ∧ s.parked = parked where
  frame _ _ _ _ _ _ _ h := h
  produce _ _ _ h := h

/-- A step of a running call leaves the Configuration and the coders put aside as they were (R30). -/
theorem step_running_frame {s t : State} (hm : s.mode = .decoding ∨ s.mode = .encoding) (h : step s = .next t) :
    t.cfg = s.cfg ∧ t.parked = s.parked := by
  obtain hm | hm := hm
  · exact (keptByDecoding_cfg s.cfg s.parked).step hm ⟨rfl, rfl⟩ h
  · have hcoded : s.coded.cfg = s.cfg ∧ s.coded.parked = s.parked := by rw [State.coded_frame]; exact ⟨rfl, rfl⟩
    have hclosed : s.closed.cfg = s.cfg ∧ s.closed.parked = s.parked := by rw [State.closed_frame]; exact ⟨rfl, rfl⟩
    obtain ⟨-, -, hslide⟩ | ⟨-, rfl⟩ | rfl | ⟨-, rfl⟩ := step_encoding_cases hm h
    · rw [(State.slideFrom_frame hslide).1]
      exact hcoded
    · exact hcoded
    · exact hclosed
    · exact hclosed

/-- Settles O26: a running call's step changes no Configuration; of the requests only CREATE brings one in, and checks it. -/
theorem stepKeepsConfiguration : Obligations.StepKeepsConfiguration := by
  refine fun s t hstep => ⟨fun h => ?_, fun hm => (step_running_frame hm hstep).1⟩
  have running : s.mode = .decoding ∨ s.mode = .encoding → t.configured := fun hm => by
    obtain ⟨hcfg, hparked⟩ := step_running_frame hm hstep
    rw [State.configured, hcfg, hparked]
    exact ⟨fun _ => h.1 (by rcases hm with hm | hm <;> simp [hm]), h.2⟩
  cases hm : s.mode with
  | decoding => exact running (.inl hm)
  | encoding => exact running (.inr hm)
  | idle | absent =>
    obtain rfl | ⟨q, rest, -, hq⟩ := step_between_calls (by simp [hm]) hstep
    · exact h
    · exact State.configured_perform (by exact h) hq

/-! ### The call-start resets (10_state.md R50) -/

/-- A command that a step takes between calls is the one at the head of the requests. -/
theorem step_of_addresses {s : State} {h : Nat} {inst : Instance} {q : Request} {rest : List Request}
    (ha : s.addresses h inst) (hq : s.requests = q :: rest) : step s = State.perform q { s with requests := rest } := by
  have hm : s.mode = .idle ∨ s.mode = .absent := by
    obtain ⟨-, hm, -⟩ | ⟨-, hm, -⟩ := ha
    · exact .inl hm
    · exact hm
  rcases hm with hm | hm <;> simp only [step, hm, State.serve, hq]

/-- The caller's `OUT` at the start of a call (R48). -/
theorem read_caller {output : List Byte} {k : Nat} {b : Byte} (h : output[k]? = some b) :
    (Memory.mk (.caller output) []).read k = b := by
  simp [Memory.read, cellsFind, Background.byteAt, h]

/-- The window after PREFILL (R121). -/
theorem byteT_prefill (cfg : Configuration) (draw : Nat) (p : WinPos) :
    (Memory.mk (prefillBase cfg draw) []).byteT p = (prefillBase cfg draw).byteAt p.toNat := rfl

theorem byteT_prefill_constant {cfg : Configuration} (h : cfg.prefillMode = .constant) (draw : Nat) (p : WinPos) :
    (Memory.mk (prefillBase cfg draw) []).byteT p = cfg.prefillValue := by
  rw [byteT_prefill, prefillBase, h]
  rfl

theorem byteT_prefill_custom {cfg : Configuration} {f : PrefillTable} (h : cfg.prefillMode = .custom)
    (hf : cfg.prefillFn = some f) (draw : Nat) (p : WinPos) :
    (Memory.mk (prefillBase cfg draw) []).byteT p = f[p.toNat]'p.isLt := by
  have hp : p.toNat < f.toList.length := by simpa using p.isLt
  rw [byteT_prefill, prefillBase, h, hf]
  simp only [Background.byteAt]
  rw [List.getD_eq_getElem _ _ hp]
  rfl

/-- Settles O36: the step selects what the command addresses and makes the reset. -/
theorem decodeStartsFromReset : Obligations.DecodeStartsFromReset := by
  intro s h inst input output rest ha hq
  obtain ⟨u, hselect, rfl, hsel, -, hrest, -⟩ := State.select_addresses (s := { s with requests := rest }) ha
  refine ⟨u.decodeStart input output, ?_, hsel, rfl, rfl, rfl, rfl, hrest, rfl, rfl, fun _ _ => read_caller, rfl,
    fun hmode => byteT_prefill_constant hmode u.draws, fun _ hmode hf => byteT_prefill_custom hmode hf u.draws⟩
  rw [step_of_addresses ha hq, State.perform, requestDecode, hselect]

/-- Settles O37: the reset prefills the window and empties the trees, LOAD writes the first `F` bytes over it. -/
theorem encodeStartsFromReset : Obligations.EncodeStartsFromReset := by
  intro s input output
  refine ⟨rfl, rfl, rfl, rfl, rfl, fun _ _ => read_caller, State.encodeStart_load_enc input output s, rfl,
    fun k hk b => State.encodeStart_load_win output s hk, fun p hp => ?_⟩
  refine (loadBytes_frame fun k hk => hp k ?_).trans (byteT_prefill s.cfg s.draws p)
  rwa [← List.length_take]

/-! ### `OUT` while a call runs (10_state.md R48, 20_memory.md R61, R62) -/

/-- From `s` to `t` the output grows in order: the buffers stay, `count` does not fall and stays within `OUT`, and `OUT`
changes only at the indices the count passes over. -/
def State.outputGrown (count : State → Nat) (s t : State) : Prop :=
  t.inBuf = s.inBuf ∧ t.outCap = s.outCap ∧ count s ≤ count t ∧ count t ≤ s.outCap
    ∧ ∀ a, a < count s ∨ count t ≤ a → t.out.read a = s.out.read a

section
variable {count : State → Nat} {s t u : State}

theorem State.outputGrown_refl (h : count s ≤ s.outCap) : s.outputGrown count s :=
  ⟨rfl, rfl, le_rfl, h, fun _ _ => rfl⟩

/-- A byte put at the count's index, where there is room for it, lets the output grow by one. -/
theorem State.outputGrown.write (h : s.outputGrown count t) {b : Byte} (hroom : count t < t.outCap)
    (hin : u.inBuf = t.inBuf) (hcap : u.outCap = t.outCap) (hcount : count u = count t + 1)
    (hout : u.out = t.out.write (count t) b) : s.outputGrown count u := by
  obtain ⟨hin', hcap', hle, -, hframe⟩ := h
  refine ⟨hin.trans hin', hcap.trans hcap', by omega, by omega, fun a ha => ?_⟩
  rw [hout, Memory.read_write_other _ _ (by omega)]
  exact hframe a (by omega)

/-- What touches neither the buffers nor the count leaves the output as far as it had grown. -/
theorem State.outputGrown.frame (h : s.outputGrown count t) (hin : u.inBuf = t.inBuf) (hcap : u.outCap = t.outCap)
    (hcount : count u = count t) (hout : u.out = t.out) : s.outputGrown count u := by
  rw [State.outputGrown, hin, hcap, hcount, hout]
  exact h

end

theorem keptByDecoding_outputGrown (s : State) : KeptByDecoding (s.outputGrown (·.dec.op)) where
  frame _ _ _ _ _ hop _ h := h.frame rfl rfl hop rfl
  produce _ _ hroom h := h.write hroom rfl rfl rfl rfl

/-- FLUSH's copy lets the output grow by the bytes that fit (R169, R172). -/
theorem State.outputGrown_flushFrom {n k : Nat} {s t : State} (h : s.outputGrown (·.enc.outCount) t) :
    s.outputGrown (·.enc.outCount) (t.flushFrom n k) := by
  induction n generalizing k t with
  | zero => exact h
  | succ n ih =>
    rw [State.flushFrom]
    split
    · next hroom => exact ih (h.write hroom rfl rfl rfl rfl)
    · exact h.frame rfl rfl rfl rfl

theorem State.outputGrown_flush {s t : State} (h : s.outputGrown (·.enc.outCount) t) :
    s.outputGrown (·.enc.outCount) t.flush := by
  have hcopy := State.outputGrown_flushFrom (n := t.enc.codeLen.toNat) (k := 0) h
  rw [State.flush]
  split
  · exact hcopy.frame rfl rfl rfl rfl
  · exact hcopy

theorem State.outputGrown_coded {s : State} (h : s.enc.outCount ≤ s.outCap) : s.outputGrown (·.enc.outCount) s.coded := by
  have hstep : s.outputGrown (·.enc.outCount) s.encodeStep := by
    rw [State.encodeStep_frame]
    exact (State.outputGrown_refl h).frame rfl rfl rfl rfl
  rw [State.coded]
  split
  · exact State.outputGrown_flush hstep
  · exact hstep

theorem State.outputGrown_closed {s : State} (h : s.enc.outCount ≤ s.outCap) : s.outputGrown (·.enc.outCount) s.closed := by
  have hclosing : s.outputGrown (·.enc.outCount) s.closing :=
    (State.outputGrown_refl h).frame (by rw [State.closing_frame]) s.closing_outCap s.closing_outCount
      (by rw [State.closing_frame])
  rw [State.closed]
  split
  · exact State.outputGrown_flush hclosing
  · exact hclosing

/-- Settles O41: the decoder puts each byte at `op`, FLUSH each at `outCount`, and only where there is room. -/
theorem outputGrowsInOrder : Obligations.OutputGrowsInOrder := by
  refine fun s t hstep => ⟨fun hm hop => ?_, fun hm hcount => ?_⟩
  · exact (keptByDecoding_outputGrown s).step hm (State.outputGrown_refl hop) hstep
  · have hcoded := State.outputGrown_coded hcount
    have hclosed := State.outputGrown_closed hcount
    obtain ⟨-, -, hslide⟩ | ⟨-, rfl⟩ | rfl | ⟨-, rfl⟩ := step_encoding_cases hm hstep
    · obtain ⟨hframe, hout, -⟩ := State.slideFrom_frame hslide
      exact hcoded.frame (by rw [hframe]) (by rw [hframe]) hout (by rw [hframe])
    · exact hcoded
    · exact hclosed.frame rfl rfl rfl rfl
    · exact hclosed

/-! ### The state after reset (10_state.md R36, 70_reset_and_hazards.md R250) -/

theorem State.reset_mode : State.reset.mode = .absent := rfl

theorem State.reset_parked : State.reset.parked = [] := rfl

/-- Settles O28: after reset nothing is written, no coder exists, and no call runs. -/
theorem resetMeetsTheInvariants : Obligations.ResetMeetsTheInvariants := by
  have hdecoding : State.reset.mode ≠ .decoding := by rw [State.reset_mode]; decide
  have hencoding : State.reset.mode ≠ .encoding := by rw [State.reset_mode]; decide
  refine ⟨⟨Instance.blank_wf, Memory.wf_empty _ _, ?_⟩, ⟨absurd State.reset_mode, ?_⟩,
    ⟨absurd State.reset_mode, ?_, ?_⟩, (absurd · hdecoding), (absurd · hdecoding), (absurd · hencoding),
    (absurd · hencoding), (absurd · hencoding)⟩ <;> simp [State.reset_parked]

end Sys2Proof.Machine

/-! PROOFS. Statements of 20_memory.md: every step keeps every memory in canonical form and within its size
(StepKeepsMemoriesCanonical), and leaves every coder but the one it runs on and the one it selects as it was
(InstancesAreIsolated). -/

namespace Sys2Proof.Machine

/-! ### The state a request leaves (45_command_interface.md R215 to R223) -/

/-- The whole state after a request that answers: a reply alone, a new coder, a coder ended, an ENCODE's head, a
DECODE's start; the last three on the coder that the request selects. -/
theorem State.perform_next {q : Request} {s t : State} (h : s.perform q = .next t) :
    (∃ reply, t = { s with reply := reply })
    ∨ (∃ c cfg, checkConfiguration c = some cfg ∧ t = { s with
        toInstance := newInstance cfg s.draws, sel := s.nextHandle, parked := s.park, nextHandle := s.nextHandle + 1
        reply := .created s.nextHandle, draws := s.draws + 1 })
    ∨ (∃ handle u, s.select handle = .next u ∧ (t = { u with toInstance := Instance.blank, reply := .destroyed }
      ∨ (∃ input output, (u.encodeStart input output).encodeHead = .next t)
      ∨ ∃ input output, t = u.decodeStart input output)) := by
  cases q with
  | getDefaultConfig => cases h; exact .inl ⟨_, rfl⟩
  | create c =>
    rw [State.perform, requestCreate] at h
    split at h
    · cases h; exact .inl ⟨_, rfl⟩
    · next cfg hcfg => cases h; exact .inr (.inl ⟨c, cfg, hcfg, rfl⟩)
  | destroy handle =>
    rw [State.perform, requestDestroy] at h
    split at h <;> cases h
    next u hu => exact .inr (.inr ⟨handle, u, hu, .inl rfl⟩)
  | encode handle input output =>
    rw [State.perform, requestEncode] at h
    split at h
    · next u hu => exact .inr (.inr ⟨handle, u, hu, .inr (.inl ⟨input, output, h⟩)⟩)
    · cases h
    · cases h
  | decode handle input output =>
    rw [State.perform, requestDecode] at h
    split at h <;> cases h
    next u hu => exact .inr (.inr ⟨handle, u, hu, .inr (.inr ⟨input, output, rfl⟩)⟩)
  | parseSpec spec =>
    rw [State.perform, requestParse] at h
    split at h <;> cases h <;> exact .inl ⟨_, rfl⟩
  | writeHeader fields origSize compSize => cases h; exact .inl ⟨_, rfl⟩
  | readHeader fields input => cases h; exact .inl ⟨_, rfl⟩

/-- The head of an ENCODE that answers: LOAD, and the end of the call on empty input (R163), else SEED and the first INSERT. -/
theorem State.encodeHead_next {s t : State} (h : s.encodeHead = .next t) :
    t = s.load.finish .ok
    ∨ ∃ m, (s.load.mf.seed s.load.cfg s.load.win).bind (·.insert s.load.win s.load.enc.r) = some m
        ∧ t = { s.load with mf := m } := by
  unfold State.encodeHead at h
  dsimp only at h
  split at h
  · cases h; exact .inl rfl
  · split at h <;> cases h
    next m hm => exact .inr ⟨m, hm, rfl⟩

theorem State.mem_park {s : State} {p : Nat × Instance} (hp : p ∈ s.park) : p = (s.sel, s.toInstance) ∨ p ∈ s.parked := by
  unfold State.park at hp
  split at hp
  · exact .inr hp
  · exact List.mem_cons.1 hp

/-! ### Canonical memories: the decoder (43_decoder.md R181 to R189) -/

theorem keptByDecoding_canonical : KeptByDecoding State.canonical where
  frame _ _ _ _ _ _ _ h := h
  produce _ b hroom := fun ⟨⟨hwin, hbuf, hmf⟩, hout, hparked⟩ =>
    have ⟨hout', hwin'⟩ := State.produce_wf (b := b) hroom hout hwin
    ⟨⟨hwin', hbuf, hmf⟩, hout', hparked⟩

/-! ### Canonical memories: the encoder (42_encoder.md R161 to R172) -/

/-- An encoder's step that answers found two bytes of the code buffer free (R44). -/
theorem codeLen_le_of_step_encoding {s t : State} (hm : s.mode = .encoding) (h : step s = .next t) :
    s.enc.codeLen.toNat + 2 ≤ 17 := by
  have hroom : s.codeRoom = true := by
    by_contra hfull
    by_cases hl : s.enc.len = 0
    · rw [step_of_encodeClose hm hl, State.encodeClose, if_neg hfull] at h
      cases h
    · rw [step_of_encodeTurn hm hl, State.encodeTurn, if_neg hfull] at h
      cases h
  exact of_decide_eq_true hroom

section
variable {s t : State}

theorem State.canonical_encodeStep (hroom : s.enc.codeLen.toNat + 2 ≤ 17) (h : s.canonical) : s.encodeStep.canonical := by
  obtain ⟨⟨hwin, hbuf, hmf⟩, hout, hparked⟩ := h
  have hbuf' := State.encodeStep_wf hroom hbuf
  rw [State.encodeStep_frame]
  exact ⟨⟨hwin, hbuf', hmf⟩, hout, hparked⟩

/-- FLUSH writes `OUT` below `OUT_CAP`, and the code buffer's byte 0 (R169, R172). -/
theorem State.canonical_flush (h : s.canonical) : s.flush.canonical := by
  obtain ⟨⟨hwin, hbuf, hmf⟩, hout, hparked⟩ := h
  have hcopy : (s.flushFrom s.enc.codeLen.toNat 0).canonical := by
    have hout' := State.flushFrom_wf (n := s.enc.codeLen.toNat) (k := 0) hout
    rw [State.flushFrom_frame]
    exact ⟨⟨hwin, hbuf, hmf⟩, hout', hparked⟩
  rw [State.flush]
  split
  · obtain ⟨⟨hwin, hbuf, hmf⟩, hrest⟩ := hcopy
    exact ⟨⟨hwin, Memory.wf_write 0 (by decide) hbuf, hmf⟩, hrest⟩
  · exact hcopy

theorem State.canonical_coded (hroom : s.enc.codeLen.toNat + 2 ≤ 17) (h : s.canonical) : s.coded.canonical := by
  have hstep := State.canonical_encodeStep hroom h
  rw [State.coded]
  split
  · exact State.canonical_flush hstep
  · exact hstep

/-- The terminator's two bytes fit where two bytes of the code buffer are free (R171). -/
theorem State.canonical_closing (hroom : s.enc.codeLen.toNat + 2 ≤ 17) (h : s.canonical) : s.closing.canonical := by
  rw [State.closing]
  split
  · obtain ⟨⟨hwin, hbuf, hmf⟩, hrest⟩ := h
    have hfirst : s.enc.codeLen.toNat < 17 := by omega
    have hsecond : (s.enc.codeLen + 1).toNat < 17 := by bv_omega
    exact ⟨⟨hwin, Memory.wf_write 0 hsecond (Memory.wf_write 0 hfirst hbuf), hmf⟩, hrest⟩
  · exact h

theorem State.canonical_closed (hroom : s.enc.codeLen.toNat + 2 ≤ 17) (h : s.canonical) : s.closed.canonical := by
  have hclosing := State.canonical_closing hroom h
  rw [State.closed]
  split
  · exact State.canonical_flush hclosing
  · exact hclosing

theorem State.canonical_slideByte (h : s.canonical) (e : s.slideByte = some t) : t.canonical := by
  obtain ⟨⟨hwin, hbuf, hmf⟩, hrest⟩ := h
  obtain ⟨hwin', hmf'⟩ := State.slideByte_wf e hwin hmf
  obtain ⟨_, -, ⟨_, _, -, -, rfl⟩ | ⟨_, -, -, rfl⟩⟩ := State.slideByte_some e
  · exact ⟨⟨hwin', hbuf, hmf'⟩, hrest⟩
  · exact ⟨⟨hwin', hbuf, hmf'⟩, hrest⟩

theorem State.canonical_slide (h : s.canonical) (e : s.slide = some t) : t.canonical :=
  State.slideFrom_induct (fun _ _ => State.canonical_slideByte) (s := { s with enc := { s.enc with i := 0 } }) h e

theorem canonical_step_encoding (hm : s.mode = .encoding) (h : s.canonical) (hstep : step s = .next t) : t.canonical := by
  have hroom := codeLen_le_of_step_encoding hm hstep
  obtain ⟨-, -, hslide⟩ | ⟨-, rfl⟩ | rfl | ⟨-, rfl⟩ := step_encoding_cases hm hstep
  · exact State.canonical_slide (State.canonical_coded hroom h) hslide
  · exact State.canonical_coded hroom h
  · exact State.canonical_closed hroom h
  · exact State.canonical_closed hroom h

/-! ### Canonical memories: the requests (10_state.md R50) -/

theorem State.wf_of_mem_park (h : s.canonical) : ∀ p ∈ s.park, p.2.wf := by
  obtain ⟨hsel, -, hparked⟩ := h
  intro p hp
  obtain rfl | hp := State.mem_park hp
  · exact hsel
  · exact hparked p hp

theorem State.canonical_select {handle : Nat} (h : s.canonical) (e : s.select handle = .next t) : t.canonical := by
  have hpark := State.wf_of_mem_park h
  obtain ⟨-, -, rfl⟩ | ⟨-, _, hfind, -, rfl⟩ := State.select_next e
  · exact h
  · obtain ⟨-, hout, hparked⟩ := h
    exact ⟨hparked _ (mem_of_findInstance hfind), hout, fun p hp => hpark p (mem_of_mem_dropInstance hp)⟩

/-- DECODE's start empties the window's and `OUT`'s lists of cells. -/
theorem State.canonical_decodeStart (input output : List Byte) (h : s.canonical) : (s.decodeStart input output).canonical := by
  obtain ⟨⟨-, hbuf, hmf⟩, -, hparked⟩ := h
  exact ⟨⟨Memory.wf_empty _ _, hbuf, hmf⟩, Memory.wf_empty _ _, hparked⟩

/-- ENCODE's start empties the lists of cells of every memory of the call. -/
theorem State.canonical_encodeStart (input output : List Byte) (h : s.canonical) : (s.encodeStart input output).canonical := by
  obtain ⟨-, -, hparked⟩ := h
  exact ⟨⟨Memory.wf_empty _ _, Memory.wf_empty _ _, MatchFinder.initTree_wf s.mf⟩, Memory.wf_empty _ _, hparked⟩

theorem State.canonical_encodeHead (h : s.canonical) (e : s.encodeHead = .next t) : t.canonical := by
  obtain ⟨⟨hwin, hbuf, hmf⟩, hrest⟩ := h
  have hload : s.load.win.wf 4096 := loadBytes_wf hwin
  obtain rfl | ⟨m, hm, rfl⟩ := State.encodeHead_next e
  · exact ⟨⟨hload, hbuf, hmf⟩, hrest⟩
  · obtain ⟨_, hseed, hinsert⟩ := Option.bind_eq_some_iff.1 hm
    exact ⟨⟨hload, hbuf, MatchFinder.insert_wf hinsert (MatchFinder.seed_wf hseed hmf)⟩, hrest⟩

theorem State.canonical_perform {q : Request} (h : s.canonical) (e : s.perform q = .next t) : t.canonical := by
  obtain ⟨_, rfl⟩ | ⟨_, cfg, -, rfl⟩ | ⟨_, u, hu, hrun⟩ := State.perform_next e
  · exact h
  · have hpark := State.wf_of_mem_park h
    obtain ⟨-, hout, -⟩ := h
    exact ⟨newInstance_wf cfg s.draws, hout, hpark⟩
  · have hsel := State.canonical_select h hu
    obtain rfl | ⟨input, output, hhead⟩ | ⟨input, output, rfl⟩ := hrun
    · obtain ⟨-, hrest⟩ := hsel
      exact ⟨Instance.blank_wf, hrest⟩
    · exact State.canonical_encodeHead (State.canonical_encodeStart input output hsel) hhead
    · exact State.canonical_decodeStart input output hsel

end

/-- Settles O21: a running call writes each memory below its size, and a request starts from empty lists of cells. -/
theorem stepKeepsMemoriesCanonical : Obligations.StepKeepsMemoriesCanonical := by
  intro s t h hstep
  cases hm : s.mode with
  | decoding => exact keptByDecoding_canonical.step hm h hstep
  | encoding => exact canonical_step_encoding hm h hstep
  | idle | absent =>
    obtain rfl | ⟨q, rest, -, hq⟩ := step_between_calls (by simp [hm]) hstep
    · exact h
    · exact State.canonical_perform (by exact h) hq

/-! ### The coders put aside (20_memory.md R74, 60_exceptions.md R243) -/

theorem findInstance_dropInstance_of_ne {h handle : Nat} (hne : h ≠ handle) (parked : List (Nat × Instance)) :
    findInstance (dropInstance parked handle) h = findInstance parked h := by
  induction parked with
  | nil => rfl
  | cons p rest ih =>
    rw [dropInstance, findInstance]
    split
    · next hp => rw [ih, if_neg (by omega)]
    · rw [findInstance, ih]

theorem State.findInstance_park_of_ne {s : State} {h : Nat} (hne : h ≠ s.sel) :
    findInstance s.park h = findInstance s.parked h := by
  rw [State.park]
  split
  · rfl
  · exact if_neg (Ne.symm hne)

/-- A coder that exists is parked whole. -/
theorem State.findInstance_park_sel {s : State} (hm : s.mode ≠ .absent) : findInstance s.park s.sel = some s.toInstance := by
  rw [State.park, if_neg hm]
  exact if_pos rfl

theorem keptByDecoding_sel (sel : Nat) : KeptByDecoding fun s => s.sel = sel where
  frame _ _ _ _ _ _ _ h := h
  produce _ _ _ h := h

theorem step_running_sel {s t : State} (hm : s.mode = .decoding ∨ s.mode = .encoding) (h : step s = .next t) :
    t.sel = s.sel := by
  obtain hm | hm := hm
  · exact (keptByDecoding_sel s.sel).step hm rfl h
  · have hcoded : s.coded.sel = s.sel := by rw [State.coded_frame]
    have hclosed : s.closed.sel = s.sel := by rw [State.closed_frame]
    obtain ⟨-, -, hslide⟩ | ⟨-, rfl⟩ | rfl | ⟨-, rfl⟩ := step_encoding_cases hm h
    · rw [(State.slideFrom_frame hslide).1]
      exact hcoded
    · exact hcoded
    · exact hclosed
    · exact hclosed

/-- What a step can do with the selection and the parked coders: leave both; park the selected coder beside the others
(CREATE); or park it and take the newly selected one from among them. -/
def State.selectionMoved (s t : State) : Prop :=
  (t.sel = s.sel ∧ t.parked = s.parked) ∨ t.parked = s.park ∨ t.parked = dropInstance s.park t.sel

theorem State.selectionMoved_select {s t : State} {handle : Nat} (e : s.select handle = .next t) : s.selectionMoved t := by
  obtain ⟨-, -, rfl⟩ | ⟨-, _, -, -, rfl⟩ := State.select_next e
  · exact .inl ⟨rfl, rfl⟩
  · exact .inr (.inr rfl)

theorem State.encodeHead_sel {s t : State} (h : s.encodeHead = .next t) : t.sel = s.sel := by
  obtain rfl | ⟨_, -, rfl⟩ := State.encodeHead_next h <;> rfl

theorem State.selectionMoved_perform {q : Request} {s t : State} (e : s.perform q = .next t) : s.selectionMoved t := by
  obtain ⟨_, rfl⟩ | ⟨_, _, -, rfl⟩ | ⟨_, u, hu, hrun⟩ := State.perform_next e
  · exact .inl ⟨rfl, rfl⟩
  · exact .inr (.inl rfl)
  · have hkept : t.sel = u.sel ∧ t.parked = u.parked := by
      obtain rfl | ⟨_, _, hhead⟩ | ⟨_, _, rfl⟩ := hrun
      · exact ⟨rfl, rfl⟩
      · exact ⟨(State.encodeHead_sel hhead).trans rfl, (State.encodeHead_frame hhead).2⟩
      · exact ⟨rfl, rfl⟩
    rw [State.selectionMoved, hkept.1, hkept.2]
    exact State.selectionMoved_select hu

theorem step_selectionMoved {s t : State} (hstep : step s = .next t) : s.selectionMoved t := by
  have running : s.mode = .decoding ∨ s.mode = .encoding → s.selectionMoved t := fun hm =>
    .inl ⟨step_running_sel hm hstep, (step_running_frame hm hstep).2⟩
  cases hm : s.mode with
  | decoding => exact running (.inl hm)
  | encoding => exact running (.inr hm)
  | idle | absent =>
    obtain rfl | ⟨q, rest, -, hq⟩ := step_between_calls (by simp [hm]) hstep
    · exact .inl ⟨rfl, rfl⟩
    · exact State.selectionMoved_perform (s := { s with requests := rest }) hq

/-- Settles O31: a step parks at most the selected coder, whole, and takes at most the newly selected one from among the
parked. -/
theorem instancesAreIsolated : Obligations.InstancesAreIsolated := by
  intro s t hstep
  obtain ⟨hsel, hparked⟩ | hparked | hparked := step_selectionMoved hstep <;> rw [hparked]
  · exact ⟨fun _ _ _ => rfl, fun _ hmoved => absurd hsel hmoved⟩
  · exact ⟨fun h hs _ => State.findInstance_park_of_ne hs, fun hm _ => State.findInstance_park_sel hm⟩
  · refine ⟨fun h hs ht => ?_, fun hm hmoved => ?_⟩
    · rw [findInstance_dropInstance_of_ne ht, State.findInstance_park_of_ne hs]
    · rw [findInstance_dropInstance_of_ne (Ne.symm hmoved), State.findInstance_park_sel hm]

end Sys2Proof.Machine

/-! PROOFS. Statements of 30_encoding.md: the match word and its bytes (PackUnpackAreInverse), decode and encode
(DecodeEncodeRoundTrip, DecodeRejectsOnlyShortInput, WrittenOutWordsDecode), the flags of a control byte
(SlotFlagIsItsControlBit, GroupFlagsMarkLiterals) and what a symbol leaves alone (EverySymbolCompletesInItsFrame). -/

namespace Sys2Proof.Machine

/-! ### The match word as a number (30_encoding.md R96 to R98) -/

theorem toNat_append_eq_add {m n : Nat} (x : BitVec m) (y : BitVec n) : (x ++ y).toNat = x.toNat * 2 ^ n + y.toNat := by
  rw [BitVec.toNat_append, ← Nat.shiftLeft_add_eq_or_of_lt y.isLt, Nat.shiftLeft_eq]

/-- The formula column of R96. -/
def packedNumber (layout : Layout) (ofs len : Nat) : Nat :=
  match layout with
  | .hh => len * 4096 + ofs
  | .hl => ofs / 256 * 4096 + len * 256 + ofs % 256
  | .lh => ofs / 16 * 256 + len * 16 + ofs % 16
  | .ll => ofs * 16 + len

theorem packWord_toNat (layout : Layout) (ofs : WinPos) (len : LenField) :
    (packWord layout ofs len).toNat = packedNumber layout ofs.toNat len.toNat := by
  have hofs := ofs.isLt
  cases layout <;>
    simp only [packWord, packedNumber, toNat_append_eq_add, BitVec.extractLsb'_toNat, Nat.shiftRight_eq_div_pow] <;> omega

/-- The offset in a match word's number (R97). -/
def ofsNumber (layout : Layout) (w : Nat) : Nat :=
  match layout with
  | .hh => w % 4096
  | .hl => w / 4096 * 256 + w % 256
  | .lh => w / 256 * 16 + w % 16
  | .ll => w / 16

/-- The length field in a match word's number (R97). -/
def lenNumber (layout : Layout) (w : Nat) : Nat :=
  match layout with
  | .hh => w / 4096
  | .hl => w / 256 % 16
  | .lh => w / 16 % 16
  | .ll => w % 16

theorem unpackOfs_toNat (layout : Layout) (w : MatchWord) : (unpackOfs layout w).toNat = ofsNumber layout w.toNat := by
  have hw := w.isLt
  cases layout <;>
    simp only [unpackOfs, ofsNumber, toNat_append_eq_add, BitVec.extractLsb'_toNat, Nat.shiftRight_eq_div_pow] <;> omega

theorem unpackLen_toNat (layout : Layout) (w : MatchWord) : (unpackLen layout w).toNat = lenNumber layout w.toNat := by
  have hw := w.isLt
  cases layout <;> simp only [unpackLen, lenNumber, BitVec.extractLsb'_toNat, Nat.shiftRight_eq_div_pow] <;> omega

@[simp] theorem unpackOfs_packWord (layout : Layout) (ofs : WinPos) (len : LenField) :
    unpackOfs layout (packWord layout ofs len) = ofs := by
  have hofs := ofs.isLt
  have hlen := len.isLt
  apply BitVec.eq_of_toNat_eq
  rw [unpackOfs_toNat, packWord_toNat]
  cases layout <;> simp only [ofsNumber, packedNumber] <;> omega

@[simp] theorem unpackLen_packWord (layout : Layout) (ofs : WinPos) (len : LenField) :
    unpackLen layout (packWord layout ofs len) = len := by
  have hofs := ofs.isLt
  have hlen := len.isLt
  apply BitVec.eq_of_toNat_eq
  rw [unpackLen_toNat, packWord_toNat]
  cases layout <;> simp only [lenNumber, packedNumber] <;> omega

@[simp] theorem packWord_unpack (layout : Layout) (w : MatchWord) :
    packWord layout (unpackOfs layout w) (unpackLen layout w) = w := by
  apply BitVec.eq_of_toNat_eq
  rw [packWord_toNat, unpackOfs_toNat, unpackLen_toNat]
  cases layout <;> simp only [packedNumber, ofsNumber, lenNumber] <;> omega

/-! ### The two bytes of a match word (30_encoding.md R95) -/

theorem lowByte_eq (w : MatchWord) : w.extractLsb' 0 8 = BitVec.ofNat 8 (w.toNat % 256) := by
  apply BitVec.eq_of_toNat_eq
  simp [BitVec.extractLsb'_toNat]

theorem highByte_eq (w : MatchWord) : w.extractLsb' 8 8 = BitVec.ofNat 8 (w.toNat / 256) := by
  apply BitVec.eq_of_toNat_eq
  simp [BitVec.extractLsb'_toNat, Nat.shiftRight_eq_div_pow]

@[simp] theorem wordBytes_matchWord (endian : Endian) (first second : Byte) :
    wordBytes endian (matchWord endian first second) = [first, second] := by
  cases endian <;> simp only [wordBytes, matchWord, BitVec.extractLsb'_append_eq_left, BitVec.extractLsb'_append_eq_right]

theorem exists_matchWord_eq (endian : Endian) (w : MatchWord) : ∃ first second, matchWord endian first second = w := by
  cases endian with
  | le => exact ⟨w.extractLsb' 0 8, w.extractLsb' 8 8, BitVec.extractLsb'_append_extractLsb'⟩
  | be => exact ⟨w.extractLsb' 8 8, w.extractLsb' 0 8, BitVec.extractLsb'_append_extractLsb'⟩

/-- What PACK writes, read as a match word, is the packed word (R95, R98). -/
theorem pack_bytes (layout : Layout) (endian : Endian) (ofs : WinPos) (len : LenField) : ∃ first second,
    pack layout endian ofs len = [first, second] ∧ matchWord endian first second = packWord layout ofs len := by
  obtain ⟨first, second, h⟩ := exists_matchWord_eq endian (packWord layout ofs len)
  exact ⟨first, second, by rw [pack, ← h, wordBytes_matchWord], h⟩

theorem pack_unpack (layout : Layout) (endian : Endian) (first second : Byte) :
    pack layout endian (unpackOfs layout (matchWord endian first second)) (unpackLen layout (matchWord endian first second))
      = [first, second] := by
  rw [pack, packWord_unpack, wordBytes_matchWord]

/-- Settles O1: the word is its number, and the two layers, fields to word and word to bytes, are each inverted. -/
theorem packUnpackAreInverse : Obligations.PackUnpackAreInverse := by
  refine ⟨fun ofs len => ⟨packWord_toNat .hh ofs len, packWord_toNat .hl ofs len, packWord_toNat .lh ofs len,
    packWord_toNat .ll ofs len⟩, fun w => ?_, fun layout endian ofs len => ?_, pack_unpack⟩
  · simp only [wordBytes, lowByte_eq, highByte_eq, and_self]
  · obtain ⟨first, second, hpack, hword⟩ := pack_bytes layout endian ofs len
    exact ⟨first, second, hpack, by rw [hword, unpackOfs_packWord], by rw [hword, unpackLen_packWord]⟩

/-! ### The symbols of a stream (30_encoding.md R96, R100, R101) -/

/-- Every symbol is a control byte, a literal, a reference of one of the dialects or the terminator. -/
theorem symbol_eq_ctrl_or_lit_or_ref_or_eos (i : Instr) :
    (∃ f, i = .ctrl f) ∨ (∃ b, i = .lit b) ∨ (∃ layout endian ofs len, i = Instr.ref layout endian ofs len)
      ∨ i = .eos := by
  cases i with
  | ctrl f => exact .inl ⟨f, rfl⟩
  | lit b => exact .inr (.inl ⟨b, rfl⟩)
  | eos => exact .inr (.inr (.inr rfl))
  | refHHLE ofs len => exact .inr (.inr (.inl ⟨.hh, .le, ofs, len, rfl⟩))
  | refHHBE ofs len => exact .inr (.inr (.inl ⟨.hh, .be, ofs, len, rfl⟩))
  | refHLLE ofs len => exact .inr (.inr (.inl ⟨.hl, .le, ofs, len, rfl⟩))
  | refHLBE ofs len => exact .inr (.inr (.inl ⟨.hl, .be, ofs, len, rfl⟩))
  | refLHLE ofs len => exact .inr (.inr (.inl ⟨.lh, .le, ofs, len, rfl⟩))
  | refLHBE ofs len => exact .inr (.inr (.inl ⟨.lh, .be, ofs, len, rfl⟩))
  | refLLLE ofs len => exact .inr (.inr (.inl ⟨.ll, .le, ofs, len, rfl⟩))
  | refLLBE ofs len => exact .inr (.inr (.inl ⟨.ll, .be, ofs, len, rfl⟩))

theorem wf_ref (cfg : Configuration) (layout : Layout) (endian : Endian) (ofs : WinPos) (len : LenField) :
    (Instr.ref layout endian ofs len).wf cfg = refWf cfg layout endian ofs len := by
  cases layout <;> cases endian <;> rfl

theorem selector_ref (layout : Layout) (endian : Endian) (ofs : WinPos) (len : LenField) :
    (Instr.ref layout endian ofs len).selector = .reference := by
  cases layout <;> cases endian <;> rfl

theorem encode_ref (layout : Layout) (endian : Endian) (ofs : WinPos) (len : LenField) :
    encode (Instr.ref layout endian ofs len) = pack layout endian ofs len := by
  cases layout <;> cases endian <;> rfl

/-- In every dialect the terminator's bytes are those of a reference with both fields 0 (R100). -/
theorem pack_zero (layout : Layout) (endian : Endian) : pack layout endian 0 0 = [0x00, 0x00] := by
  cases layout <;> cases endian <;> decide

theorem refWf_iff {cfg : Configuration} {layout : Layout} {endian : Endian} {ofs : WinPos} {len : LenField} :
    refWf cfg layout endian ofs len = true ↔ cfg.matchFieldLayout = layout ∧ cfg.matchFieldEndianness = endian
      ∧ ¬ (cfg.eosMode = .nullref ∧ ofs = 0 ∧ len = 0) := by
  simp only [refWf, Bool.and_eq_true, Bool.not_eq_true', Bool.and_eq_false_iff, decide_eq_true_iff, decide_eq_false_iff_not]
  tauto

/-! ### The symbol of a reference slot (30_encoding.md R97, R100) -/

section
variable (cfg : Configuration) (ofs : WinPos) (len : LenField)

theorem referenceSymbol_wf : (referenceSymbol cfg ofs len).wf cfg = true := by
  unfold referenceSymbol
  split
  · next h => exact decide_eq_true h.1
  · next h => rw [wf_ref, refWf_iff]; exact ⟨rfl, rfl, h⟩

theorem referenceSymbol_selector : (referenceSymbol cfg ofs len).selector = .reference := by
  unfold referenceSymbol
  split
  · rfl
  · exact selector_ref _ _ _ _

theorem encode_referenceSymbol :
    encode (referenceSymbol cfg ofs len) = pack cfg.matchFieldLayout cfg.matchFieldEndianness ofs len := by
  unfold referenceSymbol
  split
  · next h => rw [h.2.1, h.2.2, pack_zero]; rfl
  · exact encode_ref _ _ _ _

/-- A reference slot's bytes decode to the symbol of the fields packed in them. -/
theorem decode_pack (rest : List Byte) :
    decode cfg .reference (pack cfg.matchFieldLayout cfg.matchFieldEndianness ofs len ++ rest)
      = .symbol (referenceSymbol cfg ofs len) rest := by
  obtain ⟨first, second, hpack, hword⟩ := pack_bytes cfg.matchFieldLayout cfg.matchFieldEndianness ofs len
  rw [hpack]
  simp only [decode, List.cons_append, List.nil_append, hword, unpackOfs_packWord, unpackLen_packWord]

end

/-- The symbols of a Configuration's stream: control bytes, literals, and what its reference slots can hold. -/
theorem symbol_cases_of_wf {cfg : Configuration} {i : Instr} (h : i.wf cfg = true) :
    (∃ f, i = .ctrl f) ∨ (∃ b, i = .lit b) ∨ ∃ ofs len, i = referenceSymbol cfg ofs len := by
  obtain hctrl | hlit | ⟨layout, endian, ofs, len, rfl⟩ | rfl := symbol_eq_ctrl_or_lit_or_ref_or_eos i
  · exact .inl hctrl
  · exact .inr (.inl hlit)
  · rw [wf_ref, refWf_iff] at h
    obtain ⟨rfl, rfl, hne⟩ := h
    exact .inr (.inr ⟨ofs, len, (if_neg hne).symm⟩)
  · exact .inr (.inr ⟨0, 0, (if_pos ⟨of_decide_eq_true h, rfl, rfl⟩).symm⟩)

/-! ### Decode and encode -/

theorem decode_encode {cfg : Configuration} {i : Instr} (h : i.wf cfg = true) (rest : List Byte) :
    decode cfg i.selector (encode i ++ rest) = .symbol i rest := by
  obtain ⟨f, rfl⟩ | ⟨b, rfl⟩ | ⟨ofs, len, rfl⟩ := symbol_cases_of_wf h
  · rfl
  · rfl
  · rw [referenceSymbol_selector, encode_referenceSymbol, decode_pack]

theorem encode_of_decode {cfg : Configuration} {sel : Selector} {bytes rest : List Byte} {i : Instr}
    (h : decode cfg sel bytes = .symbol i rest) : i.wf cfg = true ∧ i.selector = sel ∧ encode i ++ rest = bytes := by
  obtain ⟨f, rfl, rfl, rfl⟩ | ⟨b, rfl, rfl, rfl⟩ | ⟨first, second, rfl, rfl, rfl⟩ := decode_symbol h
  · exact ⟨rfl, rfl, rfl⟩
  · exact ⟨rfl, rfl, rfl⟩
  · refine ⟨referenceSymbol_wf _ _ _, referenceSymbol_selector _ _ _, ?_⟩
    rw [encode_referenceSymbol, pack_unpack]
    rfl

/-- Settles O2: a reference slot holds the symbol of its two fields, and packing and unpacking the fields are inverse. -/
theorem decodeEncodeRoundTrip : Obligations.DecodeEncodeRoundTrip :=
  ⟨fun _ _ rest h => decode_encode h rest, fun _ _ _ _ _ h => encode_of_decode h⟩

/-- Settles O3: the decoder's one rejection is its last case, which no long enough byte sequence reaches. -/
theorem decodeRejectsOnlyShortInput : Obligations.DecodeRejectsOnlyShortInput := by
  intro cfg sel bytes
  cases sel with
  | control => cases bytes <;> simp [decode]
  | literal => cases bytes <;> simp [decode]
  | reference =>
    match bytes with
    | [] => simp [decode]
    | [_] => simp [decode]
    | _ :: _ :: _ => simp [decode]

/-- Settles O4, by running the decoder on each of the words. -/
theorem writtenOutWordsDecode : Obligations.WrittenOutWordsDecode := by
  unfold Obligations.WrittenOutWordsDecode
  decide

/-! ### The flags of a control byte (30_encoding.md R91, R107) -/

theorem nextFlag_eq_slotBit_zero (order : BitOrder) (c : Byte) : nextFlag order c = c.getLsbD (slotBit order 0) := by
  cases order <;> rfl

/-- Taking a flag moves every later slot's flag to the slot before it (R39). -/
theorem shiftCtrl_getLsbD (order : BitOrder) (c : Byte) {j : Nat} (hj : j + 1 < 8) :
    (shiftCtrl order c).getLsbD (slotBit order j) = c.getLsbD (slotBit order (j + 1)) := by
  cases order with
  | lsb => simp [shiftCtrl, slotBit, Nat.add_comm]
  | msb =>
    have hbit : 7 - j - 1 = 7 - (j + 1) := by omega
    have hlt : 7 - j < 8 := by omega
    have hge : ¬ 7 - j < 1 := by omega
    simp only [shiftCtrl, slotBit, BitVec.getLsbD_shiftLeft, hbit, hlt, hge, decide_true, decide_false, Bool.not_false,
      Bool.true_and]

theorem shiftCtrl_iterate_getLsbD (order : BitOrder) (c : Byte) {j k : Nat} (h : j + k < 8) :
    ((shiftCtrl order)^[k] c).getLsbD (slotBit order j) = c.getLsbD (slotBit order (j + k)) := by
  induction k generalizing j with
  | zero => rfl
  | succ k ih =>
    rw [Function.iterate_succ_apply', shiftCtrl_getLsbD order _ (by omega), ih (by omega), Nat.add_right_comm, Nat.add_assoc]

theorem flagBit_getLsbD (order : BitOrder) {k : Nat} (hk : k < 8) (n : Nat) :
    (flagBit order k).getLsbD n = decide (n = slotBit order k) := by
  cases order with
  | lsb =>
    rw [show flagBit .lsb k = BitVec.twoPow 8 k from rfl, BitVec.getLsbD_twoPow]
    simp [hk, slotBit, eq_comm]
  | msb =>
    rw [show flagBit .msb k = BitVec.twoPow 8 7 >>> k from rfl, BitVec.getLsbD_ushiftRight, BitVec.getLsbD_twoPow]
    simp only [slotBit, Nat.reduceLT, decide_true, Bool.true_and]
    exact decide_eq_decide.2 (by omega)

theorem slotBit_inj (order : BitOrder) {j k : Nat} (hj : j < 8) (hk : k < 8) :
    slotBit order j = slotBit order k ↔ j = k := by
  cases order with
  | lsb => exact Iff.rfl
  | msb => simp only [slotBit]; omega

/-- Settles O5: each flag taken brings the next slot's flag to the bit that is read. -/
theorem slotFlagIsItsControlBit : Obligations.SlotFlagIsItsControlBit := by
  refine fun order f k hk => ⟨?_, flagBit_getLsbD order hk⟩
  rw [nextFlag_eq_slotBit_zero, shiftCtrl_iterate_getLsbD order f (by omega), Nat.zero_add]

/-- The flags of codewords in slots from `k` on: a slot before `k` has none. -/
theorem groupFlags_getLsbD (order : BitOrder) {k j : Nat} {codewords : List Instr} (hlen : k + codewords.length ≤ 8)
    (hj : j < 8) : (groupFlags order k codewords).getLsbD (slotBit order j)
      = (decide (k ≤ j) && (codewords[j - k]?.map isLiteral).getD false) := by
  induction codewords generalizing k with
  | nil => simp [groupFlags]
  | cons i rest ih =>
    rw [List.length_cons] at hlen
    have hk : k < 8 := by omega
    have hflag : (if isLiteral i then flagBit order k else 0).getLsbD (slotBit order j)
        = (isLiteral i && decide (j = k)) := by
      cases isLiteral i <;> simp [flagBit_getLsbD order hk, slotBit_inj order hj hk]
    rw [groupFlags, BitVec.getLsbD_or, hflag, ih (by omega)]
    obtain hlt | rfl | hgt := lt_trichotomy j k
    · simp [show ¬ k ≤ j by omega, show ¬ k + 1 ≤ j by omega, hlt.ne]
    · simp
    · obtain ⟨d, rfl⟩ : ∃ d, j = k + d + 1 := ⟨j - k - 1, by omega⟩
      have hsub : k + d + 1 - k = d + 1 := by omega
      have hsub' : k + d + 1 - (k + 1) = d := by omega
      simp [hsub, hsub', show k ≤ k + d + 1 by omega, show k + d + 1 ≠ k by omega]

/-- Settles O6: the case of codewords from slot 0 on. -/
theorem groupFlagsMarkLiterals : Obligations.GroupFlagsMarkLiterals := by
  intro order codewords k hlen hk
  rw [groupFlags_getLsbD order (by omega) hk]
  simp

/-! ### What a symbol leaves alone (30_encoding.md R102; 10_state.md R30, R51) -/

/-- A copy ends its call or writes neither result register. -/
theorem State.copy_ends_or_keepsResults (n : Nat) (s : State) :
    (s.copy n).mode = .idle ∨ (s.copy n).status = s.status ∧ (s.copy n).bytesWritten = s.bytesWritten := by
  induction n generalizing s with
  | zero => exact .inr ⟨rfl, rfl⟩
  | succ n ih =>
    rw [State.copy]
    split
    · exact ih s.copyByte
    · exact .inl rfl

/-- From `s` to `t` at most `OUT`, `WIN`, the working registers of a symbol, the result registers and `MODE` change, the
result registers only with the end of the call. -/
structure State.SymbolFrame (s t : State) : Prop where
  rest : t = { s with
    out := t.out, win := t.win, dec := t.dec, mode := t.mode, status := t.status, bytesWritten := t.bytesWritten }
  flag : t.dec.flag = s.dec.flag
  dstate : t.dec.dstate = s.dec.dstate
  ctrl : t.dec.ctrl = s.dec.ctrl
  bitsLeft : t.dec.bitsLeft = s.dec.bitsLeft
  ends_or_keepsResults : t.mode = .idle ∨ t.status = s.status ∧ t.bytesWritten = s.bytesWritten

theorem State.symbolFrame_literal (b : Byte) (s : State) : s.SymbolFrame (s.literal b) := by
  unfold State.literal
  split
  · exact ⟨rfl, rfl, rfl, rfl, rfl, .inr ⟨rfl, rfl⟩⟩
  · exact ⟨rfl, rfl, rfl, rfl, rfl, .inl rfl⟩

theorem State.symbolFrame_reference (ofs : WinPos) (len : LenField) (s : State) : s.SymbolFrame (s.reference ofs len) := by
  rw [State.reference_eq]
  split
  · exact ⟨rfl, rfl, rfl, rfl, rfl, .inl rfl⟩
  · have hresults := State.copy_ends_or_keepsResults (copyLength len) ((s.loadRef ofs len).setRemaining (copyLength len))
    obtain ⟨_, _, _, _, _, _, _, _, hcopy⟩ :=
      State.copy_frame (copyLength len) ((s.loadRef ofs len).setRemaining (copyLength len))
    rw [hcopy] at hresults ⊢
    exact ⟨rfl, rfl, rfl, rfl, rfl, hresults⟩

theorem State.symbolFrame_eos (s : State) : s.SymbolFrame ((s.loadRef 0 0).finish .ok) :=
  ⟨rfl, rfl, rfl, rfl, rfl, .inl rfl⟩

/-- Every symbol answers: a control byte is loaded, and any other stays in the frame. -/
theorem exec_answers (i : Instr) (s : State) : ∃ t, exec i s = .next t
    ∧ ((∃ f, i = .ctrl f ∧ t = s.loadCtrl f) ∨ s.SymbolFrame t) := by
  obtain ⟨f, rfl⟩ | ⟨b, rfl⟩ | ⟨layout, endian, ofs, len, rfl⟩ | rfl := symbol_eq_ctrl_or_lit_or_ref_or_eos i
  · exact ⟨_, rfl, .inl ⟨f, rfl, rfl⟩⟩
  · exact ⟨_, rfl, .inr (s.symbolFrame_literal b)⟩
  · exact ⟨_, exec_ref layout endian ofs len s, .inr (s.symbolFrame_reference ofs len)⟩
  · exact ⟨_, rfl, .inr s.symbolFrame_eos⟩

/-- Settles O14: the frame of the symbols, and of CTRL, which alone loads `ctrl` and `bitsLeft`. -/
theorem everySymbolCompletesInItsFrame : Obligations.EverySymbolCompletesInItsFrame := by
  intro i s
  obtain ⟨t, hexec, ⟨f, rfl, rfl⟩ | ⟨hrest, hflag, hdstate, hctrl, hbits, hends⟩⟩ := exec_answers i s
  · exact ⟨_, hexec, rfl, rfl, rfl, fun hne => absurd rfl (hne f), fun _ _ => ⟨rfl, rfl⟩⟩
  · refine ⟨t, hexec, hrest, hflag, hdstate, fun _ => ⟨hctrl, hbits⟩, fun _ hgoesOn => ?_⟩
    obtain hidle | hresults := hends
    · rw [hidle] at hgoesOn; cases hgoesOn
    · exact hresults

end Sys2Proof.Machine

/-! PROOFS. Statements of 41_match_finder.md: what COMPARE finds (CompareFindsCommonPrefix), the links after INIT_TREE, INSERT,
REPLACE and DELETE (InitTreeEmptiesTheTrees, InsertIntoEmptyTree, ReplaceTakesOverLinks, DeleteOfUnattachedIsNothing,
DeleteSplicesReplacement), and the trees that INSERT and DELETE leave (InsertFindsTheLongestMatch, DeleteKeepsTheTrees). -/

namespace Sys2Proof.Machine

/-! ### COMPARE (41_match_finder.md R143) -/

/-- What COMPARE says of the keys at `r` and `p`, read from byte `i` on, by its answer `found`: the bytes before `found.1` are
equal, and `found.2` is the sign of the first difference, or 0 where there is none. -/
structure PrefixFound (win : Memory) (r p : WinPos) (i : Nat) (found : Nat × Ordering) : Prop where
  from_le : i ≤ found.1
  le_F : found.1 ≤ 18
  agree : ∀ k, i ≤ k → k < found.1 → win.byteT (r + BitVec.ofNat 12 k) = win.byteT (p + BitVec.ofNat 12 k)
  eq_of_whole : found.1 = 18 → found.2 = .eq
  sign : found.1 < 18 →
    win.byteT (r + BitVec.ofNat 12 found.1) ≠ win.byteT (p + BitVec.ofNat 12 found.1)
    ∧ ((win.byteT (p + BitVec.ofNat 12 found.1)).toNat < (win.byteT (r + BitVec.ofNat 12 found.1)).toNat → found.2 = .gt)
    ∧ ((win.byteT (r + BitVec.ofNat 12 found.1)).toNat < (win.byteT (p + BitVec.ofNat 12 found.1)).toNat → found.2 = .lt)

/-- Where byte `i` is equal too, what is found from byte `i + 1` on is found from byte `i` on. -/
theorem PrefixFound.cons {win : Memory} {r p : WinPos} {i : Nat} {found : Nat × Ordering}
    (h : PrefixFound win r p (i + 1) found)
    (he : win.byteT (r + BitVec.ofNat 12 i) = win.byteT (p + BitVec.ofNat 12 i)) : PrefixFound win r p i found where
  from_le := (Nat.le_succ i).trans h.from_le
  le_F := h.le_F
  agree k hik hk := by
    obtain rfl | hlt := hik.eq_or_lt
    · exact he
    · exact h.agree k hlt hk
  eq_of_whole := h.eq_of_whole
  sign := h.sign

theorem compareFrom_prefixFound (win : Memory) (r p : WinPos) {n : Nat} (hn : n ≤ 17) :
    PrefixFound win r p (18 - n) (compareFrom win r p n) := by
  induction n with
  | zero =>
    exact ⟨le_rfl, le_rfl, fun k h18 hk => absurd h18 (Nat.not_le.2 hk), fun _ => rfl, fun h => absurd h (Nat.lt_irrefl 18)⟩
  | succ n ih =>
    rw [compareFrom]
    split
    · next he =>
      refine PrefixFound.cons ?_ he
      rw [show 18 - (n + 1) + 1 = 18 - n by omega]
      exact ih (by omega)
    · next he =>
      refine ⟨le_rfl, Nat.sub_le _ _, fun k hik hk => absurd hik (Nat.not_le.2 hk), fun h => ?_, fun _ => ⟨he, ?_, ?_⟩⟩
      · exact absurd (show 18 - (n + 1) = 18 from h) (by omega)
      · exact fun hgt => if_pos hgt
      · exact fun hlt => if_neg (Nat.lt_asymm hlt)

theorem compareKeys_prefixFound (win : Memory) (r p : WinPos) : PrefixFound win r p 1 (compareKeys win r p) :=
  compareFrom_prefixFound win r p le_rfl

/-- Settles O42: it is what COMPARE finds from byte 1 on. -/
theorem compareFindsCommonPrefix : Obligations.CompareFindsCommonPrefix := by
  intro win r p
  obtain ⟨hfrom, hle, hagree, hwhole, hsign⟩ := compareKeys_prefixFound win r p
  exact ⟨hfrom, hle, hagree, hwhole, hsign⟩

/-! ### The Match Record of any trees (41_match_finder.md R146, R150) -/

/-- The Match Record: `matchPosition` and `matchLength`. -/
def MatchFinder.record (m : MatchFinder) : WinPos × BitVec 5 :=
  (m.matchPosition, m.matchLength)

section
variable {m n : MatchFinder}

theorem MatchFinder.setLeft_record {x v : TreeIndex} (h : m.setLeft x v = some n) : n.record = m.record := by
  obtain ⟨-, rfl⟩ := MatchFinder.setLeft_some h
  rfl

theorem MatchFinder.setRight_record {x v : TreeIndex} (h : m.setRight x v = some n) : n.record = m.record := by
  obtain ⟨-, rfl⟩ := MatchFinder.setRight_some h
  rfl

theorem MatchFinder.setParent_record {x v : TreeIndex} (h : m.setParent x v = some n) : n.record = m.record := by
  obtain ⟨-, rfl⟩ := MatchFinder.setParent_some h
  rfl

theorem MatchFinder.relink_record {d p q : TreeIndex} (h : m.relink d p q = some n) : n.record = m.record := by
  simp only [MatchFinder.relink, Option.bind_eq_bind, Option.bind_eq_some_iff] at h
  obtain ⟨rd, -, h⟩ := h
  split at h
  · exact MatchFinder.setRight_record h
  · exact MatchFinder.setLeft_record h

/-- REPLACE writes no part of the Match Record. -/
theorem MatchFinder.replace_record {p r : TreeIndex} (h : m.replace p r = some n) : n.record = m.record := by
  simp only [MatchFinder.replace, Option.bind_eq_bind, Option.bind_eq_some_iff] at h
  obtain ⟨d, -, l, -, c, -, m1, h1, m2, h2, m3, h3, m4, h4, m5, h5, m6, h6, h⟩ := h
  rw [MatchFinder.setParent_record h, MatchFinder.relink_record h6, MatchFinder.setParent_record h5,
    MatchFinder.setParent_record h4, MatchFinder.setRight_record h3, MatchFinder.setLeft_record h2,
    MatchFinder.setParent_record h1]

end

/-- The Match Record names a position whose string agrees with `r`'s in bytes 1 to `matchLength - 1`. -/
def MatchFinder.recordAgrees (win : Memory) (r : WinPos) (m : MatchFinder) : Prop :=
  m.matchLength.toNat ≤ 18
  ∧ ∀ k, 1 ≤ k → k < m.matchLength.toNat →
    win.byteT (r + BitVec.ofNat 12 k) = win.byteT (m.matchPosition + BitVec.ofNat 12 k)

theorem MatchFinder.recordAgrees_of_record_eq {win : Memory} {r : WinPos} {m n : MatchFinder} (e : n.record = m.record)
    (h : m.recordAgrees win r) : n.recordAgrees win r := by
  obtain ⟨hpos, hlen⟩ := Prod.mk.inj e
  rwa [MatchFinder.recordAgrees, hpos, hlen]

/-- The record of what COMPARE found at `q` agrees. -/
theorem MatchFinder.recordAgrees_compareKeys (win : Memory) (r q : WinPos) (m : MatchFinder) :
    { m with matchPosition := q, matchLength := BitVec.ofNat 5 (compareKeys win r q).1 : MatchFinder }.recordAgrees win r := by
  have hfound := compareKeys_prefixFound win r q
  have hlen : (BitVec.ofNat 5 (compareKeys win r q).1).toNat = (compareKeys win r q).1 :=
    Nat.mod_eq_of_lt (hfound.le_F.trans_lt (by decide))
  rw [MatchFinder.recordAgrees, hlen]
  exact ⟨hfound.le_F, hfound.agree⟩

/-- The walk keeps the record in agreement, whatever the links: it keeps the record or takes COMPARE's. -/
theorem MatchFinder.walk_recordAgrees {win : Memory} {r : WinPos} {fuel : Nat} {cmp : Ordering} {p : TreeIndex}
    {m n : MatchFinder} (h : m.walk win r fuel cmp p = some n) (hm : m.recordAgrees win r) : n.recordAgrees win r := by
  induction fuel generalizing m cmp p with
  | zero => cases h
  | succ fuel ih =>
    rw [MatchFinder.walk_succ] at h
    obtain ⟨q, -, h⟩ := Option.bind_eq_some_iff.1 h
    split at h
    · -- `r` is linked in
      obtain ⟨m1, h1, h⟩ := Option.bind_eq_some_iff.1 h
      refine MatchFinder.recordAgrees_of_record_eq ((MatchFinder.setParent_record h).trans ?_) hm
      split at h1
      · exact MatchFinder.setLeft_record h1
      · exact MatchFinder.setRight_record h1
    · split at h
      · split at h
        · -- a longer match is recorded
          have hrecord := MatchFinder.recordAgrees_compareKeys win r (posOf q) m
          split at h
          · exact MatchFinder.recordAgrees_of_record_eq (MatchFinder.replace_record h) hrecord
          · exact ih h hrecord
        · exact ih h hm
      · cases h

/-- After INSERT the record agrees, whatever the links. -/
theorem MatchFinder.insert_recordAgrees {win : Memory} {r : WinPos} {m n : MatchFinder} (h : m.insert win r = some n) :
    n.recordAgrees win r := by
  obtain ⟨fuel, -, e⟩ := MatchFinder.insert_eq win r m
  rw [e] at h
  exact MatchFinder.walk_recordAgrees h ⟨Nat.zero_le _, fun k _ hk => absurd hk (Nat.not_lt_zero k)⟩

/-! ### INSERT on trees that keep R47 (41_match_finder.md R144 to R146, R150) -/

section
variable {win : Memory} {m m' : MatchFinder} {tree : Byte → SearchTree} {r : WinPos}

/-- After INSERT of `r` into the forest, the attached positions but `r` are those before, without the node that the record names
where its match is `F` bytes long (R145). -/
theorem MatchFinder.forest.attached_inserted (h : m.forest win tree) (hr : ¬ m.attached r) {best : Nat × WinPos}
    (hbest : (tree (win.byteT r)).bestMatch win r (0, m.matchPosition) = best)
    (h' : m'.forest win (Function.update tree (win.byteT r) ((tree (win.byteT r)).inserted win r))) {p : WinPos}
    (hp : p ≠ r) : m'.attached p ↔ m.attached p ∧ ¬ (best.1 = 18 ∧ p = best.2) := by
  subst hbest
  obtain ⟨-, hnodup, hfirst, -⟩ := h.1 (win.byteT r)
  rw [h'.attached_iff, h.attached_iff]
  by_cases hc : win.byteT p = win.byteT r
  · -- the tree of `r`'s first byte
    rw [hc, Function.update_self]
    have hevicts {z : WinPos} (hz : z ∈ (tree (win.byteT r)).nodes) :=
      SearchTree.inserted_evicts (best := (0, m.matchPosition)) (Nat.zero_lt_succ 17) hnodup
        (fun hmem => hr (h.attached hmem)) hfirst hz
    constructor
    · intro hins
      have hmem := (SearchTree.mem_inserted hins).resolve_left hp
      exact ⟨hmem, (hevicts hmem).1 hins⟩
    · exact fun ⟨hmem, hout⟩ => (hevicts hmem).2 hout
  · -- another tree: the record names a node of `r`'s tree
    rw [Function.update_of_ne hc, iff_self_and]
    rintro - ⟨h18, rfl⟩
    obtain e | ⟨hmem, -⟩ := SearchTree.bestMatch_mem (best := (0, m.matchPosition)) hfirst
    · rw [e] at h18
      cases h18
    · exact hc (hfirst _ hmem)

end

/-- Settles O45: on any trees the walk records only what COMPARE found; on ordered ones its record is the best match of the tree
of `r`'s first byte. -/
theorem insertFindsTheLongestMatch : Obligations.InsertFindsTheLongestMatch := by
  refine ⟨fun win r m m' h => MatchFinder.insert_recordAgrees h, fun win r m htrees hr => ?_⟩
  obtain ⟨tree, h⟩ := MatchFinder.treesOk_iff.1 htrees
  obtain ⟨m', hinsert, hrecord, h'⟩ := h.insert hr
  obtain ⟨-, -, hfirst, hsorted⟩ := h.1 (win.byteT r)
  have hmem := SearchTree.bestMatch_mem (best := (0, m.matchPosition)) hfirst
  have hlongest {z : WinPos} {n : Nat} (hz : z ∈ (tree (win.byteT r)).nodes) :=
    SearchTree.bestMatch_longest (best := (0, m.matchPosition)) (n := n) hsorted hfirst hz
  rw [← hrecord] at hmem hlongest
  refine ⟨m', hinsert, ⟨_, h'⟩, ?_, fun p hp => ?_, fun hnone => ?_, fun p n hp hc hn hag => ?_, fun hne => ?_⟩
  · rw [h'.attached_iff, Function.update_self]
    exact SearchTree.self_mem_inserted win r _
  · rw [h.attached_inserted hr hrecord.symm h' hp, ← BitVec.toNat_inj (x := m'.matchLength)]
    rfl
  · obtain e | ⟨hnode, -⟩ := hmem
    · obtain ⟨hlen, hpos⟩ := Prod.mk.inj e
      exact ⟨BitVec.eq_of_toNat_eq hlen, hpos⟩
    · exact absurd (hfirst _ hnode) (hnone _ (h.attached hnode))
  · exact hlongest (hc ▸ h.2 p hp) hn hag
  · obtain e | ⟨hnode, -, -, hag⟩ := hmem
    · exact absurd (BitVec.eq_of_toNat_eq (Prod.mk.inj e).1) hne
    · exact ⟨h.attached hnode, hag⟩

/-! ### The links after each operation (41_match_finder.md R142, R144, R145, R147) -/

/-- Settles O43: no cell is listed, so each reads `NIL`, and trees without links keep R47. -/
theorem initTreeEmptiesTheTrees : Obligations.InitTreeEmptiesTheTrees := by
  intro m
  exact ⟨fun x => ⟨ramRead_nil x, ramRead_nil x, ramRead_nil x⟩, rfl, rfl, MatchFinder.treesOk_of_empty rfl rfl⟩

/-- INSERT's walk from a root slot with no tree links `r` there. -/
theorem MatchFinder.walk_empty_root {win : Memory} {r : WinPos} {fuel : Nat} {c : Byte} {m : MatchFinder}
    (h : ramRead m.rson (rootSlot c).toNat = Config.NIL) :
    m.walk win r (fuel + 1) .gt (rootSlot c) = some { m with
      rson := ramWrite m.rson (rootSlot c).toNat (nodeOf r)
      dad := ramWrite m.dad r.toNat (rootSlot c) } := by
  have hroot : (rootSlot c).toNat ≤ 4352 := by rw [rootSlot_toNat]; omega
  have hr : (nodeOf r).toNat ≤ 4096 := by rw [nodeOf_toNat]; exact r.isLt.le
  rw [MatchFinder.walk_succ, if_neg (by decide), MatchFinder.right_eq hroot, Option.bind_some, if_pos h, if_neg (by decide),
    MatchFinder.setRight_eq hroot, Option.bind_some, MatchFinder.setParent_eq hr, nodeOf_toNat]

/-- Settles O44: the walk ends at the root slot. -/
theorem insertIntoEmptyTree : Obligations.InsertIntoEmptyTree := by
  intro win r m hempty
  rw [← rootSlot_toNat] at hempty ⊢
  obtain ⟨fuel, -, hinsert : m.insert win r = (m.cleared r).walk win r (fuel + 1) .gt (rootSlot (win.byteT r))⟩ :=
    MatchFinder.insert_eq win r m
  have hroot : ramRead (m.cleared r).rson (rootSlot (win.byteT r)).toNat = Config.NIL := by
    rw [MatchFinder.cleared_rson, if_neg (rootSlot_toNat_ne _ r)]
    exact hempty
  refine ⟨_, hinsert.trans (MatchFinder.walk_empty_root hroot), rfl, rfl, fun x => ?_, m.cleared_lson r, fun x => ?_⟩
  · rw [ramRead_ramWrite, MatchFinder.cleared_rson]
    rfl
  · rw [ramRead_ramWrite]
    exact apply_ite BitVec.toNat _ _ _

/-- Settles O46: each link is that of the last write to it. -/
theorem replaceTakesOverLinks : Obligations.ReplaceTakesOverLinks := by
  intro m p r d l c hp hr _ hdle _ _ hdr hlle hcle _ hlr _ hcr hd hl hc hlink
  have hlr' : l.toNat ≠ r.toNat := mt BitVec.eq_of_toNat_eq hlr
  have hcr' : c.toNat ≠ r.toNat := mt BitVec.eq_of_toNat_eq hcr
  refine ⟨_, MatchFinder.replace_eq hp hr hd hl hc hdle hlle hcle hdr (hlink.imp_right (And.imp_right Nat.le_of_lt)), rfl, rfl,
    fun x => ?_, fun x => ?_, fun x => ?_⟩
  · simp only [ramRead_ramWrite, ite_or]
  · by_cases hside : ramRead m.rson d.toNat = p <;> simp [hside, ramRead_ramWrite]
  · by_cases hside : ramRead m.rson d.toNat = p <;> simp [hside, ramRead_ramWrite]

/-- Settles O47: DELETE's first test. -/
theorem deleteOfUnattachedIsNothing : Obligations.DeleteOfUnattachedIsNothing := by
  intro m p hp hd
  exact MatchFinder.delete_of_unattached hp hd

/-- A node with at most one child `q` is replaced by it, and no link changes yet. -/
theorem MatchFinder.replacement_of_one_child {m : MatchFinder} {p q : TreeIndex}
    (h : ramRead m.rson p.toNat = Config.NIL ∧ ramRead m.lson p.toNat = q
      ∨ ramRead m.rson p.toNat = q ∧ ramRead m.lson p.toNat = Config.NIL) : m.replacement p = some (m, q) := by
  rw [MatchFinder.replacement]
  obtain ⟨hr, hl⟩ | ⟨hr, hl⟩ := h
  · rw [if_pos hr, hl]
  · rw [hr, hl, if_pos rfl]
    split
    · next hq => rw [hq]
    · rfl

/-- Settles O48: DELETE is the choice of the replacement and the relinking of the parent. -/
theorem deleteSplicesReplacement : Obligations.DeleteSplicesReplacement := by
  constructor
  · intro m p d q hp hdle hd0 _ hq _ hd hchild hlink
    obtain ⟨m', hunlink, hpos, hlen, hdad, hlson, hrson⟩ := MatchFinder.unlink_eq
      (right := decide (ramRead m.rson d.toNat = p)) hp.le hq hdle decide_eq_true_iff
      fun h => (hlink.resolve_left (of_decide_eq_false h)).2.le
    refine ⟨m', ?_, hpos, hlen, hdad, fun x => ?_, fun x => ?_⟩
    · rw [MatchFinder.delete_of_attached hp (hd ▸ hd0), MatchFinder.replacement_of_one_child hchild, Option.bind_some, hd]
      exact hunlink
    · simp only [hrson, decide_eq_true_iff, and_comm]
    · simp only [hlson, decide_eq_false_iff_not, ne_eq, and_comm]
  · intro m p d a b hdrawn hnodup hdn hd0 hdle hlink
    obtain ⟨m', hdel, hpos, hlen, hjoin, hout, hkept⟩ := MatchFinder.delete_top_drawn
      (right := decide (ramRead m.rson d.toNat = nodeOf p)) hdrawn hnodup hdn hd0 hdle decide_eq_true_iff
      fun h => (hlink.resolve_left (of_decide_eq_false h)).2
    refine ⟨m', hdel, hpos, hlen, ?_, not_not.1 hout, fun x hx => ⟨hkept.dad x hx, fun h => ?_, fun h => ?_⟩⟩
    · simpa [MatchFinder.childLink] using hjoin
    · exact hkept.rson x hx fun ⟨hside, e⟩ => h ⟨e, of_decide_eq_true hside⟩
    · exact hkept.lson x hx fun ⟨hside, e⟩ => h ⟨e, of_decide_eq_false hside⟩

/-- DELETE leaves the position it names in no tree. -/
theorem MatchFinder.delete_unattaches {m n : MatchFinder} {p : TreeIndex} (h : m.delete p = some n) :
    ramRead n.dad p.toNat = Config.NIL := by
  obtain ⟨hp, rfl⟩ | ⟨d, c, l, mq, m1, m2, -, -, -, -, -, -, -, h⟩ := MatchFinder.delete_cases h
  · rw [MatchFinder.parent] at hp
    split at hp
    · exact Option.some.inj hp
    · cases hp
  · obtain ⟨-, rfl⟩ := MatchFinder.setParent_some h
    rw [ramRead_ramWrite, if_pos rfl]

/-- Settles O49: DELETE's last write, and the forest without the position. -/
theorem deleteKeepsTheTrees : Obligations.DeleteKeepsTheTrees :=
  ⟨fun _ _ _ => MatchFinder.delete_unattaches, fun _ _ p htrees => MatchFinder.delete_treesOk htrees p⟩

end Sys2Proof.Machine

/-! PROOFS. Statements of 42_encoder.md: the codeword that STEP emits (ShortMatchEmitsLiteral, LongMatchEmitsReference), FLUSH with
and without room (FlushAppendsTheGroup, FlushStopsAtCapacity), a byte of SLIDE (SlideMovesOneByte), and the step that takes ENCODE
(EmptyInputEncodesToNothing, EncodeBeginsSeeded). -/

namespace Sys2Proof.Machine

/-! ### STEP (42_encoder.md R164 to R167) -/

/-- EMIT_LIT, where at most THRESHOLD lookahead bytes match (R165). -/
theorem State.encodeStep_of_short {s : State} (h : s.cappedMatch ≤ 2) :
    s.encodeStep = { s with enc := { s.enc with
      codeBuf := (s.enc.codeBuf.write 0
          (s.enc.codeBuf.read 0 ||| flagBit s.cfg.controlBitOrder s.enc.slot.toNat)).write s.enc.codeLen.toNat
          (s.win.byteT s.enc.r)
      codeLen := s.enc.codeLen + 1
      lastMatchLength := 1
      slot := s.enc.slot + 1 } } := by
  obtain ⟨-, e⟩ | ⟨hlong, -⟩ := s.encodeStep_cases
  · exact e
  · exact absurd h hlong.not_ge

/-- EMIT_REF, where more than THRESHOLD lookahead bytes match and the code buffer has room: the symbol's two bytes come after
the pending ones (R167). -/
theorem State.encodeStep_of_long {s : State} (h : 2 < s.cappedMatch) (hroom : s.enc.codeLen.toNat + 2 ≤ 17) :
    ∃ first second, encode (Instr.ref s.cfg.matchFieldLayout s.cfg.matchFieldEndianness s.matchOfs
          (BitVec.ofNat 4 (s.cappedMatch - 3))) = [first, second]
      ∧ s.encodeStep = { s with enc := { s.enc with
          codeBuf := (s.enc.codeBuf.write s.enc.codeLen.toNat first).write (s.enc.codeLen.toNat + 1) second
          codeLen := s.enc.codeLen + 2
          lastMatchLength := BitVec.ofNat 5 s.cappedMatch
          slot := s.enc.slot + 1 } } := by
  obtain ⟨hshort, -⟩ | ⟨-, first, second, hpack, e⟩ := s.encodeStep_cases
  · exact absurd h hshort.not_gt
  · have hnext : (s.enc.codeLen + 1).toNat = s.enc.codeLen.toNat + 1 := by bv_omega
    refine ⟨first, second, (encode_ref _ _ _ _).trans hpack, ?_⟩
    rw [e, hnext, BitVec.add_assoc]
    rfl

/-- Two writes at different addresses: what each wrote is there, and no other byte changed. -/
theorem Memory.read_write_write (m : Memory) {a b : Nat} (h : a ≠ b) (v w : Byte) :
    ((m.write a v).write b w).read a = v ∧ ((m.write a v).write b w).read b = w
      ∧ ∀ x, x ≠ a → x ≠ b → ((m.write a v).write b w).read x = m.read x := by
  refine ⟨?_, Memory.read_write_same _ _ _, fun x ha hb => ?_⟩
  · rw [Memory.read_write_other _ _ h, Memory.read_write_same]
  · rw [Memory.read_write_other _ _ hb, Memory.read_write_other _ _ ha]

/-- Settles O50: the flag is written to cell 0, then the byte to cell `codeLen`, which is another one. -/
theorem shortMatchEmitsLiteral : Obligations.ShortMatchEmitsLiteral := by
  intro s hshort h1 _
  have hcell : 0 ≠ s.enc.codeLen.toNat := by omega
  exact ⟨_, State.encodeStep_of_short hshort, rfl, Memory.read_write_write _ hcell _ _⟩

/-- Settles O51: the symbol's two bytes are written to cells `codeLen` and `codeLen + 1`. -/
theorem longMatchEmitsReference : Obligations.LongMatchEmitsReference := by
  rintro s m rfl hlong _ hroom
  obtain ⟨first, second, hencode, hstep⟩ := State.encodeStep_of_long hlong hroom
  exact ⟨_, first, second, hstep, hencode, rfl, Memory.read_write_write _ (Nat.ne_of_lt (Nat.lt_succ_self _)) _ _⟩

/-! ### FLUSH (42_encoder.md R169, R172) -/

/-- FLUSH of a group that does not fit: the copy of what fits, and the end of the call (R172). -/
theorem State.flush_of_exhausted {s : State} (h0 : s.enc.outCount ≤ s.outCap)
    (h : s.outCap < s.enc.outCount + s.enc.codeLen.toNat) :
    s.flush = (s.flushFrom (s.outCap - s.enc.outCount) 0).finish .outputExhausted := by
  rw [State.flush, State.flushFrom_exhausted h0 h]
  rfl

/-- The bytes that a copy of the code buffer's first `n` bytes adds to `OUT`, and those it leaves. -/
theorem State.flushFrom_zero_out {n : Nat} {s : State} (h : s.enc.outCount + n ≤ s.outCap) :
    (∀ k, k < n → (s.flushFrom n 0).out.read (s.enc.outCount + k) = s.enc.codeBuf.read k)
    ∧ ∀ a, a < s.enc.outCount ∨ s.enc.outCount + n ≤ a → (s.flushFrom n 0).out.read a = s.out.read a := by
  refine ⟨fun k hk => ?_, fun a ha => ?_⟩
  · rw [State.flushFrom_out h, if_pos (by omega), Nat.add_sub_cancel_left, Nat.zero_add]
  · rw [State.flushFrom_out h, if_neg (by omega)]

/-- Settles O52: the copy fits whole, and the buffer is emptied after it. -/
theorem flushAppendsTheGroup : Obligations.FlushAppendsTheGroup := by
  intro s hm hfit
  refine ⟨_, State.flush_of_fits hm hfit, ?_, State.flushFrom_zero_out hfit⟩
  conv_lhs => rw [State.flushFrom_fits hfit]
  rfl

/-- Settles O53: of the copy exactly what fits is made, and `finish` reports its count. -/
theorem flushStopsAtCapacity : Obligations.FlushStopsAtCapacity := by
  intro s hm h0 hfull
  have hcount : s.enc.outCount + (s.outCap - s.enc.outCount) = s.outCap := Nat.add_sub_cancel' h0
  obtain ⟨hbytes, hframe⟩ := State.flushFrom_zero_out hcount.le
  rw [hcount] at hframe
  refine ⟨_, State.flush_of_exhausted h0 hfull, ?_, hbytes, hframe⟩
  conv_lhs => rw [State.flushFrom_fits hcount.le, State.finish_encoding (by exact hm), hcount]
  rfl

/-! ### SLIDE (42_encoder.md R168) -/

/-- A byte of SLIDE with input left (R168, R256). -/
theorem State.slideByte_of_input {s : State} {m m' : MatchFinder} {b : Byte} (hdel : s.mf.delete (nodeOf s.enc.s) = some m)
    (hb : s.inBuf[s.enc.ip]? = some b) (hins : m.insert (s.win.write s.enc.s.toNat b) (s.enc.r + 1) = some m') :
    s.slideByte = some { s with
      win := s.win.write s.enc.s.toNat b
      mf := m'
      enc := { s.enc with ip := s.enc.ip + 1, s := s.enc.s + 1, r := s.enc.r + 1, i := s.enc.i + 1 } } := by
  simp only [State.slideByte, hdel, hb, hins, Option.bind_eq_bind, Option.bind_some, Option.pure_def]

/-- A byte of SLIDE with no input left (R168). -/
theorem State.slideByte_of_inputEnd {s : State} {m m' : MatchFinder} (hdel : s.mf.delete (nodeOf s.enc.s) = some m)
    (hend : s.inBuf.length ≤ s.enc.ip)
    (hins : (if s.enc.len - 1 = 0 then some m else m.insert s.win (s.enc.r + 1)) = some m') :
    s.slideByte = some { s with
      mf := m'
      enc := { s.enc with s := s.enc.s + 1, r := s.enc.r + 1, len := s.enc.len - 1, i := s.enc.i + 1 } } := by
  have hb : s.inBuf[s.enc.ip]? = none := List.getElem?_eq_none hend
  by_cases hlast : s.enc.len - 1 = 0
  · rw [if_pos hlast] at hins
    cases hins
    simp only [State.slideByte, hdel, hb, hlast, if_true, Option.bind_eq_bind, Option.bind_some, Option.pure_def]
  · rw [if_neg hlast] at hins
    simp only [State.slideByte, hdel, hb, hins, hlast, if_false, Option.bind_eq_bind, Option.bind_some, Option.pure_def]

/-- Settles O55: after the DELETE, the byte of SLIDE is by whether input is left. -/
theorem slideMovesOneByte : Obligations.SlideMovesOneByte :=
  fun _ _ hdel => ⟨fun _ _ hb hins => State.slideByte_of_input hdel hb hins,
    fun _ hend hins => State.slideByte_of_inputEnd hdel hend hins⟩

/-! ### The head of ENCODE (42_encoder.md R161 to R163; 41_match_finder.md R149) -/

/-- The step that takes ENCODE selects what it addresses and runs the head from the call-start reset. -/
theorem step_encode_of_addresses {s : State} {h : Nat} {inst : Instance} {input output : List Byte} {rest : List Request}
    (ha : s.addresses h inst) (hq : s.requests = .encode h input output :: rest) :
    ∃ u : State, step s = (u.encodeStart input output).encodeHead ∧ u.toInstance = inst ∧ u.sel = h ∧ u.requests = rest := by
  obtain ⟨u, hselect, hinst, hsel, -, hrest, -⟩ := State.select_addresses (s := { s with requests := rest }) ha
  refine ⟨u, ?_, hinst, hsel, hrest⟩
  rw [step_of_addresses ha hq, State.perform, requestEncode, hselect]

/-- Settles O39: LOAD takes no byte, and the head ends the call with the encoder's count 0 (R163). -/
theorem emptyInputEncodesToNothing : Obligations.EmptyInputEncodesToNothing := by
  intro s h inst output rest ha hq
  obtain ⟨u, hstep, -, hsel, -⟩ := step_encode_of_addresses ha hq
  exact ⟨(u.encodeStart [] output).load.finish .ok, hstep, hsel, rfl, rfl, rfl, fun _ _ => read_caller⟩

/-- The positions SEED inserts, nearest to `start` first (R149). -/
def seedPositions (start : WinPos) (n : Nat) : List WinPos :=
  (List.range n).map fun i => start - BitVec.ofNat 12 (i + 1)

/-- INSERT of each position of a list in turn. -/
def MatchFinder.insertAll (win : Memory) (ps : List WinPos) (m : MatchFinder) : Option MatchFinder :=
  ps.foldlM (fun m p => m.insert win p) m

theorem seedPositions_succ (start : WinPos) (n : Nat) :
    seedPositions start (n + 1) = (start - 1) :: seedPositions (start - 1) n := by
  rw [seedPositions, List.range_succ_eq_map, List.map_cons, List.map_map]
  refine congrArg _ (List.map_congr_left fun i _ => ?_)
  rw [Function.comp_apply]
  bv_omega

/-- SEED is INSERT of its positions in turn (R149). -/
theorem MatchFinder.seedFrom_eq_insertAll (win : Memory) (start : WinPos) (n : Nat) (m : MatchFinder) :
    m.seedFrom win n (start - 1) = m.insertAll win (seedPositions start n) := by
  induction n generalizing start m with
  | zero => rfl
  | succ n ih =>
    rw [seedPositions_succ, MatchFinder.seedFrom, MatchFinder.insertAll, List.foldlM_cons]
    cases m.insert win (start - 1) with
    | none => rfl
    | some m1 => exact ih (start - 1) m1

/-- SEED and the INSERT of the first position are INSERT of SEED's positions and of that one in turn (R161). -/
theorem MatchFinder.seed_insert_eq_insertAll (cfg : Configuration) (win : Memory) (m : MatchFinder) :
    (m.seed cfg win).bind (·.insert win cfg.writeStart)
      = m.insertAll win (seedPositions cfg.writeStart (seedCount cfg.prefillMode) ++ [cfg.writeStart]) := by
  rw [MatchFinder.seed, MatchFinder.seedFrom_eq_insertAll, MatchFinder.insertAll, MatchFinder.insertAll, List.foldlM_append]
  simp only [List.foldlM_cons, List.foldlM_nil, Option.bind_eq_bind, Option.pure_def, Option.bind_fun_some]

/-- SEED and the INSERT of the first position, made from empty trees, answer, keep R47, and attach the first position and no
other but SEED's (R149). -/
theorem MatchFinder.seed_insert_attached {m : MatchFinder} (hr : m.rson = []) (hd : m.dad = []) (cfg : Configuration)
    (win : Memory) :
    ∃ m', (m.seed cfg win).bind (·.insert win cfg.writeStart) = some m' ∧ m'.treesOk win ∧ m'.attached cfg.writeStart
      ∧ ∀ p, m'.attached p → p = cfg.writeStart ∨ p ∈ seedPositions cfg.writeStart (seedCount cfg.prefillMode) := by
  have hempty : ∀ p, ¬ m.attached p := fun p h => h (by rw [hd]; rfl)
  have hcount := seedCount_le cfg.prefillMode
  obtain ⟨m1, hseed, h1, hatt1⟩ := MatchFinder.seedFrom_treesOk (n := seedCount cfg.prefillMode) (p := cfg.writeStart - 1)
    (by omega) (MatchFinder.treesOk_of_empty hr hd win) fun i _ => hempty _
  have hseeds : ∀ p, m1.attached p → ∃ i, i < seedCount cfg.prefillMode ∧ p = cfg.writeStart - BitVec.ofNat 12 (i + 1) := by
    intro p hp
    obtain ⟨i, hi, e⟩ := (hatt1 p hp).resolve_right (hempty p)
    exact ⟨i, hi, by bv_omega⟩
  have hfirst : ¬ m1.attached cfg.writeStart := fun h => by
    obtain ⟨i, hi, e⟩ := hseeds _ h
    bv_omega
  obtain ⟨m2, hinsert, h2, hin, hatt2⟩ := MatchFinder.insert_treesOk h1 hfirst
  refine ⟨m2, ?_, h2, hin, fun p hp => (hatt2 p hp).imp_right fun h => ?_⟩
  · rw [MatchFinder.seed, hseed, Option.bind_some, hinsert]
  · obtain ⟨i, hi, rfl⟩ := hseeds p h
    exact List.mem_map.2 ⟨i, List.mem_range.2 hi, rfl⟩

/-- In mode `none` SEED inserts nothing (R149). -/
theorem MatchFinder.seed_of_none {cfg : Configuration} (h : cfg.prefillMode = .none) (win : Memory) (m : MatchFinder) :
    m.seed cfg win = some m := by
  rw [MatchFinder.seed, h]
  rfl

/-- INSERT of one position into empty trees finds no match and attaches that position alone, the scratch cell included. -/
theorem MatchFinder.insert_alone {m m' : MatchFinder} (hr : m.rson = []) (hd : m.dad = []) {win : Memory} {r : WinPos}
    (h : m.insert win r = some m') : m'.matchLength = 0 ∧ ∀ x, ramRead m'.dad x ≠ 4096 ↔ x = r.toNat := by
  obtain ⟨m1, hinsert, hlen, -, -, -, hdad⟩ := insertIntoEmptyTree win r m (by rw [hr]; rfl)
  obtain rfl : m1 = m' := Option.some.inj (hinsert.symm.trans h)
  refine ⟨hlen, fun x => ?_⟩
  have hx := hdad x
  rw [hd, ramRead_nil] at hx
  split at hx <;> bv_omega

/-- The head of an ENCODE of a non-empty input, up to its first codeword turn. -/
theorem State.encodeHead_of_nonempty {s : State} {m : MatchFinder} (h : s.inBuf ≠ [])
    (hm : (s.load.mf.seed s.load.cfg s.load.win).bind (·.insert s.load.win s.load.enc.r) = some m) :
    s.encodeHead = .next { s.load with mf := m } := by
  have hlen : s.load.enc.len ≠ 0 := by
    have hpos := List.length_pos_iff.2 h
    rw [show s.load.enc.len = BitVec.ofNat 5 (s.inBuf.take 18).length from rfl, List.length_take]
    bv_omega
  rw [State.encodeHead]
  simp only [if_neg hlen, hm]

/-- Settles O38: the reset and LOAD are EncodeStartsFromReset, the trees those of SEED and the INSERT of the first position. -/
theorem encodeBeginsSeeded : Obligations.EncodeBeginsSeeded := by
  intro s h inst input output rest ha hne hq start count seeds
  obtain ⟨u, hstep, rfl, hsel, hrest⟩ := step_encode_of_addresses ha hq
  obtain ⟨-, -, -, -, -, -, henc, -, hloaded, hprefilled⟩ := encodeStartsFromReset u input output
  have hseeds : seeds = seedPositions start (seedCount u.cfg.prefillMode) := by
    simp only [seeds, count]
    cases u.cfg.prefillMode <;> rfl
  obtain ⟨m, hm, htrees, hin, honly⟩ := MatchFinder.seed_insert_attached (m := (u.encodeStart input output).load.mf) rfl rfl
    u.cfg (u.encodeStart input output).load.win
  have hall := (MatchFinder.seed_insert_eq_insertAll _ _ _).symm.trans hm
  refine ⟨{ (u.encodeStart input output).load with mf := m }, hstep.trans (State.encodeHead_of_nonempty hne hm), hsel, rfl, rfl,
    rfl, rfl, hrest, ?_, ?_, ?_, hloaded, fun p hp => ⟨fun hmode => ?_, fun f hmode hf => ?_⟩, ?_, htrees, hin, ?_,
    fun hmode => ?_⟩
  · exact congrArg EncoderRegs.ip henc
  · exact (congrArg (·.len.toNat) henc).trans (Nat.mod_eq_of_lt (by omega))
  · exact congrArg EncoderRegs.r henc
  · exact (hprefilled p hp).trans (byteT_prefill_constant hmode u.draws p)
  · exact (hprefilled p hp).trans (byteT_prefill_custom hmode hf u.draws p)
  · rw [hseeds]
    exact hall
  · rw [hseeds]
    exact honly
  · rw [MatchFinder.seed_of_none hmode] at hm
    obtain ⟨hlen, hdad⟩ := MatchFinder.insert_alone rfl rfl hm
    exact ⟨hlen, fun x _ => hdad x⟩

end Sys2Proof.Machine

/-! PROOFS. Statements of 43_decoder.md: the symbols' results and frames (ControlByteLoads, LiteralProducesItsByte,
LiteralStopsOnFullOutput, ReferenceCopies, ReferenceStopsAtCapacity, BackReferenceBeforeStartFails, TerminatorEndsTheCall), the
turn that ends in its symbol or takes a literal (MissingBytesTruncate, LiteralPath), how a call ends
(CallsEndWithTheirStatuses), and the window bytes that no turn reads (DecoderNeverReadsW0). -/

namespace Sys2Proof.Machine

/-! ### The literal (43_decoder.md R184) -/

theorem State.literal_of_room {s : State} (h : s.dec.op < s.outCap) (b : Byte) : s.literal b = (s.skip 1).produce b := if_pos h

theorem State.literal_of_full {s : State} (h : s.outCap ≤ s.dec.op) (b : Byte) : s.literal b = s.finish .outputExhausted :=
  if_neg h.not_gt

/-- Settles O7: CTRL is `State.loadCtrl`, field for field. -/
theorem controlByteLoads : Obligations.ControlByteLoads := fun _ _ => rfl

/-- Settles O8: the byte is written to `OUT` and `WIN` once each. -/
theorem literalProducesItsByte : Obligations.LiteralProducesItsByte := by
  intro b s hroom
  refine ⟨(s.skip 1).produce b, congrArg _ (State.literal_of_room hroom b), rfl, Memory.read_write_same _ _ _,
    fun a ha => Memory.read_write_other _ _ ha, ?_, fun p hp => ?_⟩
  · exact (Memory.byteT_write _ _ _ _).trans (if_pos rfl)
  · exact (Memory.byteT_write _ _ _ _).trans (if_neg hp)

/-- Settles O9: without room the literal is the end of the call. -/
theorem literalStopsOnFullOutput : Obligations.LiteralStopsOnFullOutput := by
  intro b s hm hfull
  rw [exec, execLit, State.literal_of_full hfull.ge, State.finish_decoding hm, hfull]

/-! ### The reference (43_decoder.md R185 to R188) -/

/-- A reference about to be copied: its two bytes are taken in, its length is set. -/
def State.refLoaded (ofs : WinPos) (len : LenField) (s : State) : State :=
  (s.loadRef ofs len).setRemaining (len.toNat + 3)

/-- A reference that BOUNDS lets pass is its copy (R187). -/
theorem State.reference_of_inBounds {ofs : WinPos} {s : State} (h : s.cfg.prefillMode = .none → distance ofs ≤ s.dec.op)
    (len : LenField) : s.reference ofs len = (s.refLoaded ofs len).copy (len.toNat + 3) := by
  rw [State.reference_eq, if_neg fun ⟨hnone, hlt⟩ => (h hnone).not_gt hlt]
  rfl

/-- A reference that BOUNDS stops ends the call (R187). -/
theorem State.reference_of_outOfBounds {ofs : WinPos} {s : State} (hnone : s.cfg.prefillMode = .none)
    (h : s.dec.op < distance ofs) (len : LenField) :
    s.reference ofs len = (s.refLoaded ofs len).finish .badBackReference := by
  rw [State.reference_eq, if_pos ⟨hnone, h⟩]
  rfl

/-- The bytes of a copy that fits, in `OUT` and `WIN`, and those it leaves. -/
theorem State.copy_bytes {n : Nat} {s : State} (h : s.dec.op + n ≤ s.outCap) (hn : n ≤ 4096) :
    (∀ j, j < n →
        (s.copy n).out.read (s.dec.op + j)
            = (if j < distance s.dec.ofs then s.win.byteT (s.dec.cur + BitVec.ofNat 12 j - s.dec.ofs)
              else (s.copy n).out.read (s.dec.op + (j - distance s.dec.ofs)))
          ∧ (s.copy n).win.byteT (s.dec.cur + BitVec.ofNat 12 j) = (s.copy n).out.read (s.dec.op + j))
    ∧ (∀ a, a < s.dec.op ∨ s.dec.op + n ≤ a → (s.copy n).out.read a = s.out.read a)
    ∧ ∀ p, (∀ j, j < n → p ≠ s.dec.cur + BitVec.ofNat 12 j) → (s.copy n).win.byteT p = s.win.byteT p :=
  ⟨fun _ hj => ⟨State.copy_source h hn hj, State.copy_win_eq_out h hn hj⟩, fun _ ha => State.copy_out_frame h ha,
    fun _ hp => State.copy_win_frame h hp⟩

/-- Settles O10: in bounds the reference is its copy, and the copy fits. -/
theorem referenceCopies : Obligations.ReferenceCopies := by
  intro layout endian ofs len s hbounds hfit
  have hu : (s.refLoaded ofs len).dec.op + (len.toNat + 3) ≤ (s.refLoaded ofs len).outCap := hfit
  refine ⟨_, exec_ref layout endian ofs len s, ?_⟩
  rw [State.reference_of_inBounds hbounds]
  refine ⟨?_, State.copy_bytes hu (by omega)⟩
  conv_lhs => rw [State.copy_fields hu, State.refLoaded, State.setRemaining_dec_remaining, BitVec.sub_self]
  rfl

/-- Settles O11: of the copy exactly what fits is made, and `finish` reports its count. -/
theorem referenceStopsAtCapacity : Obligations.ReferenceStopsAtCapacity := by
  intro layout endian ofs len s hm hbounds h0 hfull
  have hcount : s.dec.op + (s.outCap - s.dec.op) = s.outCap := Nat.add_sub_cancel' h0
  have hu : (s.refLoaded ofs len).dec.op + (s.outCap - s.dec.op) ≤ (s.refLoaded ofs len).outCap := hcount.le
  have hleft : BitVec.ofNat 5 (len.toNat + 3) - BitVec.ofNat 5 (s.outCap - s.dec.op)
      = BitVec.ofNat 5 (s.dec.op + (len.toNat + 3) - s.outCap) := by
    refine BitVec.eq_of_toNat_eq ?_
    simp only [BitVec.toNat_sub, BitVec.toNat_ofNat]
    omega
  obtain ⟨hbytes, hout, hwin⟩ := State.copy_bytes hu (by omega)
  refine ⟨((s.refLoaded ofs len).copy (s.outCap - s.dec.op)).finish .outputExhausted, ?_, ?_, hbytes,
    fun a ha => hout a (ha.imp_right hcount.le.trans), hwin⟩
  · rw [exec_ref, State.reference_of_inBounds hbounds]
    exact congrArg _ (State.copy_exhausted h0 hfull)
  · conv_lhs => rw [State.copy_fields hu, State.finish_decoding (by exact hm), State.refLoaded,
      State.setRemaining_dec_remaining, hleft]
    simp only [State.setRemaining_dec_op, State.loadRef_dec_op, hcount]
    rfl

/-- Settles O12: BOUNDS ends the call before the copy. -/
theorem backReferenceBeforeStartFails : Obligations.BackReferenceBeforeStartFails := by
  intro layout endian ofs len s hm hnone hlt
  rw [exec_ref, State.reference_of_outOfBounds hnone hlt, State.finish_decoding (by exact hm)]
  rfl

/-- Settles O13: the two zero fields are taken in, then the call ends. -/
theorem terminatorEndsTheCall : Obligations.TerminatorEndsTheCall := by
  intro s hm
  rw [exec, execEos, State.finish_decoding (by exact hm)]
  rfl

/-! ### The turn that ends in its symbol or takes a literal (43_decoder.md R184, R189) -/

/-- The state in which a turn processes its symbol is one of the same call. -/
theorem State.reachesSymbol.mode {s u : State} (h : s.reachesSymbol u) : u.mode = .decoding := by
  rw [(State.reachesSymbol_frame h).1]
  exact h.1

/-- A symbol whose bytes are missing ends the call (R189): all its other outcomes take them. -/
theorem State.processSymbol_of_missing {s : State} (h : s.inBuf.length - s.dec.ip < (if s.dec.flag then 1 else 2)) :
    s.processSymbol = .next (s.finish .truncatedInput) := by
  rw [← List.length_drop] at h
  obtain ⟨-, he⟩ | ⟨b, rest, hflag, hbytes, -⟩ | ⟨first, second, rest, hflag, hbytes, -⟩ := s.processSymbol_cases
  · exact he
  · simp [hflag, hbytes] at h
  · simp [hflag, hbytes] at h

/-- Settles O18: the turn processes its symbol, and the symbol's bytes are missing. -/
theorem missingBytesTruncate : Obligations.MissingBytesTruncate := by
  intro s u hr hmissing
  rw [step_of_reachesSymbol hr, State.processSymbol_of_missing hmissing, State.finish_decoding hr.mode]

/-- A step whose turn processes a literal with its byte there is that literal. -/
theorem step_of_literal {s u : State} (hr : s.reachesSymbol u) (hflag : u.dec.flag = true) {b : Byte}
    (hb : u.inBuf[u.dec.ip]? = some b) : step s = .next (u.literal b).symbolDone := by
  obtain ⟨hi, rfl⟩ := List.getElem?_eq_some_iff.1 hb
  refine stepRunsTheDecodedSymbol.1 s u _ (.lit u.inBuf[u.dec.ip]) (u.inBuf.drop (u.dec.ip + 1)) hr ?_ rfl
  rw [hflag, List.drop_eq_getElem_cons hi]
  rfl

/-- Settles O19: first the missing byte, then the literal without room, then the literal. -/
theorem literalPath : Obligations.LiteralPath := by
  refine fun s u hr hflag _ _ => ⟨fun hend => ?_, fun b hb hfull => ?_, fun b hb hroom => ?_⟩
  · exact missingBytesTruncate s u hr (by simp [hflag, hend])
  · rw [step_of_literal hr hflag hb, State.literal_of_full hfull.ge, State.finish_decoding hr.mode]
    rfl
  · rw [step_of_literal hr hflag hb, State.literal_of_room hroom, State.symbolDone, if_pos (by exact hr.mode)]
    rfl

/-! ### How a call ends (45_command_interface.md R219, R220; 60_exceptions.md R227, R228) -/

/-- `s` is no ended DECODE, or one that ended with a status of a DECODE under the Configuration `cfg` and the capacity `cap`,
and with its count of bytes written. -/
def State.decodeEnded (cfg : Configuration) (cap : Nat) (s : State) : Prop :=
  s.mode = .idle → s.bytesWritten = s.dec.op
    ∧ (s.status = .ok ∨ s.status = .truncatedInput ∨ (s.status = .outputExhausted ∧ s.bytesWritten = cap)
      ∨ (s.status = .badBackReference ∧ cfg.prefillMode = .none))

theorem State.decodeEnded_finish {s : State} (hm : s.mode = .decoding) {st : Status} {cfg : Configuration} {cap : Nat}
    (h : st = .ok ∨ st = .truncatedInput ∨ (st = .outputExhausted ∧ s.dec.op = cap)
      ∨ (st = .badBackReference ∧ cfg.prefillMode = .none)) : (s.finish st).decodeEnded cfg cap := by
  rw [State.finish_decoding hm]
  exact fun _ => ⟨rfl, h⟩

theorem State.decodeEnded_of_decoding {s : State} (hm : s.mode = .decoding) (cfg : Configuration) (cap : Nat) :
    s.decodeEnded cfg cap := fun hidle => by rw [hm] at hidle; cases hidle

theorem State.decodeEnded.symbolDone {s : State} {cfg : Configuration} {cap : Nat} (h : s.decodeEnded cfg cap) :
    s.symbolDone.decodeEnded cfg cap := by
  simpa [State.decodeEnded] using h

/-- A literal ends its call only on a full output (R184). -/
theorem State.decodeEnded_literal {s : State} (hm : s.mode = .decoding) (hop : s.dec.op ≤ s.outCap) (b : Byte) :
    (s.literal b).decodeEnded s.cfg s.outCap := by
  obtain hroom | hfull := hop.lt_or_eq
  · rw [State.literal_of_room hroom]
    exact State.decodeEnded_of_decoding (s := (s.skip 1).produce b) hm _ _
  · rw [State.literal_of_full hfull.ge]
    exact State.decodeEnded_finish hm (.inr (.inr (.inl ⟨rfl, hfull⟩)))

/-- A copy ends its call only on a full output (R188). -/
theorem State.decodeEnded_copy {n : Nat} {s : State} (hm : s.mode = .decoding) (hop : s.dec.op ≤ s.outCap) :
    (s.copy n).decodeEnded s.cfg s.outCap := by
  induction n generalizing s with
  | zero => exact State.decodeEnded_of_decoding hm _ _
  | succ n ih =>
    rw [State.copy]
    split
    · next hroom => exact ih (s := s.copyByte) hm hroom
    · next hfull => exact State.decodeEnded_finish hm (.inr (.inr (.inl ⟨rfl, hop.antisymm (not_lt.1 hfull)⟩)))

/-- A reference ends its call only where BOUNDS stops it, in mode `none`, or on a full output (R187, R188). -/
theorem State.decodeEnded_reference {s : State} (hm : s.mode = .decoding) (hop : s.dec.op ≤ s.outCap) (ofs : WinPos)
    (len : LenField) : (s.reference ofs len).decodeEnded s.cfg s.outCap := by
  by_cases hbad : s.cfg.prefillMode = .none ∧ s.dec.op < distance ofs
  · rw [State.reference_of_outOfBounds hbad.1 hbad.2]
    exact State.decodeEnded_finish hm (.inr (.inr (.inr ⟨rfl, hbad.1⟩)))
  · rw [State.reference_of_inBounds fun hnone => not_lt.1 fun hlt => hbad ⟨hnone, hlt⟩]
    exact State.decodeEnded_copy (s := s.refLoaded ofs len) hm hop

theorem State.decodeEnded_processSymbol {s t : State} (hm : s.mode = .decoding) (hop : s.dec.op ≤ s.outCap)
    (h : s.processSymbol = .next t) : t.decodeEnded s.cfg s.outCap := by
  obtain ⟨-, he⟩ | ⟨b, -, -, -, he⟩ | ⟨_, _, _, -, -, ⟨-, -, -, he⟩ | ⟨-, he⟩⟩ := s.processSymbol_cases <;>
    rw [he] at h <;> cases h
  · exact State.decodeEnded_finish hm (.inr (.inl rfl))
  · exact (State.decodeEnded_literal hm hop b).symbolDone
  · exact (State.decodeEnded_finish (s := s.loadRef 0 0) hm (.inl rfl)).symbolDone
  · exact (State.decodeEnded_reference hm hop _ _).symbolDone

/-- A step that ends a DECODE ends it with a status of its own and its count of bytes (R219, R227, R228). -/
theorem step_decodeEnded {s t : State} (hm : s.mode = .decoding) (hop : s.dec.op ≤ s.outCap) (h : step s = .next t) :
    t.decodeEnded s.cfg s.outCap := by
  obtain ⟨-, -, he⟩ | ⟨u, hr, he⟩ := step_decoding_cases hm
  · rw [he] at h
    cases h
    exact State.decodeEnded_finish hm (.inl rfl)
  · have hframe := (State.reachesSymbol_frame hr).1
    have hend := State.decodeEnded_processSymbol hr.mode (t := t) (by rw [hframe]; exact hop) (he.symm.trans h)
    rw [hframe] at hend
    exact hend

/-- `s` is an ENCODE that goes on, or one that ended `OutputExhausted` with the capacity `cap` written. -/
def State.runsOrExhausted (cap : Nat) (s : State) : Prop :=
  s.mode = .encoding ∨ (s.status = .outputExhausted ∧ s.bytesWritten = cap ∧ s.enc.outCount = cap)

/-- FLUSH goes on with its call or stops at the capacity (R169, R172). -/
theorem State.runsOrExhausted_flush {s : State} (hm : s.mode = .encoding) (hout : s.enc.outCount ≤ s.outCap) :
    s.flush.runsOrExhausted s.outCap := by
  by_cases hfit : s.enc.outCount + s.enc.codeLen.toNat ≤ s.outCap
  · exact .inl (State.flush_mode_of_fits hm hfit)
  · obtain ⟨t, hflush, ht, -⟩ := flushStopsAtCapacity s hm hout (not_le.1 hfit)
    rw [hflush, ht]
    exact .inr ⟨rfl, rfl, rfl⟩

theorem State.runsOrExhausted_coded {s : State} (hm : s.mode = .encoding) (hout : s.enc.outCount ≤ s.outCap) :
    s.coded.runsOrExhausted s.outCap := by
  have hstep : s.encodeStep.mode = .encoding := s.encodeStep_mode.trans hm
  rw [← s.encodeStep_outCount, ← s.encodeStep_outCap] at hout
  rw [State.coded, ← s.encodeStep_outCap]
  split
  · exact State.runsOrExhausted_flush hstep hout
  · exact .inl hstep

theorem State.runsOrExhausted_closed {s : State} (hm : s.mode = .encoding) (hout : s.enc.outCount ≤ s.outCap) :
    s.closed.runsOrExhausted s.outCap := by
  have hclosing : s.closing.mode = .encoding := s.closing_mode.trans hm
  rw [← s.closing_outCount, ← s.closing_outCap] at hout
  rw [State.closed, ← s.closing_outCap]
  split
  · exact State.runsOrExhausted_flush hclosing hout
  · exact .inl hclosing

/-- A closing that answers ends a call that goes on after the last FLUSH, and leaves one that the FLUSH has ended (R161). -/
theorem State.encodeClose_next {s t : State} (h : s.encodeClose = .next t) :
    t = if s.closed.mode = .encoding then s.closed.finish .ok else s.closed := by
  by_cases hroom : s.codeRoom = true
  · rw [State.encodeClose_of_codeRoom hroom] at h
    cases h
    rfl
  · rw [State.encodeClose, if_neg hroom] at h
    cases h

/-- A step that ends an ENCODE ends it `OK` or at the capacity, with its count of bytes (R219, R227). -/
theorem step_encodeEnded {s t : State} (hm : s.mode = .encoding) (hout : s.enc.outCount ≤ s.outCap) (h : step s = .next t)
    (hidle : t.mode = .idle) :
    t.bytesWritten = t.enc.outCount ∧ (t.status = .ok ∨ (t.status = .outputExhausted ∧ t.bytesWritten = s.outCap)) := by
  have hcoded := State.runsOrExhausted_coded hm hout
  have hclosed := State.runsOrExhausted_closed hm hout
  by_cases hl : s.enc.len = 0
  · rw [step_of_encodeClose hm hl] at h
    rw [State.encodeClose_next h]
    split
    · next hgo => rw [State.finish_encoding hgo]; exact ⟨rfl, .inl rfl⟩
    · next hend =>
      obtain ⟨hst, hbw, hcount⟩ := hclosed.resolve_left hend
      exact ⟨hbw.trans hcount.symm, .inr ⟨hst, hbw⟩⟩
  · rw [step_of_encodeTurn hm hl] at h
    obtain ⟨hgo, hslide⟩ | ⟨hend, rfl⟩ := State.encodeTurn_next h
    · rw [State.slide_mode hslide, hgo] at hidle
      cases hidle
    · obtain ⟨hst, hbw, hcount⟩ := hcoded.resolve_left hend
      exact ⟨hbw.trans hcount.symm, .inr ⟨hst, hbw⟩⟩

/-- Settles O40: the decoder's every way to end its call, and the encoder's two, a full output and the closing. -/
theorem callsEndWithTheirStatuses : Obligations.CallsEndWithTheirStatuses :=
  fun _ _ hstep hidle => ⟨fun hm hop => step_decodeEnded hm hop hstep hidle,
    fun hm hout => step_encodeEnded hm hout hstep hidle⟩

/-! ### Two machines with different `W0` (10_state.md R31; 43_decoder.md R187) -/

/-- A reference reaches at least one byte back and at most `N` (R186). -/
theorem distance_range (ofs : WinPos) : 1 ≤ distance ofs ∧ distance ofs ≤ 4096 := by
  unfold distance
  split
  · decide
  · next h0 => bv_omega

/-- The source is `dist` bytes behind the cursor (R186). -/
theorem sourcePos_eq (cur ofs : WinPos) : sourcePos cur ofs = cur - BitVec.ofNat 12 (distance ofs) := by
  unfold sourcePos distance
  split
  · next h0 => rw [h0]; rfl
  · rw [BitVec.ofNat_toNat, BitVec.setWidth_eq]

section
variable {s t : State}

/-- Agreeing machines are one with two windows. -/
theorem agreeButForW0.exists_win (h : agreeButForW0 s t) :
    ∃ w, t = { s with win := w } ∧ agreeButForW0 s { s with win := w } := by
  obtain ⟨heq, hwin⟩ := h
  exact ⟨t.win, heq, rfl, hwin⟩

/-- What two agreeing machines do alike to the decoder's registers other than `op` and `cur`, to the result registers and to
`MODE` leaves them agreeing. -/
theorem agreeButForW0.frame (h : agreeButForW0 s t) (md : Mode) (st : Status) (bw : Nat) {d : DecoderRegs}
    (hop : d.op = s.dec.op) (hcur : d.cur = s.dec.cur) :
    agreeButForW0 { s with mode := md, status := st, bytesWritten := bw, dec := d }
      { t with mode := md, status := st, bytesWritten := bw, dec := d } := by
  obtain ⟨w, rfl, -, hwin⟩ := h.exists_win
  refine ⟨rfl, ?_⟩
  simp only [hop, hcur]
  exact hwin

theorem agreeButForW0.finish (h : agreeButForW0 s t) (st : Status) : agreeButForW0 (s.finish st) (t.finish st) := by
  obtain ⟨w, rfl, hw⟩ := h.exists_win
  exact hw.frame _ _ _ rfl rfl

theorem agreeButForW0.symbolDone (h : agreeButForW0 s t) : agreeButForW0 s.symbolDone t.symbolDone := by
  obtain ⟨w, rfl, hw⟩ := h.exists_win
  by_cases hm : s.mode = .decoding
  · rw [State.symbolDone, State.symbolDone, if_pos hm, if_pos (by exact hm)]
    exact hw.frame _ _ _ rfl rfl
  · rw [State.symbolDone, State.symbolDone, if_neg hm, if_neg (by exact hm)]
    exact hw

/-- Producing the same byte leaves two agreeing machines agreeing: it is the one more byte behind the cursor. -/
theorem agreeButForW0.produce (h : agreeButForW0 s t) (b : Byte) : agreeButForW0 (s.produce b) (t.produce b) := by
  obtain ⟨w, rfl, -, hwin⟩ := h.exists_win
  refine ⟨rfl, fun j h1 hop hj => ?_⟩
  obtain ⟨i, rfl⟩ : ∃ i, j = i + 1 := ⟨j - 1, by omega⟩
  have hback : s.dec.cur + 1 - BitVec.ofNat 12 (i + 1) = s.dec.cur - BitVec.ofNat 12 i := by bv_omega
  rw [State.produce_dec_op] at hop
  rw [State.produce_win, State.produce_win, State.produce_dec_cur, hback, Memory.byteT_write, Memory.byteT_write]
  split
  · rfl
  · next hne =>
    have hi : i ≠ 0 := fun h0 => hne (by subst h0; bv_omega)
    exact hwin i (by omega) (by omega) (by omega)

theorem agreeButForW0.literal (h : agreeButForW0 s t) (b : Byte) : agreeButForW0 (s.literal b) (t.literal b) := by
  obtain ⟨w, rfl, hw⟩ := h.exists_win
  by_cases hroom : s.dec.op < s.outCap
  · rw [State.literal_of_room hroom, State.literal_of_room (by exact hroom)]
    exact agreeButForW0.produce (s := s.skip 1) (hw.frame _ _ _ rfl rfl) b
  · rw [State.literal_of_full (not_lt.1 hroom), State.literal_of_full (by exact not_lt.1 hroom)]
    exact hw.finish _

/-- Two agreeing machines copy the same byte, where its source is a byte of this call. -/
theorem agreeButForW0.copyByte (h : agreeButForW0 s t) (hd : distance s.dec.ofs ≤ s.dec.op) :
    agreeButForW0 s.copyByte t.copyByte := by
  obtain ⟨w, rfl, hw⟩ := h.exists_win
  obtain ⟨h1, hN⟩ := distance_range s.dec.ofs
  have hsource : s.win.byteT (sourcePos s.dec.cur s.dec.ofs) = w.byteT (sourcePos s.dec.cur s.dec.ofs) := by
    rw [sourcePos_eq]
    exact hw.2 _ h1 hd hN
  rw [State.copyByte, State.copyByte]
  simp only [hsource]
  exact (hw.produce _).frame _ _ _ rfl rfl

/-- Two agreeing machines copy alike from within this call's bytes: of the bytes the copy itself produces they agree too. -/
theorem agreeButForW0.copy {n : Nat} (h : agreeButForW0 s t) (hd : distance s.dec.ofs ≤ s.dec.op) :
    agreeButForW0 (s.copy n) (t.copy n) := by
  induction n generalizing s t with
  | zero => exact h
  | succ n ih =>
    obtain ⟨w, rfl, hw⟩ := h.exists_win
    rw [State.copy, State.copy]
    by_cases hroom : s.dec.op < s.outCap
    · rw [if_pos hroom, if_pos (by exact hroom)]
      exact ih (hw.copyByte hd) (hd.trans (Nat.le_succ _))
    · rw [if_neg hroom, if_neg (by exact hroom)]
      exact hw.finish _

/-- In mode `none` BOUNDS lets only references to this call's bytes through (R187). -/
theorem agreeButForW0.reference (h : agreeButForW0 s t) (hnone : s.cfg.prefillMode = .none) (ofs : WinPos) (len : LenField) :
    agreeButForW0 (s.reference ofs len) (t.reference ofs len) := by
  obtain ⟨w, rfl, hw⟩ := h.exists_win
  by_cases hbad : s.dec.op < distance ofs
  · rw [State.reference_of_outOfBounds hnone hbad, State.reference_of_outOfBounds (by exact hnone) (by exact hbad)]
    exact hw.frame _ _ _ rfl rfl
  · have hd := not_lt.1 hbad
    rw [State.reference_of_inBounds fun _ => hd, State.reference_of_inBounds (by exact fun _ => hd)]
    exact agreeButForW0.copy (s := s.refLoaded ofs len) (hw.frame _ _ _ rfl rfl) hd

/-- In mode `none` every symbol does the same on two agreeing machines. -/
theorem agreeButForW0.exec (h : agreeButForW0 s t) (hnone : s.cfg.prefillMode = .none) {s' : State} (i : Instr)
    (hs : exec i s = .next s') : ∃ t', exec i t = .next t' ∧ agreeButForW0 s' t' := by
  obtain ⟨w, rfl, hw⟩ := h.exists_win
  obtain ⟨f, rfl⟩ | ⟨b, rfl⟩ | ⟨layout, endian, ofs, len, rfl⟩ | rfl := symbol_eq_ctrl_or_lit_or_ref_or_eos i
  · cases hs
    exact ⟨_, rfl, hw.frame _ _ _ rfl rfl⟩
  · cases hs
    exact ⟨_, rfl, hw.literal b⟩
  · rw [exec_ref] at hs
    cases hs
    exact ⟨_, exec_ref _ _ _ _ _, hw.reference hnone ofs len⟩
  · cases hs
    exact ⟨_, rfl, hw.frame _ _ _ rfl rfl⟩

/-- Two agreeing machines fetch the same symbol, and process it alike. -/
theorem agreeButForW0.processSymbol (h : agreeButForW0 s t) (hnone : s.cfg.prefillMode = .none) {s' : State}
    (hs : s.processSymbol = .next s') : ∃ t', t.processSymbol = .next t' ∧ agreeButForW0 s' t' := by
  obtain ⟨w, rfl, hw⟩ := h.exists_win
  have hfetch : State.fetchSymbol (State.symbolSelector { s with win := w }) { s with win := w }
      = s.fetchSymbol s.symbolSelector := rfl
  unfold State.processSymbol State.runSymbol at hs ⊢
  rw [hfetch]
  cases hf : s.fetchSymbol s.symbolSelector with
  | ended st =>
    simp only [hf] at hs
    cases hs
    exact ⟨_, rfl, hw.finish st⟩
  | run i =>
    obtain ⟨u, hexec, -⟩ := exec_answers i s
    simp only [hf, hexec] at hs
    cases hs
    obtain ⟨v, hexec', hv⟩ := hw.exec hnone i hexec
    exact ⟨_, by simp only [hexec'], hv.symbolDone⟩

/-- Two agreeing machines process their symbols in agreeing states: the control-bit read has no part in the window. -/
theorem agreeButForW0.reachesSymbol (h : agreeButForW0 s t) {u : State} (hr : s.reachesSymbol u) :
    ∃ v, t.reachesSymbol v ∧ agreeButForW0 u v := by
  obtain ⟨w, rfl, hw⟩ := h.exists_win
  obtain ⟨hm, ⟨hd, hi, hb, rfl⟩ | ⟨f, hd, hb, hf, rfl⟩ | ⟨hd, rfl⟩⟩ := hr
  · exact ⟨_, ⟨hm, .inl ⟨hd, hi, hb, rfl⟩⟩, hw.frame _ _ _ rfl rfl⟩
  · exact ⟨_, ⟨hm, .inr (.inl ⟨f, hd, hb, hf, rfl⟩)⟩, hw.frame _ _ _ rfl rfl⟩
  · exact ⟨_, ⟨hm, .inr (.inr ⟨hd, rfl⟩)⟩, hw⟩

end

/-- Settles O29: a turn reads the window only in a copy, and there only what BOUNDS has found to be this call's output. -/
theorem decoderNeverReadsW0 : Obligations.DecoderNeverReadsW0 := by
  intro s t s' hm hnone h hs
  obtain ⟨hd, hi, he⟩ | ⟨u, hr, he⟩ := step_decoding_cases hm <;> rw [he] at hs
  · cases hs
    obtain ⟨w, rfl, hw⟩ := h.exists_win
    exact ⟨_, step_of_inputEnd hm hd hi, hw.finish .ok⟩
  · obtain ⟨v, hv, huv⟩ := h.reachesSymbol hr
    have hunone : u.cfg.prefillMode = .none := by rw [(State.reachesSymbol_frame hr).1]; exact hnone
    rw [step_of_reachesSymbol hv]
    exact huv.processSymbol hunone hs

end Sys2Proof.Machine

/-! PROOFS. Statements of 44_header_codec.md: a header read back by the fields that wrote it (HeaderReadsBackWhatWasWritten),
what finding a header takes (HeaderFoundOnlyWhole), and the source's example (HeaderExampleIsByteExact). -/

namespace Sys2Proof.Machine

/-! ### A size's bytes (44_header_codec.md R203) -/

@[simp] theorem length_bytesLE (n x : Nat) : (bytesLE n x).length = n := by
  induction n generalizing x with
  | zero => rfl
  | succ n ih => simp [bytesLE, ih]

theorem natLE_bytesLE (n x : Nat) : natLE (bytesLE n x) = x % 2 ^ (8 * n) := by
  induction n generalizing x with
  | zero => simp [bytesLE, natLE, Nat.mod_one]
  | succ n ih =>
    have hpow : 2 ^ (8 * (n + 1)) = 256 * 2 ^ (8 * n) := by rw [Nat.mul_succ, Nat.pow_add, Nat.mul_comm]
    simp only [bytesLE, natLE, ih, BitVec.toNat_ofNat, hpow, Nat.mod_mul]

@[simp] theorem length_sizeEncode (n : Nat) (endian : Endian) (x : Nat) : (sizeEncode n endian x).length = n := by
  cases endian <;> simp [sizeEncode]

@[simp] theorem sizeDecode_sizeEncode (n : Nat) (endian : Endian) (x : Nat) :
    sizeDecode endian (sizeEncode n endian x) = x % 2 ^ (8 * n) := by
  cases endian <;> simp [sizeDecode, sizeEncode, natLE_bytesLE]

/-! ### The fields' bytes (44_header_codec.md R201, R203) -/

@[simp] theorem length_writeField (o c : Nat) (f : HeaderField) : (writeField o c f).length = fieldLength f := by
  cases f with
  | byte v => rfl
  | str first more => simp [writeField, fieldLength, Nat.add_comm]
  | size kind width endian => cases kind <;> simp [writeField, fieldLength]
  | ignore v => rfl

@[simp] theorem length_writeHeader (fields : List HeaderField) (o c : Nat) :
    (writeHeader fields o c).length = headerLength fields := by
  induction fields with
  | nil => rfl
  | cons f rest ih => simp [writeHeader, headerLength, ih]

theorem writeHeader_append (fs gs : List HeaderField) (o c : Nat) :
    writeHeader (fs ++ gs) o c = writeHeader fs o c ++ writeHeader gs o c := by
  induction fs with
  | nil => rfl
  | cons f fs ih => simp [writeHeader, ih]

theorem headerLength_concat (fs : List HeaderField) (f : HeaderField) :
    headerLength (fs ++ [f]) = headerLength fs + fieldLength f := by
  induction fs with
  | nil => simp [headerLength]
  | cons g fs ih => simp [headerLength, ih, Nat.add_assoc]

/-! ### The widest size field (44_header_codec.md R205) -/

/-- The width of a size field of a kind; any other field has none. -/
def widthOfKind (kind : SizeKind) (f : HeaderField) : Option Nat :=
  match f with
  | .size k width _ => if k = kind then some (sizeBytes width) else none
  | .byte _ => none
  | .str _ _ => none
  | .ignore _ => none

/-- What READ_HEADER holds of a kind of size after fields to which `x` was written. -/
def widestWritten (kind : SizeKind) (x : Nat) (fields : List HeaderField) : WidestSize :=
  if 4 ∈ fields.filterMap (widthOfKind kind) then some (4, x % 2 ^ 32)
  else if 2 ∈ fields.filterMap (widthOfKind kind) then some (2, x % 2 ^ 16)
  else none

theorem sizeReadBack_eq_widestWritten (kind : SizeKind) (x : Nat) (fields : List HeaderField) :
    sizeReadBack kind x fields = (widestWritten kind x fields).map Prod.snd := by
  simp only [widestWritten, apply_ite (Option.map Prod.snd)]
  rfl

theorem widestWritten_concat_of_none {kind : SizeKind} {f : HeaderField} (h : widthOfKind kind f = none) (x : Nat)
    (fs : List HeaderField) : widestWritten kind x (fs ++ [f]) = widestWritten kind x fs := by
  simp [widestWritten, h]

theorem widestWritten_concat_size (kind : SizeKind) (width : SizeWidth) (endian : Endian) (x : Nat)
    (fs : List HeaderField) :
    widestWritten kind x (fs ++ [.size kind width endian])
      = widest (widestWritten kind x fs) (sizeBytes width) (x % 2 ^ (8 * sizeBytes width)) := by
  have hw : widthOfKind kind (.size kind width endian) = some (sizeBytes width) := if_pos rfl
  simp only [widestWritten, List.filterMap_append, List.filterMap_cons, List.filterMap_nil, hw, List.mem_append]
  cases width <;> by_cases h4 : 4 ∈ fs.filterMap (widthOfKind kind) <;>
    by_cases h2 : 2 ∈ fs.filterMap (widthOfKind kind) <;> simp [h4, h2, sizeBytes, widest]

/-! ### READ_HEADER field by field (44_header_codec.md R204) -/

/-- A field whose bytes stand as they were written is read, with the sizes that were written up to it. -/
theorem readFields_cons_of_written {o c : Nat} {f : HeaderField} {input : List Byte} {pos : Nat}
    (h : writeField o c f <+: input.drop pos) (fs rest : List HeaderField) :
    readFields input (f :: rest) pos (widestWritten .orig o fs) (widestWritten .comp c fs)
      = readFields input rest (pos + fieldLength f) (widestWritten .orig o (fs ++ [f])) (widestWritten .comp c (fs ++ [f])) := by
  have hroom : ¬ input.length - pos < fieldLength f := by simpa using h.length_le
  have hbytes : (input.drop pos).take (fieldLength f) = writeField o c f := by
    rw [← length_writeField o c f]; exact (List.prefix_iff_eq_take.1 h).symm
  simp only [readFields, if_neg hroom, hbytes]
  cases f with
  | byte | str => rw [widestWritten_concat_of_none rfl, widestWritten_concat_of_none rfl]; exact if_pos rfl
  | ignore => rw [widestWritten_concat_of_none rfl, widestWritten_concat_of_none rfl]
  | size kind width endian =>
    cases kind <;> simp [writeField, fieldLength, widestWritten_concat_size, widestWritten_concat_of_none, widthOfKind]

/-- A header is found past a field only where the input holds the field's bytes. -/
theorem readFields_cons_found {input : List Byte} {f : HeaderField} {rest : List HeaderField} {pos payload : Nat}
    {orig comp : WidestSize} {o c : Option Nat} (h : readFields input (f :: rest) pos orig comp = .found o c payload) :
    fieldLength f ≤ input.length - pos
      ∧ ∃ orig' comp', readFields input rest (pos + fieldLength f) orig' comp' = .found o c payload := by
  simp only [readFields] at h
  split at h
  · cases h
  next hroom =>
    refine ⟨Nat.le_of_not_lt hroom, ?_⟩
    cases f with
    | byte | str =>
      dsimp only at h
      split_ifs at h
      exact ⟨_, _, h⟩
    | ignore => exact ⟨_, _, h⟩
    | size kind width endian => cases kind <;> exact ⟨_, _, h⟩

/-! ### The whole header -/

/-- Reading on after `done`, in what the fields `done ++ rest` wrote. -/
theorem readFields_writeHeader (o c : Nat) (payload : List Byte) (done rest : List HeaderField) :
    readFields (writeHeader (done ++ rest) o c ++ payload) rest (headerLength done)
        (widestWritten .orig o done) (widestWritten .comp c done)
      = .found (sizeReadBack .orig o (done ++ rest)) (sizeReadBack .comp c (done ++ rest)) (headerLength (done ++ rest)) := by
  induction rest generalizing done with
  | nil => simp [readFields, sizeReadBack_eq_widestWritten]
  | cons f rest ih =>
    have hwritten : writeField o c f <+: (writeHeader (done ++ f :: rest) o c ++ payload).drop (headerLength done) := by
      rw [writeHeader_append, List.append_assoc, List.drop_left' (length_writeHeader done o c), writeHeader, List.append_assoc]
      exact List.prefix_append _ _
    rw [readFields_cons_of_written hwritten, ← headerLength_concat, List.append_cons]
    exact ih (done ++ [f])

/-- Settles O58, from reading on after no field. -/
theorem headerReadsBackWhatWasWritten : Obligations.HeaderReadsBackWhatWasWritten :=
  fun fields origSize compSize payload => readFields_writeHeader origSize compSize payload [] fields

theorem readFields_found {input : List Byte} {fields : List HeaderField} {pos payload : Nat} {orig comp : WidestSize}
    {o c : Option Nat} (hpos : pos ≤ input.length) (h : readFields input fields pos orig comp = .found o c payload) :
    payload = pos + headerLength fields ∧ payload ≤ input.length := by
  induction fields generalizing pos orig comp with
  | nil => cases h; exact ⟨rfl, hpos⟩
  | cons f rest ih =>
    obtain ⟨hroom, orig', comp', hrest⟩ := readFields_cons_found h
    obtain ⟨hpayload, hle⟩ := ih (by omega) hrest
    exact ⟨by rw [hpayload, headerLength, Nat.add_assoc], hle⟩

/-- Settles O59: each field passed has its bytes in the input. -/
theorem headerFoundOnlyWhole : Obligations.HeaderFoundOnlyWhole := by
  intro fields input o c payload h
  simpa using readFields_found (Nat.zero_le _) h

/-- Settles O57, by evaluation. -/
theorem headerExampleIsByteExact : Obligations.HeaderExampleIsByteExact := ⟨by decide, by decide⟩

end Sys2Proof.Machine

/-! PROOFS. Statements of 45_command_interface.md: what CREATE checks and makes (CreateChecksItsOperand, CreateMakesAnInstance),
GET_DEFAULT_CONFIG (DefaultConfigurationIsConstant), DESTROY and the refusals on absent coders
(DestroyedInstanceRefusesCommands), and the order of the handles that every step keeps (StepKeepsHostOrdered). -/

namespace Sys2Proof.Machine

/-! ### Handles and parked coders (45_command_interface.md R223) -/

theorem dropInstance_eq_filter (parked : List (Nat × Instance)) (h : Nat) :
    dropInstance parked h = parked.filter (·.1 ≠ h) := by
  induction parked with
  | nil => rfl
  | cons p rest ih =>
    rw [dropInstance, ih]
    split
    · next hp => exact (List.filter_cons_of_neg (by simpa using hp)).symm
    · next hp => exact (List.filter_cons_of_pos (by simpa using hp)).symm

theorem findInstance_dropInstance_self (parked : List (Nat × Instance)) (h : Nat) :
    findInstance (dropInstance parked h) h = none := by
  induction parked with
  | nil => rfl
  | cons p rest ih =>
    rw [dropInstance]
    split
    · exact ih
    · next hp => rw [findInstance, if_neg hp, ih]

/-- What the order of the handles speaks of is the handles, the parked coders and whether the selected coder exists. -/
theorem State.hostOrdered.frame {s t : State} (h : s.hostOrdered) (hmode : t.mode ≠ .absent → s.mode ≠ .absent)
    (hsel : t.sel = s.sel) (hparked : t.parked = s.parked) (hnext : t.nextHandle = s.nextHandle) : t.hostOrdered := by
  obtain ⟨hgiven, hothers, hdistinct⟩ := h
  rw [State.hostOrdered, hsel, hparked, hnext]
  exact ⟨fun hm => hgiven (hmode hm), hothers, hdistinct⟩

/-- Between calls the selected coder too can be put aside: all handles are given out and distinct, all coders idle. -/
theorem State.hostOrdered.park {s : State} (h : s.hostOrdered) (hm : s.mode = .idle ∨ s.mode = .absent) :
    (∀ p ∈ s.park, p.1 < s.nextHandle ∧ p.2.mode = .idle) ∧ s.park.Pairwise (fun p q => p.1 ≠ q.1) := by
  obtain ⟨hgiven, hothers, hdistinct⟩ := h
  have hparked : ∀ p ∈ s.parked, p.1 < s.nextHandle ∧ p.2.mode = .idle := fun p hp =>
    ⟨(hothers p hp).1, (hothers p hp).2.2⟩
  obtain hm | hm := hm
  · rw [State.park, if_neg (by simp [hm])]
    exact ⟨List.forall_mem_cons.2 ⟨⟨hgiven (by simp [hm]), hm⟩, hparked⟩,
      List.pairwise_cons.2 ⟨fun p hp => (hothers p hp).2.1.symm, hdistinct⟩⟩
  · rw [State.park, if_pos hm]
    exact ⟨hparked, hdistinct⟩

theorem State.hostOrdered_select {s t : State} {handle : Nat} (h : s.hostOrdered)
    (hm : s.mode = .idle ∨ s.mode = .absent) (e : s.select handle = .next t) : t.hostOrdered ∧ t.mode = .idle := by
  obtain ⟨-, hidle, rfl⟩ | ⟨-, inst, hfind, hidle, rfl⟩ := State.select_next e
  · exact ⟨h, hidle⟩
  · obtain ⟨hpark, hdistinct⟩ := h.park hm
    refine ⟨⟨fun _ => (h.2.1 _ (mem_of_findInstance hfind)).1, ?_, ?_⟩, hidle⟩ <;> dsimp only <;>
      rw [dropInstance_eq_filter]
    · intro p hp
      obtain ⟨hp, hne⟩ := List.mem_filter.1 hp
      exact ⟨(hpark p hp).1, by simpa using hne, (hpark p hp).2⟩
    · exact hdistinct.filter _

/-- A new coder's handle is above all that were given out before. -/
theorem State.hostOrdered.create {s t : State} (h : s.hostOrdered) (hm : s.mode = .idle ∨ s.mode = .absent)
    (hsel : t.sel = s.nextHandle) (hparked : t.parked = s.park) (hnext : t.nextHandle = s.nextHandle + 1) :
    t.hostOrdered := by
  obtain ⟨hpark, hdistinct⟩ := h.park hm
  rw [State.hostOrdered, hsel, hparked, hnext]
  refine ⟨fun _ => Nat.lt_succ_self _, fun p hp => ?_, hdistinct⟩
  obtain ⟨hlt, hidle⟩ := hpark p hp
  exact ⟨Nat.lt_succ_of_lt hlt, hlt.ne, hidle⟩

theorem State.encodeHead_nextHandle {s t : State} (h : s.encodeHead = .next t) : t.nextHandle = s.nextHandle := by
  obtain rfl | ⟨_, -, rfl⟩ := State.encodeHead_next h <;> rfl

theorem State.hostOrdered_perform {q : Request} {s t : State} (h : s.hostOrdered)
    (hm : s.mode = .idle ∨ s.mode = .absent) (e : s.perform q = .next t) : t.hostOrdered := by
  obtain ⟨_, rfl⟩ | ⟨_, cfg, -, rfl⟩ | ⟨_, u, hu, hrun⟩ := State.perform_next e
  · exact h
  · exact h.create hm rfl rfl rfl
  · obtain ⟨hu, hidle⟩ := State.hostOrdered_select h hm hu
    have hexists : u.mode ≠ .absent := by simp [hidle]
    obtain rfl | ⟨_, _, hhead⟩ | ⟨_, _, rfl⟩ := hrun
    · exact hu.frame (fun _ => hexists) rfl rfl rfl
    · exact hu.frame (fun _ => hexists) ((State.encodeHead_sel hhead).trans rfl) (State.encodeHead_frame hhead).2
        ((State.encodeHead_nextHandle hhead).trans rfl)
    · exact hu.frame (fun _ => hexists) rfl rfl rfl

theorem keptByDecoding_nextHandle (n : Nat) : KeptByDecoding fun s => s.nextHandle = n where
  frame _ _ _ _ _ _ _ h := h
  produce _ _ _ h := h

theorem step_running_nextHandle {s t : State} (hm : s.mode = .decoding ∨ s.mode = .encoding) (h : step s = .next t) :
    t.nextHandle = s.nextHandle := by
  obtain hm | hm := hm
  · exact (keptByDecoding_nextHandle s.nextHandle).step hm rfl h
  · have hcoded : s.coded.nextHandle = s.nextHandle := by rw [State.coded_frame]
    have hclosed : s.closed.nextHandle = s.nextHandle := by rw [State.closed_frame]
    obtain ⟨-, -, hslide⟩ | ⟨-, rfl⟩ | rfl | ⟨-, rfl⟩ := step_encoding_cases hm h
    · rw [(State.slideFrom_frame hslide).1]
      exact hcoded
    · exact hcoded
    · exact hclosed
    · exact hclosed

/-- Settles O27: a running call's step touches neither handles nor parked coders, and a request takes or gives a handle in
order. -/
theorem stepKeepsHostOrdered : Obligations.StepKeepsHostOrdered := by
  intro s t h hstep
  have running : s.mode = .decoding ∨ s.mode = .encoding → t.hostOrdered := fun hm =>
    h.frame (fun _ => by rcases hm with hm | hm <;> simp [hm]) (step_running_sel hm hstep) (step_running_frame hm hstep).2
      (step_running_nextHandle hm hstep)
  cases hm : s.mode with
  | decoding => exact running (.inl hm)
  | encoding => exact running (.inr hm)
  | idle | absent =>
    obtain rfl | ⟨q, rest, -, hq⟩ := step_between_calls (by simp [hm]) hstep
    · exact h
    · exact State.hostOrdered_perform (by exact h) (by simp [hm]) hq

/-! ### The Configuration's codes (10_state.md R21 to R29) -/

/-- Two values that one code has are the same. -/
theorem value_of_code {α : Type} {f : Nat → Option α} {n k : Nat} {v w : α} (h : f n = some v) (hk : f k = some w)
    (hn : n = k) : v = w := by
  subst hn
  exact Option.some.inj (h.symm.trans hk)

theorem exists_bitOrderOfCode_iff {n : Nat} : (∃ v, bitOrderOfCode n = some v) ↔ n ≤ 1 := by
  rcases n with _ | _ | n <;> simp [bitOrderOfCode]

theorem exists_layoutOfCode_iff {n : Nat} : (∃ v, layoutOfCode n = some v) ↔ n ≤ 3 := by
  rcases n with _ | _ | _ | _ | n <;> simp [layoutOfCode]

theorem exists_endianOfCode_iff {n : Nat} : (∃ v, endianOfCode n = some v) ↔ n ≤ 1 := by
  rcases n with _ | _ | n <;> simp [endianOfCode]

theorem exists_prefillModeOfCode_iff {n : Nat} : (∃ v, prefillModeOfCode n = some v) ↔ n ≤ 2 := by
  rcases n with _ | _ | _ | n <;> simp [prefillModeOfCode]

theorem prefillModeOfCode_eq_custom {n : Nat} : prefillModeOfCode n = some .custom ↔ n = 1 := by
  rcases n with _ | _ | _ | n <;> simp [prefillModeOfCode]

theorem exists_eosModeOfCode_iff {n : Nat} : (∃ v, eosModeOfCode n = some v) ↔ n ≤ 1 := by
  rcases n with _ | _ | n <;> simp [eosModeOfCode]

theorem dupShortcutOfCode_eq_some_iff {n : Nat} {v : Bool} : dupShortcutOfCode n = some v ↔ n = 0 ∧ v = false := by
  cases n <;> simp [dupShortcutOfCode, eq_comm]

theorem writeStartOf_eq_some_iff {n : Nat} {p : WinPos} : writeStartOf n = some p ↔ n < 4096 ∧ p.toNat = n := by
  unfold writeStartOf
  split
  · next h =>
    have hn : n < 4096 := h
    rw [Option.some.injEq, and_iff_right hn]
    bv_omega
  · next h => exact ⟨nofun, fun ⟨hn, _⟩ => absurd hn h⟩

/-- CREATE lets through the registers whose values the codes have, unless the function of mode `custom` is missing (R217). -/
theorem checkConfiguration_eq_some_iff {c : RawConfiguration} {cfg : Configuration} :
    checkConfiguration c = some cfg ↔
      bitOrderOfCode c.controlBitOrder = some cfg.controlBitOrder ∧ layoutOfCode c.matchFieldLayout = some cfg.matchFieldLayout
        ∧ endianOfCode c.matchFieldEndianness = some cfg.matchFieldEndianness
        ∧ prefillModeOfCode c.prefillMode = some cfg.prefillMode ∧ writeStartOf c.writeStart = some cfg.writeStart
        ∧ eosModeOfCode c.eosMode = some cfg.eosMode ∧ dupShortcutOfCode c.dupShortcut = some cfg.dupShortcut
        ∧ cfg.prefillValue = c.prefillValue ∧ cfg.prefillFn = c.prefillFn
        ∧ ¬ (cfg.prefillMode = .custom ∧ c.prefillFn = none) := by
  simp only [checkConfiguration, Option.bind_eq_bind, Option.bind_eq_some_iff]
  constructor
  · rintro ⟨order, horder, layout, hlayout, endian, hendian, mode, hmode, start, hstart, eos, heos, dup, hdup, h⟩
    split at h
    · cases h
    · next hcustom =>
      cases h
      exact ⟨horder, hlayout, hendian, hmode, hstart, heos, hdup, rfl, rfl, hcustom⟩
  · rintro ⟨horder, hlayout, hendian, hmode, hstart, heos, hdup, hvalue, hfn, hcustom⟩
    refine ⟨_, horder, _, hlayout, _, hendian, _, hmode, _, hstart, _, heos, _, hdup, ?_⟩
    rw [if_neg hcustom, ← hvalue, ← hfn]

theorem exists_checkConfiguration_iff {c : RawConfiguration} : (∃ cfg, checkConfiguration c = some cfg) ↔
    c.controlBitOrder ≤ 1 ∧ c.matchFieldLayout ≤ 3 ∧ c.matchFieldEndianness ≤ 1 ∧ c.prefillMode ≤ 2
      ∧ c.writeStart < 4096 ∧ c.eosMode ≤ 1 ∧ c.dupShortcut = 0 ∧ (c.prefillMode = 1 → c.prefillFn ≠ none) := by
  constructor
  · rintro ⟨cfg, h⟩
    obtain ⟨horder, hlayout, hendian, hmode, hstart, heos, hdup, -, -, hcustom⟩ := checkConfiguration_eq_some_iff.1 h
    exact ⟨exists_bitOrderOfCode_iff.1 ⟨_, horder⟩, exists_layoutOfCode_iff.1 ⟨_, hlayout⟩,
      exists_endianOfCode_iff.1 ⟨_, hendian⟩, exists_prefillModeOfCode_iff.1 ⟨_, hmode⟩,
      (writeStartOf_eq_some_iff.1 hstart).1, exists_eosModeOfCode_iff.1 ⟨_, heos⟩,
      (dupShortcutOfCode_eq_some_iff.1 hdup).1, fun h1 hfn => hcustom ⟨value_of_code hmode rfl h1, hfn⟩⟩
  · rintro ⟨horder, hlayout, hendian, hmode, hstart, heos, hdup, hcustom⟩
    obtain ⟨order, horder⟩ := exists_bitOrderOfCode_iff.2 horder
    obtain ⟨layout, hlayout⟩ := exists_layoutOfCode_iff.2 hlayout
    obtain ⟨endian, hendian⟩ := exists_endianOfCode_iff.2 hendian
    obtain ⟨mode, hmode⟩ := exists_prefillModeOfCode_iff.2 hmode
    obtain ⟨eos, heos⟩ := exists_eosModeOfCode_iff.2 heos
    have hfn : ¬ (mode = .custom ∧ c.prefillFn = none) := fun ⟨hm, hfn⟩ =>
      hcustom (prefillModeOfCode_eq_custom.1 (hm ▸ hmode)) hfn
    exact ⟨⟨order, layout, endian, mode, c.prefillValue, c.prefillFn, BitVec.ofNat 12 c.writeStart, eos, false⟩,
      checkConfiguration_eq_some_iff.2 ⟨horder, hlayout, hendian, hmode, if_pos hstart, heos,
        dupShortcutOfCode_eq_some_iff.2 ⟨hdup, rfl⟩, rfl, rfl, hfn⟩⟩

/-- Settles O33: each check is a field's own, and the registers hold what the codes stand for. -/
theorem createChecksItsOperand : Obligations.CreateChecksItsOperand := by
  refine fun c => ⟨exists_checkConfiguration_iff, fun cfg h => ?_⟩
  obtain ⟨horder, hlayout, hendian, hmode, hstart, heos, hdup, hvalue, hfn, -⟩ := checkConfiguration_eq_some_iff.1 h
  exact ⟨⟨value_of_code horder rfl, value_of_code horder rfl⟩,
    ⟨value_of_code hlayout rfl, value_of_code hlayout rfl, value_of_code hlayout rfl, value_of_code hlayout rfl⟩,
    ⟨value_of_code hendian rfl, value_of_code hendian rfl⟩,
    ⟨value_of_code hmode rfl, value_of_code hmode rfl, value_of_code hmode rfl⟩,
    ⟨value_of_code heos rfl, value_of_code heos rfl⟩, hvalue, hfn, (writeStartOf_eq_some_iff.1 hstart).2,
    (dupShortcutOfCode_eq_some_iff.1 hdup).2⟩

/-! ### Requests taken between calls (45_command_interface.md R215 to R218, R223) -/

/-- With no call running a step runs the oldest request. -/
theorem step_of_request {s : State} {q : Request} {rest : List Request} (hm : s.mode = .idle ∨ s.mode = .absent)
    (hq : s.requests = q :: rest) : step s = State.perform q { s with requests := rest } := by
  rcases hm with hm | hm <;> simp only [step, hm, State.serve, hq]

/-- Settles O32: the request is its reply, and the defaults' codes are looked up. -/
theorem defaultConfigurationIsConstant : Obligations.DefaultConfigurationIsConstant :=
  fun _ _ hm hq => ⟨step_of_request hm hq, rfl⟩

/-- Settles O34: CREATE goes by the check of its operand. -/
theorem createMakesAnInstance : Obligations.CreateMakesAnInstance := by
  intro s c rest hm hq
  rw [step_of_request hm hq, State.perform, requestCreate]
  refine ⟨fun h => by rw [h], fun cfg h => ?_⟩
  rw [h]
  exact ⟨_, rfl, rfl, rfl, rfl, rfl, rfl, rfl, rfl, rfl⟩

/-- A coder neither selected nor parked is not found (R223). -/
theorem State.select_absent {s : State} {h : Nat} (hsel : h = s.sel → s.mode = .absent)
    (hparked : h ≠ s.sel → findInstance s.parked h = none) : s.select h = .refused (.instanceAbsent h) := by
  unfold State.select
  split
  · next hs => rw [hsel hs.symm]
  · next hs => rw [hparked (Ne.symm hs)]

/-- Putting the selected coder aside changes what is found under its handle, where it exists, and nothing else. -/
theorem State.findInstance_park_of_absent {s : State} {g : Nat} (h : g = s.sel → s.mode = .absent) :
    findInstance s.park g = findInstance s.parked g := by
  by_cases hg : g = s.sel
  · rw [State.park, if_pos (h hg)]
  · exact State.findInstance_park_of_ne hg

/-- What DESTROY leaves: the blank values under the handle, and of the others what selecting it left. -/
theorem step_destroy_of_addresses {s : State} {h : Nat} {inst : Instance} {rest : List Request} (ha : s.addresses h inst)
    (hq : s.requests = .destroy h :: rest) : step s = .next { s with
      toInstance := Instance.blank, sel := h, parked := if h = s.sel then s.parked else dropInstance s.park h
      requests := rest, reply := .destroyed } := by
  rw [step_of_addresses ha hq, State.perform, requestDestroy]
  obtain ⟨rfl, hm, -⟩ | ⟨hs, -, hfind, hm⟩ := ha
  · rw [State.select, if_pos rfl, hm, if_pos rfl]
  · rw [State.select, if_neg (Ne.symm hs), hfind, if_neg hs]
    simp only [if_pos hm]
    rfl

/-- Settles O35: DESTROY goes by the selection, which parks the coder selected before and finds no absent one. -/
theorem destroyedInstanceRefusesCommands : Obligations.DestroyedInstanceRefusesCommands := by
  refine ⟨fun s h inst rest ha hq => ?_, fun s h rest input output hm hsel hparked => ?_⟩
  · refine ⟨_, step_destroy_of_addresses ha hq, rfl, rfl, rfl, rfl, rfl, rfl, rfl, fun hs => if_pos hs, fun hs => ?_,
      fun hs hm => ?_, fun g hg habsent => ?_⟩
    · rw [if_neg hs, findInstance_dropInstance_self]
    · rw [if_neg hs, findInstance_dropInstance_of_ne (Ne.symm hs), State.findInstance_park_sel (by simp [hm])]
    · dsimp only
      split
      · rfl
      · rw [findInstance_dropInstance_of_ne hg, State.findInstance_park_of_absent habsent]
  · have hselect (rest : List Request) : ({ s with requests := rest } : State).select h = .refused (.instanceAbsent h) :=
      State.select_absent hsel hparked
    refine ⟨fun hq => ?_, fun hq => ?_, fun hq => ?_⟩ <;> rw [step_of_request hm hq, State.perform]
    · rw [requestDestroy, hselect]
    · rw [requestEncode, hselect]
    · rw [requestDecode, hselect]

end Sys2Proof.Machine

/-! PROOFS. Statements of 60_exceptions.md: what ends a call (FinishEndsACall). -/

namespace Sys2Proof.Machine

/-- Settles O15: the count of bytes written is `op` for the decoder and `outCount` for the encoder. -/
theorem finishEndsACall : Obligations.FinishEndsACall :=
  fun st _ => ⟨fun hm => State.finish_decoding hm st, fun hm => State.finish_encoding hm st⟩

end Sys2Proof.Machine

/-! PROOFS. Statements of 70_reset_and_hazards.md: a running call depends on nothing but its own state (CallsShareNothing); a
running ENCODE ends (EncodeTerminates). -/

namespace Sys2Proof.Machine

/-! ### A call carried into another machine (70_reset_and_hazards.md R251, R252)

What a call holds, put into a machine `o` that holds the rest. Each operation of a running call commutes with this: the rest is
neither read nor changed. STATUS and BYTES_WRITTEN belong to the rest until `finish` writes them. -/

/-- The DECODE of `s` in the machine `o`. -/
def State.decodeIn (s o : State) : State :=
  { o with
    cfg := s.cfg, mode := s.mode, win := s.win, dec := s.dec, inBuf := s.inBuf, out := s.out, outCap := s.outCap
    status := if s.mode = .idle then s.status else o.status
    bytesWritten := if s.mode = .idle then s.bytesWritten else o.bytesWritten }

/-- The ENCODE of `s` in the machine `o`. -/
def State.encodeIn (s o : State) : State :=
  { o with
    cfg := s.cfg, mode := s.mode, win := s.win, enc := s.enc, mf := s.mf, inBuf := s.inBuf, out := s.out, outCap := s.outCap
    status := if s.mode = .idle then s.status else o.status
    bytesWritten := if s.mode = .idle then s.bytesWritten else o.bytesWritten }

/-- A machine in the same place of a DECODE as `s` is itself with that DECODE in it. -/
theorem sameCall.eq_decodeIn {s t : State} (h : sameCall s t) (hm : s.mode = .decoding) : t = s.decodeIn t := by
  obtain ⟨hcfg, hmode, hwin, hin, hout, hcap, hdec, -⟩ := h
  have hrun : t.mode ≠ .idle := by simp [← hmode, hm]
  simp only [State.decodeIn, hcfg, hmode, hwin, hin, hout, hcap, hdec hm, if_neg hrun]

/-- A machine in the same place of an ENCODE as `s` is itself with that ENCODE in it. -/
theorem sameCall.eq_encodeIn {s t : State} (h : sameCall s t) (hm : s.mode = .encoding) : t = s.encodeIn t := by
  obtain ⟨hcfg, hmode, hwin, hin, hout, hcap, -, henc⟩ := h
  obtain ⟨henc, hmf⟩ := henc hm
  have hrun : t.mode ≠ .idle := by simp [← hmode, hm]
  simp only [State.encodeIn, hcfg, hmode, hwin, hin, hout, hcap, henc, hmf, if_neg hrun]

theorem sameCall_decodeIn (s o : State) (hm : s.mode ≠ .encoding) : sameCall s (s.decodeIn o) :=
  ⟨rfl, rfl, rfl, rfl, rfl, rfl, fun _ => rfl, fun he => absurd he hm⟩

theorem sameCall_encodeIn (s o : State) (hm : s.mode ≠ .decoding) : sameCall s (s.encodeIn o) :=
  ⟨rfl, rfl, rfl, rfl, rfl, rfl, fun hd => absurd hd hm, fun _ => ⟨rfl, rfl⟩⟩

theorem State.decodeIn_results {s : State} (o : State) (hm : s.mode = .idle) :
    s.status = (s.decodeIn o).status ∧ s.bytesWritten = (s.decodeIn o).bytesWritten :=
  ⟨(if_pos hm).symm, (if_pos hm).symm⟩

theorem State.encodeIn_results {s : State} (o : State) (hm : s.mode = .idle) :
    s.status = (s.encodeIn o).status ∧ s.bytesWritten = (s.encodeIn o).bytesWritten :=
  ⟨(if_pos hm).symm, (if_pos hm).symm⟩

/-! ### The DECODE (43_decoder.md R181 to R189) -/

section
variable {s : State} (o : State)

theorem State.finish_decodeIn (hm : s.mode = .decoding) (st : Status) :
    (s.decodeIn o).finish st = (s.finish st).decodeIn o := by
  rw [State.finish_decoding hm, State.finish_decoding (by exact hm)]
  rfl

theorem State.literal_decodeIn (hm : s.mode = .decoding) (b : Byte) :
    (s.decodeIn o).literal b = (s.literal b).decodeIn o := by
  by_cases hroom : s.dec.op < s.outCap
  · rw [State.literal_of_room hroom, State.literal_of_room (by exact hroom)]
    rfl
  · rw [State.literal_of_full (not_lt.1 hroom), State.literal_of_full (by exact not_lt.1 hroom)]
    exact State.finish_decodeIn o hm _

theorem State.copy_decodeIn {n : Nat} (hm : s.mode = .decoding) : (s.decodeIn o).copy n = (s.copy n).decodeIn o := by
  induction n generalizing s with
  | zero => rfl
  | succ n ih =>
    rw [State.copy, State.copy]
    by_cases hroom : s.dec.op < s.outCap
    · rw [if_pos hroom, if_pos (by exact hroom)]
      exact ih (s := s.copyByte) hm
    · rw [if_neg hroom, if_neg (by exact hroom)]
      exact State.finish_decodeIn o hm _

theorem State.reference_decodeIn (hm : s.mode = .decoding) (ofs : WinPos) (len : LenField) :
    (s.decodeIn o).reference ofs len = (s.reference ofs len).decodeIn o := by
  by_cases hbad : s.cfg.prefillMode = .none ∧ s.dec.op < distance ofs
  · obtain ⟨hnone, hlt⟩ := hbad
    rw [State.reference_of_outOfBounds hnone hlt, State.reference_of_outOfBounds (by exact hnone) (by exact hlt)]
    exact State.finish_decodeIn (s := s.refLoaded ofs len) o hm _
  · have hd := fun hnone => not_lt.1 fun hlt => hbad ⟨hnone, hlt⟩
    rw [State.reference_of_inBounds hd, State.reference_of_inBounds (by exact hd)]
    exact State.copy_decodeIn (s := s.refLoaded ofs len) o hm

theorem State.symbolDone_decodeIn (s : State) : (s.decodeIn o).symbolDone = s.symbolDone.decodeIn o := by
  by_cases hm : s.mode = .decoding
  · rw [State.symbolDone, State.symbolDone, if_pos hm, if_pos (by exact hm)]
    rfl
  · rw [State.symbolDone, State.symbolDone, if_neg hm, if_neg (by exact hm)]

theorem exec_decodeIn (hm : s.mode = .decoding) {i : Instr} {t : State} (h : exec i s = .next t) :
    exec i (s.decodeIn o) = .next (t.decodeIn o) := by
  obtain ⟨f, rfl⟩ | ⟨b, rfl⟩ | ⟨layout, endian, ofs, len, rfl⟩ | rfl := symbol_eq_ctrl_or_lit_or_ref_or_eos i
  · cases h
    rfl
  · cases h
    exact congrArg _ (State.literal_decodeIn o hm b)
  · rw [exec_ref] at h ⊢
    cases h
    exact congrArg _ (State.reference_decodeIn o hm ofs len)
  · cases h
    exact congrArg _ (State.finish_decodeIn (s := s.loadRef 0 0) o hm .ok)

theorem State.processSymbol_decodeIn (hm : s.mode = .decoding) {t : State} (h : s.processSymbol = .next t) :
    (s.decodeIn o).processSymbol = .next (t.decodeIn o) := by
  have hfetch : (s.decodeIn o).fetchSymbol (s.decodeIn o).symbolSelector = s.fetchSymbol s.symbolSelector := rfl
  unfold State.processSymbol State.runSymbol at h ⊢
  rw [hfetch]
  cases hf : s.fetchSymbol s.symbolSelector with
  | ended st =>
    simp only [hf] at h
    cases h
    exact congrArg _ (State.finish_decodeIn o hm st)
  | run i =>
    obtain ⟨u, hexec, -⟩ := exec_answers i s
    simp only [hf, hexec] at h
    cases h
    simp only [exec_decodeIn o hm hexec, State.symbolDone_decodeIn]

theorem State.reachesSymbol_decodeIn {u : State} (h : s.reachesSymbol u) :
    (s.decodeIn o).reachesSymbol (u.decodeIn o) := by
  obtain ⟨hm, ⟨hd, hi, hb, rfl⟩ | ⟨f, hd, hb, hf, rfl⟩ | ⟨hd, rfl⟩⟩ := h
  · exact ⟨hm, .inl ⟨hd, hi, hb, rfl⟩⟩
  · exact ⟨hm, .inr (.inl ⟨f, hd, hb, hf, rfl⟩)⟩
  · exact ⟨hm, .inr (.inr ⟨hd, rfl⟩)⟩

theorem step_decodeIn (hm : s.mode = .decoding) {t : State} (h : step s = .next t) :
    step (s.decodeIn o) = .next (t.decodeIn o) := by
  obtain ⟨hd, hi, he⟩ | ⟨u, hr, he⟩ := step_decoding_cases hm <;> rw [he] at h
  · cases h
    rw [step_of_inputEnd (by exact hm) (by exact hd) (by exact hi)]
    exact congrArg _ (State.finish_decodeIn o hm .ok)
  · rw [step_of_reachesSymbol (State.reachesSymbol_decodeIn o hr)]
    exact State.processSymbol_decodeIn o hr.mode h

end

/-! ### The ENCODE (42_encoder.md R161 to R172) -/

section
variable {s : State} (o : State)

theorem State.finish_encodeIn (hm : s.mode = .encoding) (st : Status) :
    (s.encodeIn o).finish st = (s.finish st).encodeIn o := by
  rw [State.finish_encoding hm, State.finish_encoding (by exact hm)]
  rfl

theorem State.appendCodes_encodeIn (bs : List Byte) (s : State) :
    (s.encodeIn o).appendCodes bs = (s.appendCodes bs).encodeIn o := by
  induction bs generalizing s with
  | nil => rfl
  | cons b bs ih => exact ih (s.appendCode b)

theorem State.encodeStep_encodeIn (s : State) : (s.encodeIn o).encodeStep = s.encodeStep.encodeIn o := by
  by_cases hshort : s.cappedMatch ≤ Config.THRESHOLD
  · rw [State.encodeStep, State.encodeStep, if_pos hshort, if_pos (by exact hshort)]
    rfl
  · rw [State.encodeStep, State.encodeStep, if_neg hshort, if_neg (by exact hshort)]
    exact congrArg (State.codewordDone s.cappedMatch) (State.appendCodes_encodeIn o _ s)

theorem State.flushFrom_encodeIn {n k : Nat} (hm : s.mode = .encoding) :
    (s.encodeIn o).flushFrom n k = (s.flushFrom n k).encodeIn o := by
  induction n generalizing k s with
  | zero => rfl
  | succ n ih =>
    rw [State.flushFrom, State.flushFrom]
    by_cases hroom : s.enc.outCount < s.outCap
    · rw [if_pos hroom, if_pos (by exact hroom)]
      exact ih (s := s.emitByte (s.enc.codeBuf.read k)) hm
    · rw [if_neg hroom, if_neg (by exact hroom)]
      exact State.finish_encodeIn o hm _

theorem State.flush_encodeIn (hm : s.mode = .encoding) : (s.encodeIn o).flush = s.flush.encodeIn o := by
  have hcopy : (s.encodeIn o).flushFrom (s.encodeIn o).enc.codeLen.toNat 0
      = (s.flushFrom s.enc.codeLen.toNat 0).encodeIn o := State.flushFrom_encodeIn o hm
  rw [State.flush, State.flush, hcopy]
  by_cases hgo : (s.flushFrom s.enc.codeLen.toNat 0).mode = .encoding
  · rw [if_pos hgo, if_pos (by exact hgo)]
    rfl
  · rw [if_neg hgo, if_neg (by exact hgo)]

theorem State.coded_encodeIn (hm : s.mode = .encoding) : (s.encodeIn o).coded = s.coded.encodeIn o := by
  by_cases h7 : s.enc.slot = 7
  · rw [State.coded_of_slot_eq h7, State.coded_of_slot_eq (by exact h7), State.encodeStep_encodeIn]
    exact State.flush_encodeIn o (s.encodeStep_mode.trans hm)
  · rw [State.coded_of_slot_ne h7, State.coded_of_slot_ne (by exact h7), State.encodeStep_encodeIn]

theorem State.closing_encodeIn (s : State) : (s.encodeIn o).closing = s.closing.encodeIn o := by
  cases he : s.cfg.eosMode with
  | nullref => rw [State.closing_of_nullref he, State.closing_of_nullref (by exact he)]; rfl
  | none => rw [State.closing_of_none he, State.closing_of_none (by exact he)]

theorem State.closed_encodeIn (hm : s.mode = .encoding) : (s.encodeIn o).closed = s.closed.encodeIn o := by
  rw [State.closed, State.closed, State.closing_encodeIn]
  by_cases hpending : 1 < s.closing.enc.codeLen.toNat
  · rw [if_pos hpending, if_pos (by exact hpending)]
    exact State.flush_encodeIn o (s.closing_mode.trans hm)
  · rw [if_neg hpending, if_neg (by exact hpending)]

theorem State.slideByte_encodeIn {t : State} (h : s.slideByte = some t) :
    (s.encodeIn o).slideByte = some (t.encodeIn o) := by
  obtain ⟨m, hdel, ⟨b, m', hb, hins, rfl⟩ | ⟨m', hend, hins, rfl⟩⟩ := State.slideByte_some h
  · exact State.slideByte_of_input (s := s.encodeIn o) hdel hb hins
  · exact State.slideByte_of_inputEnd (s := s.encodeIn o) hdel (List.getElem?_eq_none_iff.1 hend) hins

theorem State.slideFrom_encodeIn {n : Nat} {t : State} (h : s.slideFrom n = some t) :
    (s.encodeIn o).slideFrom n = some (t.encodeIn o) := by
  induction n generalizing s with
  | zero => cases h; rfl
  | succ n ih =>
    rw [State.slideFrom] at h ⊢
    cases hb : s.slideByte with
    | none => simp only [hb] at h; cases h
    | some u =>
      simp only [hb] at h
      simp only [State.slideByte_encodeIn o hb]
      exact ih h

theorem State.encodeTurn_encodeIn (hm : s.mode = .encoding) (hroom : s.codeRoom = true) {t : State}
    (h : s.encodeTurn = .next t) : (s.encodeIn o).encodeTurn = .next (t.encodeIn o) := by
  have hcoded := State.coded_encodeIn o hm
  obtain ⟨hgo, hslide⟩ | ⟨hend, rfl⟩ := State.encodeTurn_next h
  · refine State.encodeTurn_of_slide (by exact hroom) ?_ ?_ <;> rw [hcoded]
    · exact hgo
    · exact State.slideFrom_encodeIn o hslide
  · rw [State.encodeTurn_of_ends (by exact hroom) (by rw [hcoded]; exact hend), hcoded]

theorem State.encodeClose_encodeIn (hm : s.mode = .encoding) (hroom : s.codeRoom = true) {t : State}
    (h : s.encodeClose = .next t) : (s.encodeIn o).encodeClose = .next (t.encodeIn o) := by
  rw [State.encodeClose_of_codeRoom hroom] at h
  cases h
  rw [State.encodeClose_of_codeRoom (by exact hroom), State.closed_encodeIn o hm]
  by_cases hgo : s.closed.mode = .encoding
  · rw [if_pos hgo, if_pos (by exact hgo), State.finish_encodeIn o hgo]
  · rw [if_neg hgo, if_neg (by exact hgo)]

theorem step_encodeIn (hm : s.mode = .encoding) {t : State} (h : step s = .next t) :
    step (s.encodeIn o) = .next (t.encodeIn o) := by
  have hroom := State.codeRoom_eq_true (codeLen_le_of_step_encoding hm h)
  by_cases hl : s.enc.len = 0
  · rw [step_of_encodeClose hm hl] at h
    rw [step_of_encodeClose (by exact hm) (by exact hl)]
    exact State.encodeClose_encodeIn o hm hroom h
  · rw [step_of_encodeTurn hm hl] at h
    rw [step_of_encodeTurn (by exact hm) (by exact hl)]
    exact State.encodeTurn_encodeIn o hm hroom h

end

/-! ### Where a step of a running call leaves `MODE` (10_state.md R36) -/

theorem step_decoding_mode {s t : State} (hm : s.mode = .decoding) (h : step s = .next t) : t.mode ≠ .encoding := by
  obtain ⟨u, hu, hturn, -⟩ := step_decoding_turn hm
  obtain rfl : u = t := by simpa [hu] using h
  obtain hidle | ⟨hgo, -⟩ := hturn.ends_or_takesInput
  · simp [hidle]
  · simp [hgo]

theorem State.coded_mode (s : State) : s.coded.mode = .idle ∨ s.coded.mode = s.mode := by
  rw [State.coded]
  split
  · rw [← s.encodeStep_mode]
    exact State.flush_mode _
  · exact .inr s.encodeStep_mode

theorem State.closed_mode (s : State) : s.closed.mode = .idle ∨ s.closed.mode = s.mode := by
  rw [State.closed]
  split
  · rw [← s.closing_mode]
    exact State.flush_mode _
  · exact .inr s.closing_mode

theorem step_encoding_mode {s t : State} (hm : s.mode = .encoding) (h : step s = .next t) :
    t.mode = .idle ∨ t.mode = .encoding := by
  obtain ⟨-, hgo, hslide⟩ | ⟨-, rfl⟩ | rfl | ⟨-, rfl⟩ := step_encoding_cases hm h
  · exact .inr ((State.slide_mode hslide).trans hgo)
  · exact hm ▸ s.coded_mode
  · exact .inl rfl
  · exact hm ▸ s.closed_mode

/-- Settles O30: the second machine is itself with the first one's call in it, and a step commutes with putting it there. -/
theorem callsShareNothing : Obligations.CallsShareNothing := by
  intro s t s' hm h hs
  obtain hm | hm := hm
  · rw [h.eq_decodeIn hm]
    exact ⟨_, step_decodeIn t hm hs, sameCall_decodeIn s' t (step_decoding_mode hm hs), s'.decodeIn_results t⟩
  · rw [h.eq_encodeIn hm]
    have hmode : s'.mode ≠ .decoding := by
      obtain hidle | hgo := step_encoding_mode hm hs
      · simp [hidle]
      · simp [hgo]
    exact ⟨_, step_encodeIn t hm hs, sameCall_encodeIn s' t hmode, s'.encodeIn_results t⟩

/-! ### The bytes left to code (70_reset_and_hazards.md R262; 42_encoder.md R164, R168) -/

theorem State.coded_lastMatchLength (s : State) : s.coded.enc.lastMatchLength = s.encodeStep.enc.lastMatchLength := by
  rw [State.coded]
  split
  · exact State.flush_lastMatchLength _
  · rfl

/-- A codeword stands for at least one byte (R164). -/
theorem State.coded_lastMatchLength_pos (s : State) : 1 ≤ s.coded.enc.lastMatchLength.toNat := by
  rw [State.coded_lastMatchLength]
  obtain ⟨-, e⟩ | ⟨hlong, _, _, -, e⟩ := s.encodeStep_cases <;> rw [e] <;> simp only
  · decide
  · have hcap : s.cappedMatch ≤ s.enc.len.toNat := Nat.min_le_right _ _
    rw [BitVec.toNat_ofNat, Nat.mod_eq_of_lt (by omega)]
    omega

theorem State.coded_encodeMeasure (s : State) : s.coded.encodeMeasure = s.encodeMeasure := by
  rw [State.coded_frame]
  rfl

/-- A byte of SLIDE codes one of the bytes left: it is loaded, or the lookahead shrinks. -/
theorem State.slideByte_encodeMeasure {s t : State} (hl : 1 ≤ s.enc.len.toNat) (h : s.slideByte = some t) :
    t.encodeMeasure + 1 = s.encodeMeasure := by
  obtain ⟨_, -, ⟨b, _, hb, -, rfl⟩ | ⟨_, -, -, rfl⟩⟩ := State.slideByte_some h <;> simp only [State.encodeMeasure]
  · obtain ⟨hin, -⟩ := List.getElem?_eq_some_iff.1 hb
    omega
  · have hdec : (s.enc.len - 1).toNat = s.enc.len.toNat - 1 := by bv_omega
    omega

theorem State.slideFrom_encodeMeasure {n : Nat} {s t : State} (hn : n ≤ s.enc.len.toNat) (h : s.slideFrom n = some t) :
    t.encodeMeasure + n = s.encodeMeasure := by
  induction n generalizing s with
  | zero => cases h; rfl
  | succ n ih =>
    rw [State.slideFrom] at h
    split at h
    · cases h
    · next u hu =>
      have hbyte := State.slideByte_encodeMeasure (by omega) hu
      have hrest := ih (by have := State.slideByte_len hu; omega) h
      omega

/-- SLIDE codes as many of the bytes left as the codeword just emitted stands for. -/
theorem State.slide_encodeMeasure {s t : State} (hn : s.enc.lastMatchLength.toNat ≤ s.enc.len.toNat) (h : s.slide = some t) :
    t.encodeMeasure + s.enc.lastMatchLength.toNat = s.encodeMeasure :=
  State.slideFrom_encodeMeasure (s := { s with enc := { s.enc with i := 0 } }) hn h

/-- A turn after which the ENCODE goes on leaves fewer bytes to code. -/
theorem encodeMeasure_lt_of_step {s t : State} (hm : s.mode = .encoding) (h : step s = .next t) (ht : t.mode = .encoding) :
    t.encodeMeasure < s.encodeMeasure := by
  obtain ⟨hl, -, hslide⟩ := step_encoding_goes_on hm h ht
  have hpos := s.coded_lastMatchLength_pos
  have hslid := State.slide_encodeMeasure (State.coded_lastMatchLength_le hl) hslide
  rw [State.coded_encodeMeasure] at hslid
  omega

/-! ### A step of a running ENCODE answers or faults (60_exceptions.md R230, log 15, 16) -/

theorem step_encoding_next_or_fault {s : State} (hm : s.mode = .encoding) :
    (∃ t, step s = .next t) ∨ ∃ f, step s = .fault f := by
  by_cases hroom : s.codeRoom = true
  · by_cases hl : s.enc.len = 0
    · exact .inl ⟨_, (step_of_encodeClose hm hl).trans (State.encodeClose_of_codeRoom hroom)⟩
    · rw [step_of_encodeTurn hm hl]
      by_cases hgo : s.coded.mode = .encoding
      · cases hv : s.coded.slide with
        | some v => exact .inl ⟨v, State.encodeTurn_of_slide hroom hgo hv⟩
        | none =>
          refine .inr ⟨.treeBroken, ?_⟩
          simp only [State.encodeTurn, if_pos hroom, ← State.coded.eq_1, if_pos hgo, hv]
      · exact .inl ⟨_, State.encodeTurn_of_ends hroom hgo⟩
  · refine .inr ⟨.codeBufferFull, ?_⟩
    by_cases hl : s.enc.len = 0
    · rw [step_of_encodeClose hm hl, State.encodeClose, if_neg hroom]
    · rw [step_of_encodeTurn hm hl, State.encodeTurn, if_neg hroom]

/-- Once `s` is deleted, its byte may change: no attached key reads it (R256). -/
theorem MatchFinder.treesOk_write_clear {win : Memory} {m : MatchFinder} {r : WinPos} (h : m.treesOk win)
    (hfree : ∀ k, 1 ≤ k → k < 19 → ¬ m.attached (r + BitVec.ofNat 12 k)) (b : Byte) :
    m.treesOk (win.write (r + 18).toNat b) := by
  refine MatchFinder.treesOk_write h b fun p hp k hk e => hfree (18 - k) (by omega) (by omega) ?_
  rw [show r + BitVec.ofNat 12 (18 - k) = p by bv_omega]
  exact hp

/-- On trees clear of the lookahead a byte of SLIDE answers. -/
theorem State.treesClear.slideByte_answers {s : State} (h : s.treesClear) : ∃ t, s.slideByte = some t := by
  obtain ⟨hs, htrees, hclear⟩ := h
  obtain ⟨m, hdel, hm, hfree⟩ := MatchFinder.delete_clear htrees hclear
  rw [← hs] at hdel
  have hr : ¬ m.attached (s.enc.r + 1) := hfree 1 le_rfl (by omega)
  cases hb : s.inBuf[s.enc.ip]? with
  | some b =>
    obtain ⟨m', hins, -⟩ := MatchFinder.insert_treesOk (MatchFinder.treesOk_write_clear hm hfree b) hr
    rw [← hs] at hins
    exact ⟨_, State.slideByte_of_input hdel hb hins⟩
  | none =>
    have hend := List.getElem?_eq_none_iff.1 hb
    by_cases hlast : s.enc.len - 1 = 0
    · exact ⟨_, State.slideByte_of_inputEnd hdel hend (if_pos hlast)⟩
    · obtain ⟨m', hins, -⟩ := MatchFinder.insert_treesOk hm hr
      exact ⟨_, State.slideByte_of_inputEnd hdel hend ((if_neg hlast).trans hins)⟩

theorem State.treesClear.slideFrom_answers {n : Nat} {s : State} (h : s.treesClear) : ∃ t, s.slideFrom n = some t := by
  induction n generalizing s with
  | zero => exact ⟨s, rfl⟩
  | succ n ih =>
    obtain ⟨u, hu⟩ := h.slideByte_answers
    simp only [State.slideFrom, hu]
    exact ih (State.treesClear_slideByte h hu)

theorem State.treesClear.slide_answers {s : State} (h : s.treesClear) : ∃ t, s.slide = some t :=
  State.treesClear.slideFrom_answers (s := { s with enc := { s.enc with i := 0 } }) h

/-- In range and on ordered trees a running ENCODE's step answers. -/
theorem step_encoding_answers {s : State} (hm : s.mode = .encoding) (hrange : s.encoderInRange) (htrees : s.treesInOrder) :
    ∃ t, step s = .next t := by
  obtain ⟨⟨-, -, -, -, hs, -⟩, hslot, -, hlen, -⟩ := s.encoderInRange_iff.1 hrange hm
  have hroom : s.codeRoom = true := State.codeRoom_eq_true (by omega)
  by_cases hl : s.enc.len = 0
  · exact ⟨_, (step_of_encodeClose hm hl).trans (State.encodeClose_of_codeRoom hroom)⟩
  · rw [step_of_encodeTurn hm hl]
    by_cases hgo : s.coded.mode = .encoding
    · have hcoded : s.coded.treesClear := by
        rw [State.coded_frame]
        exact ⟨hs, htrees hm⟩
      obtain ⟨v, hv⟩ := hcoded.slide_answers
      exact ⟨v, State.encodeTurn_of_slide hroom hgo hv⟩
    · exact ⟨_, State.encodeTurn_of_ends hroom hgo⟩

/-! ### The run of an ENCODE (70_reset_and_hazards.md R262) -/

theorem run_succ_of_fault {s : State} {f : Fault} (h : step s = .fault f) (k : Nat) :
    Host.Core.run core (k + 1) s = .fault f := by
  have hcore : core.step s = .fault f := h
  simp only [Host.Core.run, hcore]

/-- Within one step per byte left to code and one more, an ENCODE has ended, or has faulted in a state with every property that
steps keep. -/
theorem run_encode_ends_or_faults {P : State → Prop} (hP : ∀ s t, P s → step s = .next t → P t) {s : State}
    (hm : s.mode = .encoding) (hs : P s) :
    ∃ k, k ≤ s.encodeMeasure + 1
      ∧ ((∃ t, Host.Core.run core k s = .next t ∧ t.mode = .idle)
        ∨ ∃ f u, Host.Core.run core k s = .fault f ∧ u.mode = .encoding ∧ P u ∧ step u = .fault f) := by
  induction hn : s.encodeMeasure using Nat.strong_induction_on generalizing s with
  | _ n ih =>
    obtain ⟨u, hstep⟩ | ⟨f, hfault⟩ := step_encoding_next_or_fault hm
    · obtain hidle | hgo := step_encoding_mode hm hstep
      · exact ⟨1, by omega, .inl ⟨u, run_succ_of_step hstep 0, hidle⟩⟩
      · have hlt := encodeMeasure_lt_of_step hm hstep hgo
        obtain ⟨k, hk, hrun⟩ := ih _ (hn ▸ hlt) hgo (hP s u hs hstep) rfl
        exact ⟨k + 1, by omega, by simpa only [run_succ_of_step hstep k] using hrun⟩
    · exact ⟨1, by omega, .inr ⟨f, s, run_succ_of_fault hfault 0, hm, hs, hfault⟩⟩

/-- Settles O56: each turn codes at least one byte; in range on ordered trees, which every step keeps, no step faults. -/
theorem encodeTerminates : Obligations.EncodeTerminates := by
  refine ⟨fun s hm => ?_, fun s hm hrange htrees => ?_⟩
  · obtain ⟨k, hk, hend | ⟨f, -, hrun, -⟩⟩ := run_encode_ends_or_faults (P := fun _ => True) (fun _ _ h _ => h) hm trivial
    · exact ⟨k, hk, .inl hend⟩
    · cases f with
      | treeBroken => exact ⟨k, hk, .inr (.inl hrun)⟩
      | codeBufferFull => exact ⟨k, hk, .inr (.inr hrun)⟩
  · obtain ⟨k, hk, ⟨t, hrun, hidle⟩ | ⟨f, u, -, hu, ⟨hrange', htrees'⟩, hfault⟩⟩ :=
      run_encode_ends_or_faults (P := fun u => u.encoderInRange ∧ u.treesInOrder)
        (fun u v ⟨hr, ht⟩ hstep => ⟨stepKeepsEncoderInRange u v hr hstep, stepKeepsTrees u v hr ht hstep⟩) hm ⟨hrange, htrees⟩
    · exact ⟨k, t, hk, hrun, hidle⟩
    · obtain ⟨v, hv⟩ := step_encoding_answers hu hrange' htrees'
      rw [hfault] at hv
      cases hv

end Sys2Proof.Machine
